-- ==== Sys2Proof/Word.lean ====
section
/-! DEFINITION. The block's words (00_scope.md R8): bytes, 16-bit values, byte lists and text. -/

namespace Sys2Proof

/-- `UInt8` of 00_scope.md R8. -/
abbrev Byte := BitVec 8

/-- `UInt16` of 00_scope.md R8. -/
abbrev Half := BitVec 16

/-- `Bytes` of 00_scope.md R8. -/
abbrev Bytes := List Byte

/-- Characters of one line of host-operation text (30_encoding.md R94). -/
abbrev Text := List Char

end Sys2Proof
end

