-- ==== Sys2Proof/Syntax.lean ====
section
/-! DEFINITION. What the host can issue: commands, strategies, packets, plan units, and one constructor of `Instr` per row of spec/opcode_table.json. -/

namespace Sys2Proof

/-- The type of a port identifier, OPEN in 00_scope.md R7: an uninterpreted word of text.
DESIGN CHOICE (log entry 5). -/
abbrev PortId := Text

/-- The type of a read-timeout value, OPEN in 00_scope.md R7: an uninterpreted word of text.
DESIGN CHOICE (log entry 5). -/
abbrev ReadTimeout := Text

/-- The type of an artifact's name (00_scope.md R7, `ARTIFACT_NAME : Name`). DESIGN CHOICE (log entry 5). -/
abbrev Name := Text

/-- The eleven wire commands, in the order of 30_encoding.md R85. -/
inductive Command where
  | readSingle
  | writeSingle
  | emulateSingle
  | readBlock
  | writeBlock
  | emulateBlock
  | setReadDelay
  | getReadDelay
  | getInfo
  | sync
  | nop
deriving DecidableEq, Repr

/-- Every command, in the order of R85. The order carries no byte values. -/
def Command.all : List Command :=
  [.readSingle, .writeSingle, .emulateSingle, .readBlock, .writeBlock, .emulateBlock,
   .setReadDelay, .getReadDelay, .getInfo, .sync, .nop]

/-- The eight bank-switch strategies of 10_state.md R28. -/
inductive Strategy where
  | none
  | f8
  | f6
  | fa
  | e0
  | e7
  | fe
  | user
deriving DecidableEq, Repr

/-- The packet record of 10_state.md R36. -/
structure Packet where
  command : Byte
  status : Byte
  requestLength : Half
  replyLength : Half
  address : Half
  checksum : Half
  payload : Bytes
deriving DecidableEq, Repr

/-- One unit of a read plan (43_sequencer.md R202). -/
inductive PlanUnit where
  /-- `Hotspot(a)`: a one-byte read of address `a` whose byte is discarded. -/
  | hotspot (a : Half)
  /-- `Block(a, off, n)`: an `n`-byte read of address `a` written to image offset `off`. -/
  | block (a : Half) (off : Nat) (n : Half)
deriving DecidableEq, Repr

/-- One constructor per row of spec/opcode_table.json, in the table's order. -/
inductive Instr where
  | readSingle (a : Half)
  | writeSingle (a : Half)
  | emulateSingle (a : Half)
  | readBlock (a : Half) (n : Half)
  | writeBlock (a : Half)
  | emulateBlock (a : Half)
  | setReadDelay (a : Half)
  | getReadDelay (a : Half)
  | getInfo (a : Half)
  | sync (a : Half)
  | nop (a : Half)
  | syncSeq
  | encodePacket (p : Packet)
  | decodeFrame (bs : Bytes)
  | checksum (bs : Bytes)
  | mkreq (c : Command) (a : Half) (n : Half)
  | write (bs : Bytes)
  | read (max : Nat)
  | synchronize
  | exchange (p : Packet)
  | setCapacity (n : Nat)
  | writeAt (off : Nat) (bs : Bytes)
  | markValid
  | execUnit (u : PlanUnit)
  | openLink (port : PortId) (timeout : ReadTimeout)
  | closeLink
  | selectStrategy (strategy : Strategy)
  | requestDump
  | step
  | abort
  | getLastArtifact
  | isValid
  | snapshot
  | stepTimes (n : Nat)
deriving DecidableEq, Repr

/-- The wire command an exchange of `MKREQ(c, a, n)` stands for, as an instruction (40_framer.md R118, R120–R130).
Only READ_BLOCK uses `n`. -/
def Instr.ofCommand (c : Command) (a n : Half) : Instr :=
  match c with
  | .readSingle => .readSingle a
  | .writeSingle => .writeSingle a
  | .emulateSingle => .emulateSingle a
  | .readBlock => .readBlock a n
  | .writeBlock => .writeBlock a
  | .emulateBlock => .emulateBlock a
  | .setReadDelay => .setReadDelay a
  | .getReadDelay => .getReadDelay a
  | .getInfo => .getInfo a
  | .sync => .sync a
  | .nop => .nop a

/-- The block's two encoded surfaces (30_encoding.md, opening): a line of host-operation text (R94),
or a byte string of the serial link (R80, R91). -/
inductive Encoded where
  | line (cs : Text)
  | wire (bs : Bytes)
deriving DecidableEq, Repr

end Sys2Proof
end

