-- ==== Sys2Proof/Config.lean ====
section
/-! DEFINITION. The implementation parameters of 00_scope.md R7 and the environment's free draws of 41_transport.md R159. -/

namespace Sys2Proof

/-- `OPC : Command → UInt8` (00_scope.md R7, 30_encoding.md R85), one byte per command. -/
structure Opcodes where
  readSingle : Byte
  writeSingle : Byte
  emulateSingle : Byte
  readBlock : Byte
  writeBlock : Byte
  emulateBlock : Byte
  setReadDelay : Byte
  getReadDelay : Byte
  getInfo : Byte
  sync : Byte
  nop : Byte
deriving DecidableEq, Repr

/-- `OPC(c)`. -/
def Opcodes.byte (o : Opcodes) (c : Command) : Byte :=
  match c with
  | .readSingle => o.readSingle
  | .writeSingle => o.writeSingle
  | .emulateSingle => o.emulateSingle
  | .readBlock => o.readBlock
  | .writeBlock => o.writeBlock
  | .emulateBlock => o.emulateBlock
  | .setReadDelay => o.setReadDelay
  | .getReadDelay => o.getReadDelay
  | .getInfo => o.getInfo
  | .sync => o.sync
  | .nop => o.nop

/-- Distinct commands have distinct bytes (30_encoding.md R85, "which must be injective"). -/
abbrev Opcodes.Distinct (o : Opcodes) : Prop := (Command.all.map o.byte).Nodup

/-- The OPEN parameters of 00_scope.md R7. A machine carries one value of it, which no step changes. -/
structure Params where
  /-- `OPC`. -/
  opc : Opcodes
  /-- `REQ_STATUS`. -/
  reqStatus : Byte
  /-- `TIMEOUT_TICKS`. -/
  timeoutTicks : Nat
  /-- `READ_TIMEOUT_RESET`. -/
  readTimeoutReset : ReadTimeout
  /-- `WRITE_TIMEOUT`: no rule reads it. -/
  writeTimeout : Text
  /-- `ARTIFACT_NAME`. -/
  artifactName : Name
  /-- `IMAGE_MAX`. -/
  imageMax : Nat
  /-- `UART_FRAMING`: no rule reads it. -/
  uartFraming : Text
deriving DecidableEq, Repr

/-- `n = 2^k` for some natural `k` (42_image.md R181). -/
abbrev isPowerOfTwo (n : Nat) : Prop := n = 2 ^ n.log2

/-- The laws 00_scope.md R7 puts on the parameters: OPC is injective, and IMAGE_MAX is a power of two ≥ 8192. -/
abbrev Params.Wf (p : Params) : Prop :=
  p.opc.Distinct ∧ isPowerOfTwo p.imageMax ∧ 8192 ≤ p.imageMax

/-- One block of the environment's draws (41_transport.md R159 (2)–(4)): what it chooses in one OPEN, WRITE or READ.
An operation looks only at the parts its rule draws (log entry 6). -/
structure EnvDraw where
  /-- OPEN: the device opens. WRITE: no failure. READ: the success flag. -/
  ok : Bool
  /-- WRITE that fails: how many bytes left. READ: how many bytes arrived in time. Cut to the rule's bound. -/
  count : Nat
  /-- READ: the bytes that arrive during the wait. -/
  arrives : Bytes
deriving DecidableEq, Repr, Inhabited

namespace Config

/-- `BAUD` (source value; no rule reads it, 70_reset_and_hazards.md R293). -/
def baud : Nat := 921600

/-- `HDR`: bytes in a frame header. -/
def hdr : Nat := 10

/-- `BLK`: bytes per block read in the implemented plans. -/
def blk : Half := 256

/-- The capacity held after reset. -/
def defaultCapacity : Nat := 4096

/-- DESIGN CHOICE (log entry 4): the opcode bytes are the images of 0..10 under an unknown permutation of the bytes.
Every injective `OPC` is of this form, and nothing more is known of it. -/
opaque opcPerm : Equiv.Perm Byte

opaque reqStatus : Byte
opaque timeoutTicks : Nat
opaque readTimeoutReset : ReadTimeout
opaque writeTimeout : Text
opaque artifactName : Name
opaque uartFraming : Text

/-- `IMAGE_MAX` is `8192 · 2^k` for an unknown `k`: any power of two ≥ 8192. -/
opaque imageMaxExponent : Nat

/-- The environment's draws past the end of the script: one free value per draw made (log entry 6). -/
opaque freeDraw : Nat → EnvDraw

/-- The parameters of the machine that comes out of reset: uninterpreted but for the laws of R7. -/
def params : Params where
  opc :=
    { readSingle := opcPerm 0
      writeSingle := opcPerm 1
      emulateSingle := opcPerm 2
      readBlock := opcPerm 3
      writeBlock := opcPerm 4
      emulateBlock := opcPerm 5
      setReadDelay := opcPerm 6
      getReadDelay := opcPerm 7
      getInfo := opcPerm 8
      sync := opcPerm 9
      nop := opcPerm 10 }
  reqStatus := reqStatus
  timeoutTicks := timeoutTicks
  readTimeoutReset := readTimeoutReset
  writeTimeout := writeTimeout
  artifactName := artifactName
  imageMax := 2 ^ (13 + imageMaxExponent)
  uartFraming := uartFraming

end Config

end Sys2Proof
end

