-- ==== Sys2Proof/Machine/State.lean ====
section
/-! DEFINITION. The state of the block (10_state.md), its results and output events, the two ways a run can stop, and the state after reset. -/

namespace Sys2Proof.Machine

/-- The nine sequencer states of 10_state.md R22. -/
inductive SeqState where
  | init
  | ready
  | dumpBegin
  | dump
  | dumpEnd
  | dumpTimeout
  | dumpAbort
  | dumpFail
  | reset
deriving DecidableEq, Repr

/-- Why a WRITE or READ failed (60_exceptions.md R250, "closed or io"). -/
inductive LinkCause where
  | closed
  | io
deriving DecidableEq, Repr

/-- The eleven error kinds of 60_exceptions.md R250. -/
inductive ErrKind where
  | transportOpen
  | transportWrite
  | transportRead
  | protoMalformed
  | protoChecksum
  | protoNoReply
  | protoIncomplete
  | bounds
  | stateBusy
  | stateNotValid
  | notSupported
deriving DecidableEq, Repr

/-- The four classes of 60_exceptions.md R250, and ConfigError beside them. -/
inductive ErrClass where
  | transport
  | protocol
  | bounds
  | state
  | config
deriving DecidableEq, Repr

/-- `Err(kind, info)`: an error with the info R250 records for it. BOUNDS records `n`, or `off` and `len`. -/
inductive Err where
  | transportOpen (port : PortId)
  | transportWrite (cause : LinkCause)
  | transportRead (cause : LinkCause)
  | protoMalformed (len : Nat)
  | protoChecksum (computed stored : Half)
  | protoNoReply
  | protoIncomplete (got expected : Nat)
  | boundsCapacity (n : Nat)
  | boundsWrite (off len : Nat)
  | stateBusy
  | stateNotValid
  | notSupported (strategy : Strategy)
deriving DecidableEq, Repr

/-- A result (00_scope.md R10): `Ok(value)` or `Err(kind, info)`, never an absent value. -/
inductive Res (α : Type) where
  | ok (a : α)
  | err (e : Err)
deriving DecidableEq, Repr

/-- The values the operations return. -/
inductive Value where
  /-- `Ok()`. -/
  | unit
  /-- REQUEST_DUMP: `STARTED` (43_sequencer.md R207). -/
  | started
  /-- ABORT: `ACCEPTED` (R218). -/
  | accepted
  /-- ABORT: `IGNORED` (R218). -/
  | ignored
  /-- IS_VALID (42_image.md R184). -/
  | flag (b : Bool)
  /-- ENCODE, READ, SNAPSHOT. -/
  | bytes (bs : Bytes)
  /-- DECODE, EXCHANGE, MKREQ. -/
  | packet (p : Packet)
  /-- CHECKSUM (40_framer.md R110). -/
  | half (v : Half)
  /-- GET_LAST_ARTIFACT: the name (43_sequencer.md R220). -/
  | name (n : Name)
  /-- GET_LAST_ARTIFACT: `NONE_YET` (R220). -/
  | noneYet
deriving DecidableEq, Repr

/-- What a `Log` event carries (10_state.md R38): an error kind, TIMEOUT or ABORT_REQUESTED. The text is not modelled. -/
inductive LogKind where
  | error (k : ErrKind)
  | timeout
  | abortRequested
deriving DecidableEq, Repr

/-- The output events of 10_state.md R38. -/
inductive Event where
  | tx (bs : Bytes)
  | lock
  | unlock
  | log (k : LogKind)
  | aborted
  | persist (name : Name) (bs : Bytes)
deriving DecidableEq, Repr

/-- Image bytes by offset: cells with strictly rising offsets, none holding 0x00.
An offset with no cell reads 0x00, the value every capacity change leaves (10_state.md R34; log entry 12). -/
abbrev Memory := List Host.Cell

/-- The Memory Image (10_state.md R33–R35). -/
structure Image where
  capacity : Nat
  data : Memory
  valid : Bool
deriving DecidableEq, Repr

/-- The transport's state (10_state.md R29–R32). -/
structure Transport where
  linkOpen : Bool
  cfgPort : Option PortId
  cfgReadTimeout : ReadTimeout
  rx : Bytes
deriving DecidableEq, Repr

/-- The sequencer's state (10_state.md R22–R28). -/
structure Sequencer where
  sc : SeqState
  countdown : Nat
  byteCount : Nat
  lock : Bool
  planIdx : Nat
  lastArtifact : Option (Name × Bytes)
  cfgStrategy : Strategy
deriving DecidableEq, Repr

/-- The model's own: where the environment's draws come from. Draw number `i` is entry `i` of the script
(30_encoding.md R95) and, past its end, the free value `Config.freeDraw i` (log entry 6). -/
structure Env where
  script : List EnvDraw
  drawIdx : Nat
deriving DecidableEq, Repr

/-- The model's own: what the last operation gave out (00_scope.md R10, 10_state.md R38; log entry 10). -/
structure Output where
  result : Option (Res Value)
  events : List Event
deriving DecidableEq, Repr

/-- One entry of the schedule: an operation the host issues, or bytes the environment appends to the receive
buffer between two transitions (41_transport.md R159 (1); log entries 1, 7). -/
inductive Input where
  | host (e : Encoded)
  | arrive (bs : Bytes)
deriving DecidableEq, Repr

/-- The whole state: the block's components (10_state.md), then the model's own fields. -/
structure State where
  seq : Sequencer
  link : Transport
  img : Image
  /-- The implementation parameters (00_scope.md R7). No step changes them (log entry 4). -/
  par : Params
  env : Env
  out : Output
  /-- What the host and the environment do next, oldest first. -/
  inputs : List Input
deriving DecidableEq, Repr

/-- Why an encoded operation is refused by the decoder (log entry 9). -/
inductive DecodeError where
  /-- The line's first word names no operation of 30_encoding.md R94. -/
  | unknownMnemonic
  /-- The operands are not those of the operation. -/
  | badOperands
  /-- A number does not fit a UInt16 operand. -/
  | operandRange
  /-- A byte string that has neither a request frame's 10 bytes nor the 14 of SYNC_SEQ. -/
  | wireLength
  /-- Byte 0 is no command's opcode. -/
  | wireCommand
  /-- The status byte is not REQ_STATUS (R88). -/
  | wireStatus
  /-- requestLength or replyLength is not the command's (R86, R87). -/
  | wireLengths
  /-- The checksum field does not match (R90). -/
  | wireChecksum
  /-- Fourteen bytes that are not SYNC_SEQ (R91). -/
  | wireSync
deriving DecidableEq, Repr

/-- Where a run stands still. -/
inductive Fault where
  /-- Raised by `step` when nothing is scheduled: the block has no autonomous step (00_scope.md R6 (2),
  93_implementation_defined.md I32, "stuck"). Safe. -/
  | hostIdle
  /-- Raised by STEP in DUMP when `plan_idx` lies outside the active plan: no reachable state (10_state.md R37 (5)),
  and no rule says what happens there (log entry 14). Safe. -/
  | planCursorOutside
deriving DecidableEq, Repr

/-- Where the model gives no meaning. -/
inductive Refusal where
  /-- Raised by `exec` for an instruction without a meaning: none is left. Safe. -/
  | notModelled (mnemonic : String)
  /-- Raised by `step` when the host's line or byte string is no operation (log entry 9). Safe. -/
  | undecodable (e : DecodeError)
deriving DecidableEq, Repr

/-- 70_reset_and_hazards.md R280, for parameters `p`: every block component at the value it lists, nothing scheduled,
no output yet, no script (log entries 13, 23). -/
def State.resetWith (p : Params) : State where
  seq :=
    { sc := .init
      countdown := 0
      byteCount := 0
      lock := false
      planIdx := 0
      lastArtifact := none
      cfgStrategy := .none }
  link :=
    { linkOpen := false
      cfgPort := none
      cfgReadTimeout := p.readTimeoutReset
      rx := [] }
  img :=
    { capacity := Config.defaultCapacity
      data := []
      valid := false }
  par := p
  env := { script := [], drawIdx := 0 }
  out := { result := none, events := [] }
  inputs := []

/-- The state after reset (R280), with the uninterpreted parameters of `Config`. -/
def State.reset : State := State.resetWith Config.params

end Sys2Proof.Machine
end

