-- ==== Sys2Proof/Machine/Flags.lean ====
section
/-! DEFINITION. Computed flags: the checksum of 40_framer.md, the activity gates of the sequencer, the image's bounds checks, and the error codes of 60_exceptions.md. -/

namespace Sys2Proof.Machine

/-- `CK(bs)` (40_framer.md R110): the sum of the bytes as naturals, mod 65536. -/
def ck (bs : Bytes) : Half := BitVec.ofNat 16 (bs.map BitVec.toNat).sum

/-- `frameCK(f)` (R110): the checksum over every byte of a frame but bytes 8 and 9. -/
def frameCk (f : Bytes) : Half := ck (f.take 8 ++ f.drop 10)

/-- The idle states {INIT, READY}, in which configuration is accepted (60_exceptions.md R258). -/
def SeqState.isIdle (sc : SeqState) : Bool := sc == .init || sc == .ready

/-- The states in which ABORT is accepted (43_sequencer.md R218). -/
def SeqState.isAbortable (sc : SeqState) : Bool := sc == .dumpBegin || sc == .dump

/-- SET_CAPACITY's check (42_image.md R181): a power of two, not above IMAGE_MAX. -/
def capacityOk (imageMax n : Nat) : Bool := decide (isPowerOfTwo n) && decide (n ≤ imageMax)

/-- WRITE_AT's check (R182), on naturals: no wrap. -/
def fitsImage (capacity off len : Nat) : Bool := decide (off + len ≤ capacity)

/-- The kind of an error (60_exceptions.md R250). -/
def Err.kind (e : Err) : ErrKind :=
  match e with
  | .transportOpen _ => .transportOpen
  | .transportWrite _ => .transportWrite
  | .transportRead _ => .transportRead
  | .protoMalformed _ => .protoMalformed
  | .protoChecksum _ _ => .protoChecksum
  | .protoNoReply => .protoNoReply
  | .protoIncomplete _ _ => .protoIncomplete
  | .boundsCapacity _ => .bounds
  | .boundsWrite _ _ => .bounds
  | .stateBusy => .stateBusy
  | .stateNotValid => .stateNotValid
  | .notSupported _ => .notSupported

/-- The codes 1–11 of R250; they appear on no wire. -/
def ErrKind.code (k : ErrKind) : Nat :=
  match k with
  | .transportOpen => 1
  | .transportWrite => 2
  | .transportRead => 3
  | .protoMalformed => 4
  | .protoChecksum => 5
  | .protoNoReply => 6
  | .protoIncomplete => 7
  | .bounds => 8
  | .stateBusy => 9
  | .stateNotValid => 10
  | .notSupported => 11

/-- The class column of R250. -/
def ErrKind.errClass (k : ErrKind) : ErrClass :=
  match k with
  | .transportOpen | .transportWrite | .transportRead => .transport
  | .protoMalformed | .protoChecksum | .protoNoReply | .protoIncomplete => .protocol
  | .bounds => .bounds
  | .stateBusy | .stateNotValid => .state
  | .notSupported => .config

/-- R250: TIMEOUT is logged with code 12 and ABORT_REQUESTED with code 13. -/
def LogKind.code (k : LogKind) : Nat :=
  match k with
  | .error e => e.code
  | .timeout => 12
  | .abortRequested => 13

end Sys2Proof.Machine
end

