-- ==== Sys2Proof/Machine/Operands.lean ====
section
/-! DEFINITION. Operand forms: frame fields and headers (30_encoding.md), requests (40_framer.md R118), the synchronize sequence, and the read plans of 43_sequencer.md. -/

namespace Sys2Proof.Machine

/-- `le16(v)` (00_scope.md R8): low byte first. -/
def le16 (v : Half) : Bytes := [v.extractLsb' 0 8, v.extractLsb' 8 8]

/-- `u16(lo, hi)` (R8): `lo + 256·hi`. -/
def u16 (lo hi : Byte) : Half := hi ++ lo

/-- Byte `i` of a frame, where it has one (30_encoding.md R82 reads no other). -/
def byteAt (f : Bytes) (i : Nat) : Byte := f.getD i 0

/-- The UInt16 field at frame offset `i` (20_memory.md R51). -/
def halfAt (f : Bytes) (i : Nat) : Half := u16 (byteAt f i) (byteAt f (i + 1))

/-- The first eight header bytes: everything but the checksum field (30_encoding.md R81). -/
def headerFields (p : Packet) : Bytes :=
  [p.command, p.status] ++ le16 p.requestLength ++ le16 p.replyLength ++ le16 p.address

/-- `header(p)` (R82): exactly 10 bytes. -/
def header (p : Packet) : Bytes := headerFields p ++ le16 p.checksum

/-- ENCODE in the source's two passes (40_framer.md R111). The packet's own checksum is ignored. -/
def encodeFrame (p : Packet) : Bytes :=
  let h0 := headerFields p ++ le16 0
  let f0 := h0 ++ p.payload
  let h1 := h0.take 8 ++ le16 (ck f0)
  h1 ++ p.payload

/-- Field extraction (30_encoding.md R82), for frames of 10 bytes or more. -/
def frameFields (f : Bytes) : Packet where
  command := byteAt f 0
  status := byteAt f 1
  requestLength := halfAt f 2
  replyLength := halfAt f 4
  address := halfAt f 6
  checksum := halfAt f 8
  payload := f.drop 10

/-- `replyLen(c, n)` (30_encoding.md R86). -/
def replyLen (c : Command) (n : Half) : Half :=
  match c with
  | .readSingle => 1
  | .readBlock => n
  | .writeSingle | .emulateSingle | .writeBlock | .emulateBlock | .setReadDelay | .getReadDelay | .getInfo
  | .sync | .nop => 0

/-- `reqLen(c, n)` (30_encoding.md R87). -/
def reqLen (c : Command) (n : Half) : Half :=
  match c with
  | .readSingle => 1
  | .readBlock => n
  | .writeSingle | .emulateSingle | .writeBlock | .emulateBlock | .setReadDelay | .getReadDelay | .getInfo
  | .sync | .nop => 0

/-- `MKREQ(c, a, n)` (40_framer.md R118). -/
def mkreq (par : Params) (c : Command) (a n : Half) : Packet where
  command := par.opc.byte c
  status := par.reqStatus
  requestLength := reqLen c n
  replyLength := replyLen c n
  address := a
  checksum := 0
  payload := []

/-- `SYNC_SEQ` (30_encoding.md R91): thirteen sync opcodes and one null byte. -/
def syncBytes (par : Params) : Bytes := List.replicate 13 (par.opc.byte .sync) ++ [0x00]

/-- A read plan with its target image size (43_sequencer.md R202). -/
structure ReadPlan where
  size : Nat
  units : List PlanUnit
deriving DecidableEq, Repr

/-- Block `i` of a bank: 256 bytes at `0x1000 + i·256`, to image offset `base + i·256` (R203, R204). -/
def planBlock (base i : Nat) : PlanUnit := .block (BitVec.ofNat 16 (0x1000 + i * 256)) (base + i * 256) Config.blk

/-- One bank's sixteen blocks, in address order. -/
def planBank (base : Nat) : List PlanUnit := (List.range 16).map (planBlock base)

/-- Plan NONE (R203). -/
def planNone : ReadPlan where
  size := 4096
  units := planBank 0

/-- Plan F8 (R204). -/
def planF8 : ReadPlan where
  size := 8192
  units := [.hotspot 0x1FF8] ++ planBank 0 ++ [.hotspot 0x1FF9] ++ planBank 0x1000

/-- The plan of a strategy; F6, FA, E0, E7, FE and USER have none (R202, R205). -/
def readPlan (s : Strategy) : Option ReadPlan :=
  match s with
  | .none => some planNone
  | .f8 => some planF8
  | .f6 | .fa | .e0 | .e7 | .fe | .user => none

/-- The units of a strategy's plan, none where it has no plan. -/
def planUnits (s : Strategy) : List PlanUnit :=
  match readPlan s with
  | some p => p.units
  | none => []

end Sys2Proof.Machine
end

