-- ==== Sys2Proof/Machine/Ops.lean ====
section
/-! DEFINITION. The named operations over memory, outputs, draws, the link, the image and the sequencer, each once; the failure path (60_exceptions.md R252, R253) among them. -/

namespace Sys2Proof.Machine

/-! ## Image bytes -/

/-- The byte at offset `a`; an offset with no cell reads 0x00 (10_state.md R34). -/
def Memory.read (m : Memory) (a : Nat) : Byte :=
  match m with
  | [] => 0
  | (k, v) :: rest => if k = a then v else Memory.read rest a

/-- Replace the byte at offset `a`, keeping the form: offsets strictly rising, no cell holding 0x00. -/
def Memory.write (m : Memory) (a : Nat) (b : Byte) : Memory :=
  match m with
  | [] => if b = 0 then [] else [(a, b)]
  | (k, v) :: rest =>
    if a < k then (if b = 0 then (k, v) :: rest else (a, b) :: (k, v) :: rest)
    else if a = k then (if b = 0 then rest else (a, b) :: rest)
    else (k, v) :: Memory.write rest a b

/-- `MemRead(off, n)` (00_scope.md R9). -/
def Memory.readBytes (m : Memory) (off n : Nat) : Bytes :=
  match n with
  | 0 => []
  | n + 1 => m.read off :: Memory.readBytes m (off + 1) n

/-- `MemWrite(off, n, v)` (00_scope.md R9), `n` the length of `bs`. -/
def Memory.writeBytes (m : Memory) (off : Nat) (bs : Bytes) : Memory :=
  match bs with
  | [] => m
  | b :: rest => Memory.writeBytes (m.write off b) (off + 1) rest

/-- Offsets strictly rising from `lo` on, no cell holding 0x00. -/
def Memory.wfFrom (m : Memory) (lo : Nat) : Bool :=
  match m with
  | [] => true
  | (k, v) :: rest => decide (lo ≤ k) && decide (v ≠ 0) && Memory.wfFrom rest (k + 1)

/-- The canonical form: equal images are equal lists. -/
def Memory.wf (m : Memory) : Bool := m.wfFrom 0

/-- Every cell lies at an offset below `cap`: the storage has `cap` bytes and no more (10_state.md R34). -/
def Memory.below (m : Memory) (cap : Nat) : Bool := m.all fun c => decide (c.1 < cap)

/-- The image's bytes in offset order (20_memory.md R52). -/
def Image.bytes (img : Image) : Bytes := img.data.readBytes 0 img.capacity

/-! ## Results, events, draws -/

/-- Run `f` on the value of a result; an error ends the operation with it (00_scope.md R9, `raise`). -/
def bindOp {α β : Type} (r : Res α × State) (f : α → State → Res β × State) : Res β × State :=
  match r with
  | (.ok a, s) => f a s
  | (.err e, s) => (.err e, s)

/-- Begin an operation: no result and no event of it yet (10_state.md R38). -/
def start (s : State) : State := { s with out := { result := none, events := [] } }

/-- `emit E` (00_scope.md R9). -/
def emit (e : Event) (s : State) : State :=
  { s with out := { result := s.out.result, events := s.out.events ++ [e] } }

/-- Give the operation's result to its caller (R10). -/
def finish (r : Res Value) (s : State) : State :=
  { s with out := { result := some r, events := s.out.events } }

/-- A result as the host reads it, `f` naming its value. -/
def Res.toValue {α : Type} (r : Res α) (f : α → Value) : Res Value :=
  match r with
  | .ok a => .ok (f a)
  | .err e => .err e

/-- The next state of an operation that returned `r`. -/
def answer {α : Type} (f : α → Value) (r : Res α × State) : Host.Outcome State Fault Refusal :=
  .next (finish (r.1.toValue f) r.2)

/-- Draw number `drawIdx`: the script's entry, or past its end a free value (41_transport.md R159; log entry 6). -/
def nextDraw (s : State) : EnvDraw :=
  match s.env.script[s.env.drawIdx]? with
  | some d => d
  | none => Config.freeDraw s.env.drawIdx

/-- Count one draw made. -/
def drawn (s : State) : State :=
  { s with env := { script := s.env.script, drawIdx := s.env.drawIdx + 1 } }

/-! ## Packet Codec -/

/-- DECODE (40_framer.md R113). -/
def decodePacket (bs : Bytes) : Res Packet :=
  if bs.length < 10 then .err (.protoMalformed bs.length)
  else if frameCk bs ≠ halfAt bs 8 then .err (.protoChecksum (frameCk bs) (halfAt bs 8))
  else .ok (frameFields bs)

/-! ## Transport -/

def setRx (rx : Bytes) (s : State) : State := { s with link := { s.link with rx := rx } }

def setLinkOpen (b : Bool) (s : State) : State := { s with link := { s.link with linkOpen := b } }

/-- WRITE (41_transport.md R153). -/
def linkWrite (bs : Bytes) (s : State) : Res Unit × State :=
  if s.link.linkOpen = false then (.err (.transportWrite .closed), s)
  else if (nextDraw s).ok then (.ok (), emit (.tx bs) (drawn s))
  else (.err (.transportWrite .io), emit (.tx (bs.take (nextDraw s).count)) (drawn s))

/-- The receive buffer with the bytes that arrive during a READ (R154). -/
def readBuffer (s : State) : Bytes := s.link.rx ++ (nextDraw s).arrives

/-- How many bytes a READ of at most `max` takes (R154): the draw, cut to `min(max, len(rx))`. -/
def readCount (max : Nat) (s : State) : Nat := min (nextDraw s).count (min max (readBuffer s).length)

/-- The state after a READ on an open link: the bytes taken are gone from the buffer (R154). -/
def afterRead (max : Nat) (s : State) : State := setRx ((readBuffer s).drop (readCount max s)) (drawn s)

/-- READ (R154). The bytes taken are lost when the success flag is false. -/
def linkRead (max : Nat) (s : State) : Res Bytes × State :=
  if s.link.linkOpen = false then (.err (.transportRead .closed), s)
  else if (nextDraw s).ok then (.ok ((readBuffer s).take (readCount max s)), afterRead max s)
  else (.err (.transportRead .io), afterRead max s)

/-- SYNCHRONIZE (R155): one WRITE, no read. -/
def synchronizeLink (s : State) : Res Unit × State := linkWrite (syncBytes s.par) s

/-- What EXCHANGE makes of the bytes READ returned (R156). -/
def checkReply (expected : Nat) (r : Bytes) : Res Packet :=
  if r.length = 0 then .err .protoNoReply
  else if r.length < expected then .err (.protoIncomplete r.length expected)
  else decodePacket r

/-- How many bytes EXCHANGE reads: the header and the request's replyLength (R156, R157). -/
def expectedSize (p : Packet) : Nat := Config.hdr + p.replyLength.toNat

/-- EXCHANGE (R156). -/
def exchangePacket (p : Packet) (s : State) : Res Packet × State :=
  bindOp (linkWrite (encodeFrame p) s) fun _ s1 =>
    bindOp (linkRead (expectedSize p) s1) fun r s2 => (checkReply (expectedSize p) r, s2)

/-- OPEN (R151). -/
def openPort (port : PortId) (timeout : ReadTimeout) (s : State) : Res Unit × State :=
  if s.seq.sc.isIdle = false then (.err .stateBusy, s)
  else if (nextDraw s).ok then
    (.ok (), drawn { s with link := { linkOpen := true, cfgPort := some port, cfgReadTimeout := timeout, rx := [] } })
  else (.err (.transportOpen port), drawn (setLinkOpen false s))

/-- CLOSE (R152). -/
def closePort (s : State) : Res Unit × State :=
  if s.seq.sc.isIdle = false then (.err .stateBusy, s) else (.ok (), setLinkOpen false s)

/-- An environment move between transitions (R159 (1)); it is open to the environment only while the link is open (log entry 7). -/
def arriveBytes (bs : Bytes) (s : State) : State :=
  if s.link.linkOpen then setRx (s.link.rx ++ bs) s else s

/-! ## Memory Image -/

def setImage (img : Image) (s : State) : State := { s with img := img }

/-- SET_CAPACITY (42_image.md R181). -/
def imageSetCapacity (n : Nat) (s : State) : Res Unit × State :=
  if capacityOk s.par.imageMax n then (.ok (), setImage { capacity := n, data := [], valid := false } s)
  else (.err (.boundsCapacity n), s)

/-- WRITE_AT (R182). -/
def imageWriteAt (off : Nat) (bs : Bytes) (s : State) : Res Unit × State :=
  if fitsImage s.img.capacity off bs.length then
    (.ok (), setImage { capacity := s.img.capacity, data := s.img.data.writeBytes off bs, valid := false } s)
  else (.err (.boundsWrite off bs.length), s)

/-- MARK_VALID (R183). -/
def imageMarkValid (s : State) : State := setImage { s.img with valid := true } s

/-- SNAPSHOT (R185): a copy of the bytes, so later writes do not change it. -/
def imageSnapshot (s : State) : Res Bytes :=
  if s.img.valid then .ok s.img.bytes else .err .stateNotValid

/-! ## Sequencer -/

def setSc (sc : SeqState) (s : State) : State := { s with seq := { s.seq with sc := sc } }

/-- Taking the failure path (60_exceptions.md R252): log the kind, go to DUMP_FAIL, save nothing else. -/
def enterFailure (k : ErrKind) (s : State) : State := setSc .dumpFail (emit (.log (.error k)) s)

/-- Take the lock and notify (43_sequencer.md R211). -/
def takeLock (s : State) : State := emit .lock { s with seq := { s.seq with lock := true } }

/-- Release the lock; a notification only where it was held (10_state.md R25, 43_sequencer.md R216, R217). -/
def releaseLock (s : State) : State :=
  if s.seq.lock then emit .unlock { s with seq := { s.seq with lock := false } } else s

/-- The failure path's return (R253): DUMP_FAIL releases the lock, signals `Aborted`, and goes to RESET (R216). -/
def leaveFailure (s : State) : State := setSc .reset (emit .aborted (releaseLock s))

/-- EXEC_UNIT (43_sequencer.md R206). -/
def runUnit (u : PlanUnit) (s : State) : Res Unit × State :=
  match u with
  | .hotspot a => bindOp (exchangePacket (mkreq s.par .readSingle a 1) s) fun _ s1 => (.ok (), s1)
  | .block a off n =>
    bindOp (exchangePacket (mkreq s.par .readBlock a n) s) fun p s1 =>
      bindOp (imageWriteAt off p.payload s1) fun _ s2 =>
        (.ok (), { s2 with seq := { s2.seq with byteCount := s2.seq.byteCount + p.payload.length } })

/-- After a unit that succeeded (R212): advance the cursor; completion wins over the countdown. -/
def advancePlan (s : State) : State :=
  let s1 := { s with seq := { s.seq with planIdx := s.seq.planIdx + 1 } }
  if s1.seq.planIdx = (planUnits s1.seq.cfgStrategy).length then setSc .dumpEnd s1
  else if s1.seq.countdown = 0 then setSc .dumpTimeout s1
  else s1

end Sys2Proof.Machine
end

