-- ==== Sys2Proof/Machine/Codec.lean ====
section
/-! DEFINITION. The Packet Codec's operations (40_framer.md R110–R118). They write no component of the block. -/

namespace Sys2Proof.Machine

/-- CHECKSUM (R110). -/
def execChecksum (bs : Bytes) (s : State) : Host.Outcome State Fault Refusal :=
  answer .half (.ok (ck bs), start s)

/-- ENCODE (R111). -/
def execEncodePacket (p : Packet) (s : State) : Host.Outcome State Fault Refusal :=
  answer .bytes (.ok (encodeFrame p), start s)

/-- DECODE (R113). -/
def execDecodeFrame (bs : Bytes) (s : State) : Host.Outcome State Fault Refusal :=
  answer .packet (decodePacket bs, start s)

/-- MKREQ (R118). -/
def execMkreq (c : Command) (a n : Half) (s : State) : Host.Outcome State Fault Refusal :=
  answer .packet (.ok (mkreq s.par c a n), start s)

end Sys2Proof.Machine
end

