-- ==== Sys2Proof/Machine/ImageOps.lean ====
section
/-! DEFINITION. The Memory Image's operations (42_image.md R181–R185). -/

namespace Sys2Proof.Machine

/-- SET_CAPACITY (R181). -/
def execSetCapacity (n : Nat) (s : State) : Host.Outcome State Fault Refusal :=
  answer (fun _ => .unit) (imageSetCapacity n (start s))

/-- WRITE_AT (R182). -/
def execWriteAt (off : Nat) (bs : Bytes) (s : State) : Host.Outcome State Fault Refusal :=
  answer (fun _ => .unit) (imageWriteAt off bs (start s))

/-- MARK_VALID (R183). -/
def execMarkValid (s : State) : Host.Outcome State Fault Refusal :=
  answer (fun _ : Unit => .unit) (.ok (), imageMarkValid (start s))

/-- IS_VALID (R184). -/
def execIsValid (s : State) : Host.Outcome State Fault Refusal :=
  answer .flag (.ok s.img.valid, start s)

/-- SNAPSHOT (R185). -/
def execSnapshot (s : State) : Host.Outcome State Fault Refusal :=
  answer .bytes (imageSnapshot s, start s)

end Sys2Proof.Machine
end

