-- ==== Sys2Proof/Machine/Link.lean ====
section
/-! DEFINITION. The transport's operations (41_transport.md R151–R156). -/

namespace Sys2Proof.Machine

/-- OPEN (R151). -/
def execOpenLink (port : PortId) (timeout : ReadTimeout) (s : State) : Host.Outcome State Fault Refusal :=
  answer (fun _ => .unit) (openPort port timeout (start s))

/-- CLOSE (R152). -/
def execCloseLink (s : State) : Host.Outcome State Fault Refusal :=
  answer (fun _ => .unit) (closePort (start s))

/-- WRITE (R153). -/
def execWrite (bs : Bytes) (s : State) : Host.Outcome State Fault Refusal :=
  answer (fun _ => .unit) (linkWrite bs (start s))

/-- READ (R154). -/
def execRead (max : Nat) (s : State) : Host.Outcome State Fault Refusal :=
  answer .bytes (linkRead max (start s))

/-- SYNCHRONIZE (R155). -/
def execSynchronize (s : State) : Host.Outcome State Fault Refusal :=
  answer (fun _ => .unit) (synchronizeLink (start s))

/-- EXCHANGE (R156). -/
def execExchange (p : Packet) (s : State) : Host.Outcome State Fault Refusal :=
  answer .packet (exchangePacket p (start s))

end Sys2Proof.Machine
end

