-- ==== Sys2Proof/Machine/Sequence.lean ====
section
/-! DEFINITION. The sequencer's operations (43_sequencer.md R206–R220) and the pseudo-operation STEP ×n (30_encoding.md R95). -/

namespace Sys2Proof.Machine

/-- EXEC_UNIT (R206). -/
def execExecUnit (u : PlanUnit) (s : State) : Host.Outcome State Fault Refusal :=
  answer (fun _ => .unit) (runUnit u (start s))

/-- SELECT_STRATEGY (R219). -/
def execSelectStrategy (strategy : Strategy) (s : State) : Host.Outcome State Fault Refusal :=
  if s.seq.sc.isIdle = false then answer (fun _ : Unit => .unit) (.err .stateBusy, start s)
  else answer (fun _ : Unit => .unit) (.ok (), start { s with seq := { s.seq with cfgStrategy := strategy } })

/-- REQUEST_DUMP (R207). -/
def execRequestDump (s : State) : Host.Outcome State Fault Refusal :=
  if s.seq.sc ≠ .ready then answer (fun _ : Unit => .started) (.err .stateBusy, start s)
  else answer (fun _ : Unit => .started) (.ok (), start (setSc .dumpBegin s))

/-- ABORT (R218). -/
def execAbort (s : State) : Host.Outcome State Fault Refusal :=
  if s.seq.sc.isAbortable then answer (fun _ : Unit => .accepted) (.ok (), start (setSc .dumpAbort s))
  else answer (fun _ : Unit => .ignored) (.ok (), start s)

/-- GET_LAST_ARTIFACT (R220). -/
def execGetLastArtifact (s : State) : Host.Outcome State Fault Refusal :=
  match s.seq.lastArtifact with
  | some (name, _) => answer (fun _ : Unit => .name name) (.ok (), start s)
  | none => answer (fun _ : Unit => .noneYet) (.ok (), start s)

/-- STEP in INIT (R209). -/
def stepInit (s : State) : State := setSc .ready s

/-- STEP in READY (R210). -/
def stepReady (s : State) : State := s

def setByteCount (n : Nat) (s : State) : State := { s with seq := { s.seq with byteCount := n } }

def setPlanIdx (n : Nat) (s : State) : State := { s with seq := { s.seq with planIdx := n } }

/-- DUMP_BEGIN's preparation for a plan (R211): lock, byte count, image, cursor. -/
def prepareDump (p : ReadPlan) (s : State) : State :=
  setPlanIdx 0 (imageSetCapacity p.size (setByteCount 0 (takeLock s))).2

/-- Load the countdown (R211). -/
def loadCountdown (s : State) : State := { s with seq := { s.seq with countdown := s.par.timeoutTicks } }

/-- Where DUMP_BEGIN goes once SYNCHRONIZE has returned (R211). -/
def afterSync (r : Res Unit × State) : State :=
  match r with
  | (.ok _, s1) => setSc .dump (loadCountdown s1)
  | (.err e, s1) => enterFailure e.kind (loadCountdown s1)

/-- STEP in DUMP_BEGIN (R211). -/
def stepDumpBegin (s : State) : State :=
  match readPlan s.seq.cfgStrategy with
  | none => enterFailure .notSupported s
  | some p => afterSync (synchronizeLink (prepareDump p s))

/-- Consume one tick (R212). -/
def consumeTick (s : State) : State := { s with seq := { s.seq with countdown := s.seq.countdown - 1 } }

/-- Where DUMP goes once its unit has been executed (R212). -/
def afterUnit (r : Res Unit × State) : State :=
  match r with
  | (.ok _, s1) => advancePlan s1
  | (.err e, s1) => enterFailure e.kind s1

/-- STEP in DUMP (R212); nothing where the cursor lies outside the plan (log entry 14). -/
def stepDump (s : State) : Option State :=
  if s.seq.countdown = 0 then some (setSc .dumpTimeout s)
  else
    match (planUnits s.seq.cfgStrategy)[s.seq.planIdx]? with
    | none => none
    | some u => some (afterUnit (runUnit u (consumeTick s)))

/-- STEP in DUMP_END (R213). -/
def stepDumpEnd (s : State) : State :=
  let s1 := imageMarkValid s
  let b := s1.img.bytes
  let s2 := { s1 with seq := { s1.seq with lastArtifact := some (s1.par.artifactName, b) } }
  setSc .reset (emit (.persist s2.par.artifactName b) s2)

/-- STEP in DUMP_TIMEOUT (R214). -/
def stepDumpTimeout (s : State) : State := setSc .dumpFail (emit (.log .timeout) s)

/-- STEP in DUMP_ABORT (R215). -/
def stepDumpAbort (s : State) : State := setSc .dumpFail (emit (.log .abortRequested) s)

/-- STEP in DUMP_FAIL (R216). -/
def stepDumpFail (s : State) : State := leaveFailure s

/-- STEP in RESET (R217). -/
def stepReset (s : State) : State := setSc .ready (releaseLock s)

/-- The work of one STEP, by the state (R208). -/
def tick (s : State) : Option State :=
  match s.seq.sc with
  | .init => some (stepInit s)
  | .ready => some (stepReady s)
  | .dumpBegin => some (stepDumpBegin s)
  | .dump => stepDump s
  | .dumpEnd => some (stepDumpEnd s)
  | .dumpTimeout => some (stepDumpTimeout s)
  | .dumpAbort => some (stepDumpAbort s)
  | .dumpFail => some (stepDumpFail s)
  | .reset => some (stepReset s)

/-- STEP (R208): always `Ok()`; a failure inside it is a `Log` event and a state. -/
def execStep (s : State) : Host.Outcome State Fault Refusal :=
  match tick (start s) with
  | some s' => answer (fun _ : Unit => .unit) (.ok (), s')
  | none => .fault .planCursorOutside

/-- `STEP ×n` (30_encoding.md R95): it stands for n consecutive STEP lines, which come next in the schedule (log entry 11). -/
def execStepTimes (n : Nat) (s : State) : Host.Outcome State Fault Refusal :=
  .next { s with inputs := List.replicate n (.host (.line ['S', 'T', 'E', 'P'])) ++ s.inputs }

end Sys2Proof.Machine
end

