-- ==== Sys2Proof/Machine/Wire.lean ====
section
/-! DEFINITION. The eleven wire commands as unit-level exchanges (40_framer.md R118, R120–R130; log entry 2), and SYNC_SEQ (30_encoding.md R91). -/

namespace Sys2Proof.Machine

/-- One wire command: EXCHANGE of the request MKREQ builds for it (40_framer.md section 3, its opening). -/
def exchangeCommand (c : Command) (a n : Half) (s : State) : Host.Outcome State Fault Refusal :=
  answer .packet (exchangePacket (mkreq s.par c a n) (start s))

/-- READ_SINGLE (R120): an 11-byte reply is expected. -/
def execReadSingle (a : Half) (s : State) : Host.Outcome State Fault Refusal := exchangeCommand .readSingle a 1 s

/-- WRITE_SINGLE (R121): a 10-byte reply is expected. -/
def execWriteSingle (a : Half) (s : State) : Host.Outcome State Fault Refusal := exchangeCommand .writeSingle a 0 s

/-- EMULATE_SINGLE (R122): a 10-byte reply is expected. -/
def execEmulateSingle (a : Half) (s : State) : Host.Outcome State Fault Refusal := exchangeCommand .emulateSingle a 0 s

/-- READ_BLOCK (R123): a reply of 10 + n bytes is expected. -/
def execReadBlock (a n : Half) (s : State) : Host.Outcome State Fault Refusal := exchangeCommand .readBlock a n s

/-- WRITE_BLOCK (R124): a 10-byte reply is expected. -/
def execWriteBlock (a : Half) (s : State) : Host.Outcome State Fault Refusal := exchangeCommand .writeBlock a 0 s

/-- EMULATE_BLOCK (R125): a 10-byte reply is expected. -/
def execEmulateBlock (a : Half) (s : State) : Host.Outcome State Fault Refusal := exchangeCommand .emulateBlock a 0 s

/-- SET_READ_DELAY (R126): a 10-byte reply is expected. -/
def execSetReadDelay (a : Half) (s : State) : Host.Outcome State Fault Refusal := exchangeCommand .setReadDelay a 0 s

/-- GET_READ_DELAY (R127): a 10-byte reply is expected. -/
def execGetReadDelay (a : Half) (s : State) : Host.Outcome State Fault Refusal := exchangeCommand .getReadDelay a 0 s

/-- GET_INFO (R128): a 10-byte reply is expected. -/
def execGetInfo (a : Half) (s : State) : Host.Outcome State Fault Refusal := exchangeCommand .getInfo a 0 s

/-- SYNC as a frame (R129): a 10-byte reply is expected. -/
def execSync (a : Half) (s : State) : Host.Outcome State Fault Refusal := exchangeCommand .sync a 0 s

/-- NOP (R130): a 10-byte reply is expected. -/
def execNop (a : Half) (s : State) : Host.Outcome State Fault Refusal := exchangeCommand .nop a 0 s

/-- SYNC_SEQ (30_encoding.md R91): the 14 raw bytes, in one WRITE. -/
def execSyncSeq (s : State) : Host.Outcome State Fault Refusal :=
  answer (fun _ => .unit) (linkWrite (syncBytes s.par) (start s))

end Sys2Proof.Machine
end

