-- ==== Sys2Proof/Machine/Dispatch.lean ====
section
/-! DEFINITION. One arm per instruction. -/

namespace Sys2Proof.Machine

def exec (i : Instr) (s : State) : Host.Outcome State Fault Refusal :=
  match i with
  | .readSingle a => Sys2Proof.Machine.execReadSingle a s
  | .writeSingle a => Sys2Proof.Machine.execWriteSingle a s
  | .emulateSingle a => Sys2Proof.Machine.execEmulateSingle a s
  | .readBlock a n => Sys2Proof.Machine.execReadBlock a n s
  | .writeBlock a => Sys2Proof.Machine.execWriteBlock a s
  | .emulateBlock a => Sys2Proof.Machine.execEmulateBlock a s
  | .setReadDelay a => Sys2Proof.Machine.execSetReadDelay a s
  | .getReadDelay a => Sys2Proof.Machine.execGetReadDelay a s
  | .getInfo a => Sys2Proof.Machine.execGetInfo a s
  | .sync a => Sys2Proof.Machine.execSync a s
  | .nop a => Sys2Proof.Machine.execNop a s
  | .syncSeq => Sys2Proof.Machine.execSyncSeq s
  | .encodePacket p => Sys2Proof.Machine.execEncodePacket p s
  | .decodeFrame bs => Sys2Proof.Machine.execDecodeFrame bs s
  | .checksum bs => Sys2Proof.Machine.execChecksum bs s
  | .mkreq c a n => Sys2Proof.Machine.execMkreq c a n s
  | .write bs => Sys2Proof.Machine.execWrite bs s
  | .read max => Sys2Proof.Machine.execRead max s
  | .synchronize => Sys2Proof.Machine.execSynchronize s
  | .exchange p => Sys2Proof.Machine.execExchange p s
  | .setCapacity n => Sys2Proof.Machine.execSetCapacity n s
  | .writeAt off bs => Sys2Proof.Machine.execWriteAt off bs s
  | .markValid => Sys2Proof.Machine.execMarkValid s
  | .execUnit u => Sys2Proof.Machine.execExecUnit u s
  | .openLink port timeout => Sys2Proof.Machine.execOpenLink port timeout s
  | .closeLink => Sys2Proof.Machine.execCloseLink s
  | .selectStrategy strategy => Sys2Proof.Machine.execSelectStrategy strategy s
  | .requestDump => Sys2Proof.Machine.execRequestDump s
  | .step => Sys2Proof.Machine.execStep s
  | .abort => Sys2Proof.Machine.execAbort s
  | .getLastArtifact => Sys2Proof.Machine.execGetLastArtifact s
  | .isValid => Sys2Proof.Machine.execIsValid s
  | .snapshot => Sys2Proof.Machine.execSnapshot s
  | .stepTimes n => Sys2Proof.Machine.execStepTimes n s

end Sys2Proof.Machine
end

