-- ==== Sys2Proof/WellFormed.lean ====
section
/-! DEFINITION. Well-formed operands. Widths are in the types (00_scope.md R8); what is left to check is that a port
identifier and a read timeout are words of the text syntax (30_encoding.md R94, log entry 3). -/

namespace Sys2Proof

/-- A character that ends a word of a line: blanks, the operand punctuation, and the comment sign. -/
def isDelimiter (c : Char) : Bool :=
  c == ' ' || c == ',' || c == '(' || c == ')' || c == '[' || c == ']' || c == ';'

/-- A nonempty run of characters none of which ends a word. -/
def isWord (w : Text) : Bool := !w.isEmpty && w.all fun c => !isDelimiter c

/-- The operands of `i` can be written as `i`'s row asks. -/
def WellFormed (i : Instr) : Bool :=
  match i with
  | .openLink port timeout => isWord port && isWord timeout
  | .readSingle _ | .writeSingle _ | .emulateSingle _ | .readBlock _ _ | .writeBlock _ | .emulateBlock _
  | .setReadDelay _ | .getReadDelay _ | .getInfo _ | .sync _ | .nop _ | .syncSeq => true
  | .encodePacket _ | .decodeFrame _ | .checksum _ | .mkreq _ _ _ => true
  | .write _ | .read _ | .synchronize | .exchange _ => true
  | .setCapacity _ | .writeAt _ _ | .markValid | .isValid | .snapshot => true
  | .execUnit _ | .closeLink | .selectStrategy _ | .requestDump | .step | .abort | .getLastArtifact => true
  | .stepTimes _ => true

end Sys2Proof
end

