-- ==== Sys2Proof/Decode.lean ====
section
/-! DEFINITION. The decoder of host text (30_encoding.md R94, R95) and of wire byte strings (R80–R91), total and rejecting by name, and after it the encoder. The operand text is log entry 3. -/

namespace Sys2Proof

open Machine

/-! ## Words of a line -/

/-- The tokens of a line: words and operand punctuation. -/
inductive Tok where
  | word (w : Text)
  | comma
  | lpar
  | rpar
  | lbrk
  | rbrk
deriving DecidableEq, Repr

/-- The token of a punctuation character. -/
def punctuation (c : Char) : Option Tok :=
  if c = ',' then some .comma
  else if c = '(' then some .lpar
  else if c = ')' then some .rpar
  else if c = '[' then some .lbrk
  else if c = ']' then some .rbrk
  else none

/-- The word gathered so far, its characters last first. -/
def closeWord (acc : Text) : List Tok :=
  match acc with
  | [] => []
  | c :: cs => [.word (c :: cs).reverse]

/-- Split a line into tokens; from `;` on it is a comment (R94). -/
def lexFrom (acc : Text) (cs : Text) : List Tok :=
  match cs with
  | [] => closeWord acc
  | c :: rest =>
    if c = ';' then closeWord acc
    else if c = ' ' then closeWord acc ++ lexFrom [] rest
    else match punctuation c with
      | some t => closeWord acc ++ t :: lexFrom [] rest
      | none => lexFrom (c :: acc) rest

/-- The tokens of a whole line. -/
def lex (cs : Text) : List Tok := lexFrom [] cs

/-! ## Numbers -/

/-- The value of a decimal digit. -/
def decDigit (c : Char) : Option Nat :=
  if '0'.toNat ≤ c.toNat ∧ c.toNat ≤ '9'.toNat then some (c.toNat - '0'.toNat) else none

/-- The value of a hexadecimal digit, of either case. -/
def hexDigit (c : Char) : Option Nat :=
  if '0'.toNat ≤ c.toNat ∧ c.toNat ≤ '9'.toNat then some (c.toNat - '0'.toNat)
  else if 'A'.toNat ≤ c.toNat ∧ c.toNat ≤ 'F'.toNat then some (c.toNat - 'A'.toNat + 10)
  else if 'a'.toNat ≤ c.toNat ∧ c.toNat ≤ 'f'.toNat then some (c.toNat - 'a'.toNat + 10)
  else none

/-- Digits in base `base`, most significant first, after the digits of `acc`. -/
def digitsFrom (base : Nat) (digit : Char → Option Nat) (acc : Nat) (w : Text) : Option Nat :=
  match w with
  | [] => some acc
  | c :: rest =>
    match digit c with
    | some d => digitsFrom base digit (acc * base + d) rest
    | none => none

/-- A nonempty run of digits. -/
def digits (base : Nat) (digit : Char → Option Nat) (w : Text) : Option Nat :=
  match w with
  | [] => none
  | c :: rest => digitsFrom base digit 0 (c :: rest)

/-- A number: decimal, or hexadecimal after `0x` (30_encoding.md R94's operands, as 95_test_vectors.md writes them). -/
def number (w : Text) : Option Nat :=
  match w with
  | '0' :: 'x' :: rest => digits 16 hexDigit rest
  | w => digits 10 decDigit w

/-- A UInt16 written as a number. -/
def halfNumber (w : Text) : Except DecodeError Half :=
  match number w with
  | none => .error .badOperands
  | some n => if n < 65536 then .ok (BitVec.ofNat 16 n) else .error .operandRange

/-- A Nat written as a number. -/
def natNumber (w : Text) : Except DecodeError Nat :=
  match number w with
  | none => .error .badOperands
  | some n => .ok n

/-- A byte written as two hexadecimal digits. -/
def byteWord (w : Text) : Except DecodeError Byte :=
  match w with
  | [a, b] =>
    match hexDigit a, hexDigit b with
    | some x, some y => .ok (BitVec.ofNat 8 (16 * x + y))
    | _, _ => .error .badOperands
  | _ => .error .badOperands

/-- A UInt16 written as four hexadecimal digits (the packet fields of 95_test_vectors.md section 2.1). -/
def halfWord (w : Text) : Except DecodeError Half :=
  match w with
  | [a, b, c, d] =>
    match hexDigit a, hexDigit b, hexDigit c, hexDigit d with
    | some x, some y, some z, some t => .ok (BitVec.ofNat 16 (4096 * x + 256 * y + 16 * z + t))
    | _, _, _, _ => .error .badOperands
  | _ => .error .badOperands

/-! ## Operands -/

/-- The bytes of a list after its `[`, and the tokens after its `]`. -/
def bytesTail (ts : List Tok) : Except DecodeError (Bytes × List Tok) :=
  match ts with
  | .rbrk :: rest => .ok ([], rest)
  | .word w :: rest =>
    match byteWord w with
    | .error e => .error e
    | .ok b =>
      match bytesTail rest with
      | .error e => .error e
      | .ok (bs, rest') => .ok (b :: bs, rest')
  | _ => .error .badOperands

/-- A byte list that ends the operands: `[01 02 03]`, then exactly the tokens `after`. -/
def bytesThen (after : List Tok) (ts : List Tok) : Except DecodeError Bytes :=
  match ts with
  | .lbrk :: rest =>
    match bytesTail rest with
    | .error e => .error e
    | .ok (bs, rest') => if rest' = after then .ok bs else .error .badOperands
  | _ => .error .badOperands

/-- A strategy's name (30_encoding.md R94). -/
def strategyText (s : Strategy) : Text :=
  match s with
  | .none => ['N', 'O', 'N', 'E']
  | .f8 => ['F', '8']
  | .f6 => ['F', '6']
  | .fa => ['F', 'A']
  | .e0 => ['E', '0']
  | .e7 => ['E', '7']
  | .fe => ['F', 'E']
  | .user => ['U', 'S', 'E', 'R']

def allStrategies : List Strategy := [.none, .f8, .f6, .fa, .e0, .e7, .fe, .user]

def strategyWord (w : Text) : Except DecodeError Strategy :=
  match allStrategies.find? fun s => strategyText s = w with
  | some s => .ok s
  | none => .error .badOperands

/-- A command's name (30_encoding.md R85). -/
def commandText (c : Command) : Text :=
  match c with
  | .readSingle => ['R', 'E', 'A', 'D', '_', 'S', 'I', 'N', 'G', 'L', 'E']
  | .writeSingle => ['W', 'R', 'I', 'T', 'E', '_', 'S', 'I', 'N', 'G', 'L', 'E']
  | .emulateSingle => ['E', 'M', 'U', 'L', 'A', 'T', 'E', '_', 'S', 'I', 'N', 'G', 'L', 'E']
  | .readBlock => ['R', 'E', 'A', 'D', '_', 'B', 'L', 'O', 'C', 'K']
  | .writeBlock => ['W', 'R', 'I', 'T', 'E', '_', 'B', 'L', 'O', 'C', 'K']
  | .emulateBlock => ['E', 'M', 'U', 'L', 'A', 'T', 'E', '_', 'B', 'L', 'O', 'C', 'K']
  | .setReadDelay => ['S', 'E', 'T', '_', 'R', 'E', 'A', 'D', '_', 'D', 'E', 'L', 'A', 'Y']
  | .getReadDelay => ['G', 'E', 'T', '_', 'R', 'E', 'A', 'D', '_', 'D', 'E', 'L', 'A', 'Y']
  | .getInfo => ['G', 'E', 'T', '_', 'I', 'N', 'F', 'O']
  | .sync => ['S', 'Y', 'N', 'C']
  | .nop => ['N', 'O', 'P']

def commandWord (w : Text) : Except DecodeError Command :=
  match Command.all.find? fun c => commandText c = w with
  | some c => .ok c
  | none => .error .badOperands

/-- The operands of `MKREQ(c, a, n)` (40_framer.md R118). -/
def mkreqOperands (ts : List Tok) : Except DecodeError (Command × Half × Half) :=
  match ts with
  | [.lpar, .word c, .comma, .word a, .comma, .word n, .rpar] => do
    let c ← commandWord c
    let a ← halfNumber a
    let n ← halfNumber n
    return (c, a, n)
  | _ => .error .badOperands

def mkreqText : Text := ['M', 'K', 'R', 'E', 'Q']

/-- A packet operand: its fields in the order of 10_state.md R36, `(04, 00, 0100, 0100, 1000, 0016, [])`; the same
without the checksum (95_test_vectors.md section 2.1), which is then 0; or `MKREQ(c, a, n)`, the packet it builds. -/
def packetOperand (par : Params) (ts : List Tok) : Except DecodeError Packet :=
  match ts with
  | .lpar :: .word cm :: .comma :: .word st :: .comma :: .word rq :: .comma :: .word rp :: .comma :: .word ad
      :: .comma :: rest => do
    let cm ← byteWord cm
    let st ← byteWord st
    let rq ← halfWord rq
    let rp ← halfWord rp
    let ad ← halfWord ad
    match rest with
    | .word k :: .comma :: rest' => do
      let k ← halfWord k
      let pay ← bytesThen [.rpar] rest'
      return { command := cm, status := st, requestLength := rq, replyLength := rp, address := ad, checksum := k,
               payload := pay }
    | rest' => do
      let pay ← bytesThen [.rpar] rest'
      return { command := cm, status := st, requestLength := rq, replyLength := rp, address := ad, checksum := 0,
               payload := pay }
  | .word w :: rest =>
    if w = mkreqText then do
      let (c, a, n) ← mkreqOperands rest
      return mkreq par c a n
    else .error .badOperands
  | _ => .error .badOperands

def hotspotText : Text := ['H', 'o', 't', 's', 'p', 'o', 't']
def blockText : Text := ['B', 'l', 'o', 'c', 'k']

/-- A plan unit: `Hotspot(a)` or `Block(a, off, n)` (43_sequencer.md R202). -/
def unitOperand (ts : List Tok) : Except DecodeError PlanUnit :=
  match ts with
  | [.word w, .lpar, .word a, .rpar] =>
    if w = hotspotText then do
      let a ← halfNumber a
      return .hotspot a
    else .error .badOperands
  | [.word w, .lpar, .word a, .comma, .word off, .comma, .word n, .rpar] =>
    if w = blockText then do
      let a ← halfNumber a
      let off ← natNumber off
      let n ← halfNumber n
      return .block a off n
    else .error .badOperands
  | _ => .error .badOperands

/-! ## Lines -/

/-- The operations written as lines (30_encoding.md R94), and `CK` and `MKREQ` as their table rows write them. -/
inductive Keyword where
  | kOpen
  | kClose
  | kSelectStrategy
  | kRequestDump
  | kStep
  | kAbort
  | kGetLastArtifact
  | kIsValid
  | kSnapshot
  | kEncode
  | kDecode
  | kCk
  | kMkreq
  | kWrite
  | kRead
  | kSynchronize
  | kExchange
  | kSetCapacity
  | kWriteAt
  | kMarkValid
  | kExecUnit
deriving DecidableEq, Repr

def allKeywords : List Keyword :=
  [.kOpen, .kClose, .kSelectStrategy, .kRequestDump, .kStep, .kAbort, .kGetLastArtifact, .kIsValid, .kSnapshot,
   .kEncode, .kDecode, .kCk, .kMkreq, .kWrite, .kRead, .kSynchronize, .kExchange, .kSetCapacity, .kWriteAt,
   .kMarkValid, .kExecUnit]

/-- The word an operation's line begins with. -/
def keywordText (k : Keyword) : Text :=
  match k with
  | .kOpen => ['O', 'P', 'E', 'N']
  | .kClose => ['C', 'L', 'O', 'S', 'E']
  | .kSelectStrategy => ['S', 'E', 'L', 'E', 'C', 'T', '_', 'S', 'T', 'R', 'A', 'T', 'E', 'G', 'Y']
  | .kRequestDump => ['R', 'E', 'Q', 'U', 'E', 'S', 'T', '_', 'D', 'U', 'M', 'P']
  | .kStep => ['S', 'T', 'E', 'P']
  | .kAbort => ['A', 'B', 'O', 'R', 'T']
  | .kGetLastArtifact => ['G', 'E', 'T', '_', 'L', 'A', 'S', 'T', '_', 'A', 'R', 'T', 'I', 'F', 'A', 'C', 'T']
  | .kIsValid => ['I', 'S', '_', 'V', 'A', 'L', 'I', 'D']
  | .kSnapshot => ['S', 'N', 'A', 'P', 'S', 'H', 'O', 'T']
  | .kEncode => ['E', 'N', 'C', 'O', 'D', 'E']
  | .kDecode => ['D', 'E', 'C', 'O', 'D', 'E']
  | .kCk => ['C', 'K']
  | .kMkreq => mkreqText
  | .kWrite => ['W', 'R', 'I', 'T', 'E']
  | .kRead => ['R', 'E', 'A', 'D']
  | .kSynchronize => ['S', 'Y', 'N', 'C', 'H', 'R', 'O', 'N', 'I', 'Z', 'E']
  | .kExchange => ['E', 'X', 'C', 'H', 'A', 'N', 'G', 'E']
  | .kSetCapacity => ['S', 'E', 'T', '_', 'C', 'A', 'P', 'A', 'C', 'I', 'T', 'Y']
  | .kWriteAt => ['W', 'R', 'I', 'T', 'E', '_', 'A', 'T']
  | .kMarkValid => ['M', 'A', 'R', 'K', '_', 'V', 'A', 'L', 'I', 'D']
  | .kExecUnit => ['E', 'X', 'E', 'C', '_', 'U', 'N', 'I', 'T']

/-- The operation a word names. -/
def keyword (w : Text) : Option Keyword := allKeywords.find? fun k => keywordText k = w

/-- An operation that takes no operand. -/
def bare (i : Instr) (args : List Tok) : Except DecodeError Instr :=
  if args = [] then .ok i else .error .badOperands

/-- The instruction of a keyword and its operands. -/
def decodeArgs (par : Params) (k : Keyword) (args : List Tok) : Except DecodeError Instr :=
  match k with
  | .kOpen =>
    match args with
    | [.word p, .comma, .word t] => if isWord p && isWord t then .ok (.openLink p t) else .error .badOperands
    | _ => .error .badOperands
  | .kClose => bare .closeLink args
  | .kSelectStrategy =>
    match args with
    | [.word w] => do
      let s ← strategyWord w
      return .selectStrategy s
    | _ => .error .badOperands
  | .kRequestDump => bare .requestDump args
  | .kStep =>
    match args with
    | [] => .ok .step
    | [.word ('×' :: w)] => do
      let n ← natNumber w
      return .stepTimes n
    | _ => .error .badOperands
  | .kAbort => bare .abort args
  | .kGetLastArtifact => bare .getLastArtifact args
  | .kIsValid => bare .isValid args
  | .kSnapshot => bare .snapshot args
  | .kEncode => do
    let p ← packetOperand par args
    return .encodePacket p
  | .kDecode => do
    let bs ← bytesThen [] args
    return .decodeFrame bs
  | .kCk =>
    match args with
    | .lpar :: rest => do
      let bs ← bytesThen [.rpar] rest
      return .checksum bs
    | _ => .error .badOperands
  | .kMkreq => do
    let (c, a, n) ← mkreqOperands args
    return .mkreq c a n
  | .kWrite => do
    let bs ← bytesThen [] args
    return .write bs
  | .kRead =>
    match args with
    | [.word w] => do
      let n ← natNumber w
      return .read n
    | _ => .error .badOperands
  | .kSynchronize => bare .synchronize args
  | .kExchange => do
    let p ← packetOperand par args
    return .exchange p
  | .kSetCapacity =>
    match args with
    | [.word w] => do
      let n ← natNumber w
      return .setCapacity n
    | _ => .error .badOperands
  | .kWriteAt =>
    match args with
    | .word w :: .comma :: rest => do
      let off ← natNumber w
      let bs ← bytesThen [] rest
      return .writeAt off bs
    | _ => .error .badOperands
  | .kMarkValid => bare .markValid args
  | .kExecUnit => do
    let u ← unitOperand args
    return .execUnit u

/-- What an encoded entry of the schedule is. -/
inductive Decoded where
  | instr (i : Instr)
  /-- A line of blanks or comment only (R94): no operation. -/
  | comment
  | reject (e : DecodeError)
deriving DecidableEq, Repr

def Decoded.ofExcept (r : Except DecodeError Instr) : Decoded :=
  match r with
  | .ok i => .instr i
  | .error e => .reject e

/-- Decode one line of text (R94). -/
def decodeLine (par : Params) (cs : Text) : Decoded :=
  match lex cs with
  | [] => .comment
  | .word w :: args =>
    match keyword w with
    | some k => .ofExcept (decodeArgs par k args)
    | none => .reject .unknownMnemonic
  | _ => .reject .unknownMnemonic

/-! ## Wire byte strings -/

/-- The command whose opcode a byte is (R85). -/
def commandOf (par : Params) (b : Byte) : Option Command := Command.all.find? fun c => par.opc.byte c = b

/-- Decode a byte string: a request frame as MKREQ builds it (40_framer.md R118, R120–R130), or SYNC_SEQ (R91). -/
def decodeWire (par : Params) (bs : Bytes) : Decoded :=
  if bs.length = 14 then (if bs = syncBytes par then .instr .syncSeq else .reject .wireSync)
  else if bs.length ≠ 10 then .reject .wireLength
  else
    match commandOf par (byteAt bs 0) with
    | none => .reject .wireCommand
    | some c =>
      let n := halfAt bs 4
      if byteAt bs 1 ≠ par.reqStatus then .reject .wireStatus
      else if n ≠ replyLen c n ∨ halfAt bs 2 ≠ reqLen c n then .reject .wireLengths
      else if halfAt bs 8 ≠ frameCk bs then .reject .wireChecksum
      else .instr (Instr.ofCommand c (halfAt bs 6) n)

/-- The decoder: total on every line and every byte string. -/
def decode (par : Params) (e : Encoded) : Decoded :=
  match e with
  | .line cs => decodeLine par cs
  | .wire bs => decodeWire par bs

/-! ## The encoder -/

/-- A hexadecimal digit as text. -/
def hexChar (d : Nat) : Char := if d < 10 then Char.ofNat (48 + d) else Char.ofNat (55 + d)

def byteText (b : Byte) : Text := [hexChar (b.toNat / 16), hexChar (b.toNat % 16)]

def halfText (v : Half) : Text :=
  [hexChar (v.toNat / 4096), hexChar (v.toNat / 256 % 16), hexChar (v.toNat / 16 % 16), hexChar (v.toNat % 16)]

/-- A number in decimal. -/
def natText (n : Nat) : Text := Nat.toDigits 10 n

/-- An address in hexadecimal, `0x1FF8`. -/
def addressText (a : Half) : Text := '0' :: 'x' :: halfText a

def bytesToks (bs : Bytes) : List Tok := .lbrk :: bs.map (fun b => .word (byteText b)) ++ [.rbrk]

def packetToks (p : Packet) : List Tok :=
  [.lpar, .word (byteText p.command), .comma, .word (byteText p.status), .comma, .word (halfText p.requestLength),
   .comma, .word (halfText p.replyLength), .comma, .word (halfText p.address), .comma, .word (halfText p.checksum),
   .comma] ++ bytesToks p.payload ++ [.rpar]

def mkreqToks (c : Command) (a n : Half) : List Tok :=
  [.lpar, .word (commandText c), .comma, .word (addressText a), .comma, .word (natText n.toNat), .rpar]

def unitToks (u : PlanUnit) : List Tok :=
  match u with
  | .hotspot a => [.word hotspotText, .lpar, .word (addressText a), .rpar]
  | .block a off n =>
    [.word blockText, .lpar, .word (addressText a), .comma, .word (natText off), .comma, .word (natText n.toNat), .rpar]

/-- A blank between two words. -/
def gap (ts : List Tok) : Text :=
  match ts with
  | .word _ :: _ => [' ']
  | _ => []

/-- Tokens as text. -/
def render (ts : List Tok) : Text :=
  match ts with
  | [] => []
  | .word w :: rest => w ++ gap rest ++ render rest
  | .comma :: rest => ',' :: ' ' :: render rest
  | .lpar :: rest => '(' :: render rest
  | .rpar :: rest => ')' :: render rest
  | .lbrk :: rest => '[' :: render rest
  | .rbrk :: rest => ']' :: render rest

/-- A line: the keyword, a blank where operands follow, and the operands. -/
def lineOf (k : Keyword) (args : List Tok) : Encoded :=
  match args with
  | [] => .line (keywordText k)
  | t :: ts => .line (keywordText k ++ ' ' :: render (t :: ts))

/-- A function row's text, `CK(bs)`, `MKREQ(c, a, n)`: no blank before its parenthesis. -/
def callOf (k : Keyword) (args : List Tok) : Encoded := .line (keywordText k ++ render args)

/-- The request frame of a command (40_framer.md R118). -/
def requestOf (par : Params) (c : Command) (a n : Half) : Encoded := .wire (encodeFrame (mkreq par c a n))

/-- The text line or the bytes of an instruction. -/
def encode (par : Params) (i : Instr) : Encoded :=
  match i with
  | .readSingle a => requestOf par .readSingle a 1
  | .writeSingle a => requestOf par .writeSingle a 0
  | .emulateSingle a => requestOf par .emulateSingle a 0
  | .readBlock a n => requestOf par .readBlock a n
  | .writeBlock a => requestOf par .writeBlock a 0
  | .emulateBlock a => requestOf par .emulateBlock a 0
  | .setReadDelay a => requestOf par .setReadDelay a 0
  | .getReadDelay a => requestOf par .getReadDelay a 0
  | .getInfo a => requestOf par .getInfo a 0
  | .sync a => requestOf par .sync a 0
  | .nop a => requestOf par .nop a 0
  | .syncSeq => .wire (syncBytes par)
  | .encodePacket p => lineOf .kEncode (packetToks p)
  | .decodeFrame bs => lineOf .kDecode (bytesToks bs)
  | .checksum bs => callOf .kCk (.lpar :: bytesToks bs ++ [.rpar])
  | .mkreq c a n => callOf .kMkreq (mkreqToks c a n)
  | .write bs => lineOf .kWrite (bytesToks bs)
  | .read n => lineOf .kRead [.word (natText n)]
  | .synchronize => lineOf .kSynchronize []
  | .exchange p => lineOf .kExchange (packetToks p)
  | .setCapacity n => lineOf .kSetCapacity [.word (natText n)]
  | .writeAt off bs => lineOf .kWriteAt (.word (natText off) :: .comma :: bytesToks bs)
  | .markValid => lineOf .kMarkValid []
  | .execUnit u => lineOf .kExecUnit (unitToks u)
  | .openLink p t => lineOf .kOpen [.word p, .comma, .word t]
  | .closeLink => lineOf .kClose []
  | .selectStrategy s => lineOf .kSelectStrategy [.word (strategyText s)]
  | .requestDump => lineOf .kRequestDump []
  | .step => lineOf .kStep []
  | .abort => lineOf .kAbort []
  | .getLastArtifact => lineOf .kGetLastArtifact []
  | .isValid => lineOf .kIsValid []
  | .snapshot => lineOf .kSnapshot []
  | .stepTimes n => lineOf .kStep [.word ('×' :: natText n)]

/-! ## Words numbered as the opcode table numbers them -/

/-- The `k` bytes of a number, least significant first (log entry 15). -/
def bytesOfNat (k w : Nat) : Bytes :=
  match k with
  | 0 => []
  | k + 1 => BitVec.ofNat 8 w :: bytesOfNat k (w / 256)

/-- Bytes as text: ASCII, and `×` from its two UTF-8 bytes C3 97; `held` says that a C3 waits for its second byte. -/
def textOfBytes (held : Bool) (bs : Bytes) : Text :=
  match bs with
  | [] => if held then [Char.ofNat 0xC3] else []
  | b :: rest =>
    if held then
      (if b = 0x97 then '×' :: textOfBytes false rest
       else Char.ofNat 0xC3 :: Char.ofNat b.toNat :: textOfBytes false rest)
    else if b = 0xC3 then textOfBytes true rest
    else Char.ofNat b.toNat :: textOfBytes false rest

/-- A byte string filled with zero bytes up to a length of the wire surface. -/
def padWire (bs : Bytes) : Bytes :=
  if bs.length ≤ 10 then bs ++ List.replicate (10 - bs.length) 0 else bs ++ List.replicate (14 - bs.length) 0

/-- The encoded operation a number of `nbits` bits stands for: the line its bytes spell, if that is an operation, and
else the wire byte string they make (log entry 15). -/
def encodedOfWord (par : Params) (nbits w : Nat) : Encoded :=
  let bs := bytesOfNat ((nbits + 7) / 8) w
  match decodeLine par (textOfBytes false bs) with
  | .instr _ => .line (textOfBytes false bs)
  | _ => .wire (padWire bs)

/-- The instruction the decoder reads from a table word, with the parameters of `Config`. -/
def decodeTableWord (nbits w : Nat) : Option Instr :=
  match decode Config.params (encodedOfWord Config.params nbits w) with
  | .instr i => some i
  | _ => none

end Sys2Proof
end

