-- ==== Sys2Proof/Machine/Fetch.lean ====
section
/-! DEFINITION. The schedule: taking its first entry, and placing an operation there (log entries 1, 15). -/

namespace Sys2Proof.Machine

/-- What comes next: nothing, an environment move, a comment, an operation, or an entry that is none. -/
inductive Fetched where
  | idle
  | arrival (bs : Bytes)
  | comment
  | instr (i : Instr)
  | reject (e : DecodeError)
deriving DecidableEq, Repr

/-- The first entry of the schedule, decoded. -/
def fetch (s : State) : Fetched :=
  match s.inputs with
  | [] => .idle
  | .arrive bs :: _ => .arrival bs
  | .host e :: _ =>
    match decode s.par e with
    | .instr i => .instr i
    | .comment => .comment
    | .reject r => .reject r

/-- The state once the first entry of the schedule is taken from it. -/
def consumeInput (s : State) : State := { s with inputs := s.inputs.tail }

/-- `e` issued by the host next, before everything scheduled already. -/
def issue (e : Encoded) (s : State) : State := { s with inputs := .host e :: s.inputs }

/-- The operation of a table word, issued next. -/
def placeWord (s : State) (nbits w : Nat) : State := issue (encodedOfWord s.par nbits w) s

end Sys2Proof.Machine
end

