-- ==== Sys2Proof/Machine/Step.lean ====
section
/-! DEFINITION. One step: the next entry of the schedule. -/

namespace Sys2Proof.Machine

/-- One transition of the whole machine (00_scope.md R5, R6): the first entry of the schedule is taken from it and
executed. With nothing scheduled no step is enabled (93_implementation_defined.md I32). -/
def step (s : State) : Host.Outcome State Fault Refusal :=
  match fetch s with
  | .idle => .fault .hostIdle
  | .arrival bs => .next (arriveBytes bs (consumeInput s))
  | .comment => .next (consumeInput s)
  | .instr i => exec i (consumeInput s)
  | .reject e => .refused (.undecodable e)

/-- `s` with a table word's operation issued next (log entries 1, 15). -/
def State.withFetchWord (s : State) (nbits w : Nat) : State := placeWord s nbits w

end Sys2Proof.Machine
end

