-- ==== Sys2Proof/Safety.lean ====
section
/-! DEFINITION. What a safe run keeps: the invariants of 10_state.md R37 and the claims' vocabulary. -/

namespace Sys2Proof.Safety

open Machine

/-- What every step keeps, whatever the host issues (10_state.md R23, R33, R34, R37 (1), (2), (3), (5), (6)). -/
structure Inv (s : State) : Prop where
  /-- The laws of 00_scope.md R7 on the parameters. -/
  params : s.par.Wf
  /-- R37 (3): the capacity is a power of two. -/
  capacityPower : isPowerOfTwo s.img.capacity
  /-- R33: and at most IMAGE_MAX. -/
  capacityMax : s.img.capacity ≤ s.par.imageMax
  /-- The image's list is canonical. -/
  dataForm : s.img.data.wf = true
  /-- R37 (3): the storage has no byte at or past the capacity. -/
  dataBelow : s.img.data.below s.img.capacity = true
  /-- R37 (1): no lock before a dump's first step. -/
  lockFree : s.seq.sc = .init ∨ s.seq.sc = .ready ∨ s.seq.sc = .dumpBegin → s.seq.lock = false
  /-- The lock is held from the first step of a dump to its end (43_sequencer.md R211, R221). -/
  lockHeld : s.seq.sc = .dump ∨ s.seq.sc = .dumpEnd ∨ s.seq.sc = .dumpTimeout → s.seq.lock = true
  /-- R37 (5): the cursor is inside the active plan. -/
  cursor : s.seq.sc = .dump → s.seq.planIdx < (planUnits s.seq.cfgStrategy).length
  /-- R37 (6). -/
  countdown : s.seq.countdown ≤ s.par.timeoutTicks

/-- Bytes the units of a plan write into the image (43_sequencer.md R206). -/
def unitBytes (u : PlanUnit) : Nat :=
  match u with
  | .hotspot _ => 0
  | .block _ _ n => n.toNat

/-- What every step keeps while the host issues no unit-level operation (R37 (4), 42_image.md R186, 43_sequencer.md R212, R213). -/
structure HostInv (s : State) : Prop where
  /-- R37 (4); "past the strategy check" is that the lock was taken. -/
  invalid : s.seq.sc = .dump ∨ s.seq.sc = .dumpEnd ∨ s.seq.sc = .dumpTimeout ∨
    ((s.seq.sc = .dumpAbort ∨ s.seq.sc = .dumpFail) ∧ s.seq.lock = true) → s.img.valid = false
  /-- During the plan the image has the plan's size, and the byte count is that of the units done. -/
  progress : s.seq.sc = .dump → ∃ p, readPlan s.seq.cfgStrategy = some p ∧ s.img.capacity = p.size ∧
    s.seq.byteCount = ((p.units.take s.seq.planIdx).map unitBytes).sum
  /-- At the plan's end the byte count is the whole image. -/
  complete : s.seq.sc = .dumpEnd → ∃ p, readPlan s.seq.cfgStrategy = some p ∧ s.img.capacity = p.size ∧
    s.seq.byteCount = p.size

/-- The host operations of 00_scope.md R5, with the pseudo-operation STEP ×n. The others are unit operations and
wire commands, which unit-level tests invoke (30_encoding.md R94, 42_image.md R180). -/
def isHostOp (i : Instr) : Bool :=
  match i with
  | .openLink _ _ | .closeLink | .selectStrategy _ | .requestDump | .step | .abort | .getLastArtifact | .isValid
  | .snapshot | .stepTimes _ => true
  | .readSingle _ | .writeSingle _ | .emulateSingle _ | .readBlock _ _ | .writeBlock _ | .emulateBlock _
  | .setReadDelay _ | .getReadDelay _ | .getInfo _ | .sync _ | .nop _ | .syncSeq => false
  | .encodePacket _ | .decodeFrame _ | .checksum _ | .mkreq _ _ _ | .write _ | .read _ | .synchronize | .exchange _
  | .setCapacity _ | .writeAt _ _ | .markValid | .execUnit _ => false

/-- The schedule's next entry is no unit-level operation. -/
def hostOnly (s : State) : Prop := ∀ i, fetch s = .instr i → isHostOp i = true

/-- The arcs of 43_sequencer.md R201 taken by STEP. -/
def stepArcs (sc : SeqState) : List SeqState :=
  match sc with
  | .init => [.ready]
  | .ready => [.ready]
  | .dumpBegin => [.dump, .dumpFail]
  | .dump => [.dump, .dumpEnd, .dumpTimeout, .dumpFail]
  | .dumpEnd => [.reset]
  | .dumpTimeout => [.dumpFail]
  | .dumpAbort => [.dumpFail]
  | .dumpFail => [.reset]
  | .reset => [.ready]

/-- `n` STEPs in a row, each one host operation. -/
def steps (n : Nat) (s : State) : Host.Outcome State Fault Refusal :=
  match n with
  | 0 => .next s
  | n + 1 =>
    match exec .step s with
    | .next t => steps n t
    | .fault f => .fault f
    | .refused r => .refused r

/-- Lock and Unlock events of a list (10_state.md R38). -/
def lockEvents (es : List Event) : List Event := es.filter fun e => e == .lock || e == .unlock

/-- The draw number `k` of the environment of `s` (41_transport.md R159). -/
def draw (s : State) (k : Nat) : EnvDraw :=
  match s.env.script[k]? with
  | some d => d
  | none => Config.freeDraw k

/-- R212: the unit at the plan's cursor, executed once its tick is taken, answers `r`. -/
def unitAnswers (s : State) (r : Res Value) : Prop :=
  ∃ u t, (planUnits s.seq.cfgStrategy)[s.seq.planIdx]? = some u ∧
    exec (.execUnit u) { s with seq := { s.seq with countdown := s.seq.countdown - 1 } } = .next t ∧ t.out.result = some r

/-- The bytes the EXCHANGE of a unit asks for (43_sequencer.md R206, 41_transport.md R157). -/
def unitAsks (u : PlanUnit) : Nat :=
  match u with
  | .hotspot _ => 11
  | .block _ _ n => 10 + n.toNat

/-- The bytes the EXCHANGE of a STEP asks for; only a DUMP step with ticks left makes one (43_sequencer.md R208–R217). -/
def stepAsks (s : State) : Option Nat :=
  if s.seq.sc = .dump ∧ 0 < s.seq.countdown then (planUnits s.seq.cfgStrategy)[s.seq.planIdx]?.map unitAsks else none

/-- The bytes an instruction's EXCHANGE asks for, and none where it makes no EXCHANGE (41_transport.md R156, R157). -/
def exchangeAsks (i : Instr) (s : State) : Option Nat :=
  match i with
  | .readSingle _ => some 11
  | .readBlock _ n => some (10 + n.toNat)
  | .writeSingle _ | .emulateSingle _ | .writeBlock _ | .emulateBlock _ | .setReadDelay _ | .getReadDelay _ | .getInfo _
  | .sync _ | .nop _ => some 10
  | .exchange p => some (10 + p.replyLength.toNat)
  | .execUnit u => some (unitAsks u)
  | .step => stepAsks s
  | .syncSeq | .encodePacket _ | .decodeFrame _ | .checksum _ | .mkreq _ _ _ | .write _ | .read _ | .synchronize
  | .setCapacity _ | .writeAt _ _ | .markValid | .openLink _ _ | .closeLink | .selectStrategy _ | .requestDump | .abort
  | .getLastArtifact | .isValid | .snapshot | .stepTimes _ => none

/-- What a READ of at most `max` with draw number `k` leaves in `rx` (R154): what it held and what arrived, without the
drawn number of bytes, at most `min(max, len)`, at the front. -/
def rxAfterRead (max k : Nat) (s : State) : Bytes :=
  (s.link.rx ++ (draw s k).arrives).drop
    (min (draw s k).count (min max (s.link.rx ++ (draw s k).arrives).length))

/-- What an EXCHANGE that asks for `max` bytes leaves in `rx` (R156): its READ comes second, and only on an open link whose
WRITE went through. -/
def rxAfterExchange (max : Nat) (s : State) : Bytes :=
  if s.link.linkOpen = true ∧ (draw s s.env.drawIdx).ok = true then rxAfterRead max (s.env.drawIdx + 1) s else s.link.rx

/-- `s` with an operation's outputs. -/
def withOut (r : Res Value) (es : List Event) (s : State) : State := { s with out := { result := some r, events := es } }

/-- `s` with `k` more draws made. -/
def withDraws (k : Nat) (s : State) : State := { s with env := { script := s.env.script, drawIdx := s.env.drawIdx + k } }

end Sys2Proof.Safety
end

