-- ==== Sys2Proof/Certificates/Slice0/Obligations.lean ====
section
/-! DEFINITION. The statements for the provers. -/

open Sys2Proof Sys2Proof.Machine Sys2Proof.Safety

/-! ## Encoding -/

/-- Lines written out from 30_encoding.md R94 and 95_test_vectors.md, and the frames C1, C2 of section 2.1, decode to the
operations they stand for. The opcode bytes are premises: the spec gives none (R85). -/
def Obligations.KnownEncodingsDecode : Prop :=
  ∀ par : Params,
    decode par (.line "OPEN p0, t0            ; Ok".toList) = .instr (.openLink ['p', '0'] ['t', '0']) ∧
    decode par (.line "SELECT_STRATEGY F8".toList) = .instr (.selectStrategy .f8) ∧
    decode par (.line "STEP ×19".toList) = .instr (.stepTimes 19) ∧
    decode par (.line "WRITE_AT 4096, []".toList) = .instr (.writeAt 4096 []) ∧
    decode par (.line "WRITE [01 02 03]".toList) = .instr (.write [0x01, 0x02, 0x03]) ∧
    decode par (.line "MKREQ(READ_BLOCK, 0x1000, 256)".toList) = .instr (.mkreq .readBlock 0x1000 256) ∧
    decode par (.line "; text".toList) = .comment ∧
    (par.opc.Distinct → par.opc.readBlock = 0x04 → par.reqStatus = 0x00 →
      decode par (.wire [0x04, 0x00, 0x00, 0x01, 0x00, 0x01, 0x00, 0x10, 0x16, 0x00]) =
        .instr (.readBlock 0x1000 256)) ∧
    (par.opc.Distinct → par.opc.readSingle = 0x01 → par.reqStatus = 0x00 →
      decode par (.wire [0x01, 0x00, 0x01, 0x00, 0x01, 0x00, 0xF8, 0x1F, 0x1A, 0x01]) =
        .instr (.readSingle 0x1FF8))

/-- Decoding the encoding of a well-formed instruction gives it back, for every parameter value with distinct opcodes
and every operand. The operand text is the model's choice (log entry 3). -/
def Obligations.DecodeOfEncodeIsIdentity : Prop :=
  ∀ (par : Params) (i : Instr), par.opc.Distinct → WellFormed i = true → decode par (encode par i) = .instr i

/-- Whatever line or byte string is decoded to an instruction, that instruction is well formed. -/
def Obligations.DecodedInstructionsAreWellFormed : Prop :=
  ∀ (par : Params) (e : Encoded) (i : Instr), decode par e = .instr i → WellFormed i = true

/-- A wire byte string has one meaning: only the request frame that MKREQ builds, and only SYNC_SEQ, decode, and each
is the encoding of what it decodes to (30_encoding.md R85–R91, 40_framer.md R118; log entry 2). -/
def Obligations.WireStringsDecodeToOneInstruction : Prop :=
  ∀ (par : Params) (bs : Bytes) (i : Instr), decode par (.wire bs) = .instr i → encode par i = .wire bs

/-! ## The step -/

/-- When the schedule's next entry decodes to an instruction, a step takes the entry and executes it. -/
def Obligations.StepExecutesDecodedInstruction : Prop :=
  ∀ (s : State) (e : Encoded) (rest : List Input) (i : Instr),
    s.inputs = .host e :: rest → decode s.par e = .instr i → step s = exec i { s with inputs := rest }

/-- The other entries: nothing scheduled is stuck (93_implementation_defined.md I32); an arrival is appended to `rx` while
the link is open (41_transport.md R159 (1)), and has no effect while it is closed (the model's choice, log entry 7);
a comment has no effect (30_encoding.md R94); an entry that is no operation is refused (the model's choice, log entry 9). -/
def Obligations.StepOnEntriesThatAreNoOperation : Prop :=
  ∀ (s : State) (rest : List Input),
    (s.inputs = [] → step s = .fault .hostIdle) ∧
    (∀ bs, s.inputs = .arrive bs :: rest → s.link.linkOpen = true →
      step s = .next { s with inputs := rest, link := { s.link with rx := s.link.rx ++ bs } }) ∧
    (∀ bs, s.inputs = .arrive bs :: rest → s.link.linkOpen = false → step s = .next { s with inputs := rest }) ∧
    (∀ e, s.inputs = .host e :: rest → decode s.par e = .comment → step s = .next { s with inputs := rest }) ∧
    (∀ e r, s.inputs = .host e :: rest → decode s.par e = .reject r → step s = .refused (.undecodable r))

/-! ## Packet Codec -/

/-- CHECKSUM (R110): the plain sum of the bytes, mod 65536, over the whole list; over bytes 0–7 and the payload of a frame;
reduced at each addition (which the spec derives) or once; in any order. It writes nothing. -/
def Obligations.ChecksumIsTheByteSum : Prop :=
  (∀ (bs : Bytes) (s : State), exec (.checksum bs) s =
    .next (withOut (.ok (.half (BitVec.ofNat 16 ((bs.map BitVec.toNat).sum % 65536)))) [] s)) ∧
  (∀ f : Bytes, (frameCk f).toNat = (((f.take 8).map BitVec.toNat).sum + ((f.drop 10).map BitVec.toNat).sum) % 65536) ∧
  (∀ bs : Bytes, (ck bs).toNat = bs.foldl (fun a b => (a + b.toNat) % 65536) 0) ∧
  (∀ bs bs' : Bytes, bs.Perm bs' → ck bs = ck bs')

/-- ENCODE (R111, R81, R82): every header byte by its offset, little-endian, then the payload; bytes 8 and 9 hold the sum of
all other bytes mod 65536. The packet's own checksum does not matter. Nothing is written. -/
def Obligations.EncodeLaysOutTheFrame : Prop :=
  ∀ (p : Packet) (s : State), ∃ f : Bytes,
    exec (.encodePacket p) s = .next (withOut (.ok (.bytes f)) [] s) ∧
    f.length = 10 + p.payload.length ∧
    byteAt f 0 = p.command ∧ byteAt f 1 = p.status ∧
    (byteAt f 2).toNat = p.requestLength.toNat % 256 ∧ (byteAt f 3).toNat = p.requestLength.toNat / 256 ∧
    (byteAt f 4).toNat = p.replyLength.toNat % 256 ∧ (byteAt f 5).toNat = p.replyLength.toNat / 256 ∧
    (byteAt f 6).toNat = p.address.toNat % 256 ∧ (byteAt f 7).toNat = p.address.toNat / 256 ∧
    (byteAt f 8).toNat = ((f.take 8 ++ p.payload).map BitVec.toNat).sum % 65536 % 256 ∧
    (byteAt f 9).toNat = ((f.take 8 ++ p.payload).map BitVec.toNat).sum % 65536 / 256 ∧
    f.drop 10 = p.payload

/-- ENCODE in one pass (R112, which the spec derives): the same frame, and its checksum field is its checksum. -/
def Obligations.EncodeInOnePass : Prop :=
  ∀ p : Packet,
    encodeFrame p = header { p with checksum := frameCk (headerFields p ++ [0x00, 0x00] ++ p.payload) } ++ p.payload ∧
    frameCk (encodeFrame p) = u16 (byteAt (encodeFrame p) 8) (byteAt (encodeFrame p) 9)

/-- DECODE (R113): too short, a checksum mismatch, or every field by its offset; nothing else is checked, and nothing is
written. -/
def Obligations.DecodeChecksLengthThenChecksum : Prop :=
  ∀ (bs : Bytes) (s : State), exec (.decodeFrame bs) s = .next (withOut
    (if bs.length < 10 then .err (.protoMalformed bs.length)
     else if ((bs.take 8 ++ bs.drop 10).map BitVec.toNat).sum % 65536 ≠ (byteAt bs 8).toNat + 256 * (byteAt bs 9).toNat then
       .err (.protoChecksum (BitVec.ofNat 16 ((bs.take 8 ++ bs.drop 10).map BitVec.toNat).sum)
         (BitVec.ofNat 16 ((byteAt bs 8).toNat + 256 * (byteAt bs 9).toNat)))
     else .ok (.packet
       { command := byteAt bs 0
         status := byteAt bs 1
         requestLength := BitVec.ofNat 16 ((byteAt bs 2).toNat + 256 * (byteAt bs 3).toNat)
         replyLength := BitVec.ofNat 16 ((byteAt bs 4).toNat + 256 * (byteAt bs 5).toNat)
         address := BitVec.ofNat 16 ((byteAt bs 6).toNat + 256 * (byteAt bs 7).toNat)
         checksum := BitVec.ofNat 16 ((byteAt bs 8).toNat + 256 * (byteAt bs 9).toNat)
         payload := bs.drop 10 })) [] s)

/-- The round-trip law (R116, the source's property, which the spec derives from R111–R113). -/
def Obligations.DecodeOfEncodedPacket : Prop :=
  ∀ p : Packet, decodePacket (encodeFrame p) = .ok { p with checksum := ck ((encodeFrame p).take 8 ++ p.payload) }

/-- Changing exactly one byte of an encoded frame, at any position and to any other value, is always detected
(R117 (1), which the spec derives; 90_conflicts.md C5). -/
def Obligations.SingleByteChangeIsDetected : Prop :=
  ∀ (p : Packet) (i : Nat) (v : Byte), i < (encodeFrame p).length → v ≠ byteAt (encodeFrame p) i →
    ∃ computed stored, computed ≠ stored ∧
      decodePacket ((encodeFrame p).set i v) = .err (.protoChecksum computed stored)

/-- Changes that keep the sum go undetected (R117 (2)): a permutation of bytes 0–7 and the payload, and appended zero bytes. -/
def Obligations.SumPreservingChangesAreAccepted : Prop :=
  ∀ (f : Bytes) (p : Packet), decodePacket f = .ok p →
    (∀ g : Bytes, 10 ≤ g.length → (g.take 8 ++ g.drop 10).Perm (f.take 8 ++ f.drop 10) → byteAt g 8 = byteAt f 8 →
      byteAt g 9 = byteAt f 9 → ∃ q, decodePacket g = .ok q ∧ q.payload = g.drop 10) ∧
    (∀ k, ∃ q, decodePacket (f ++ List.replicate k 0x00) = .ok q ∧ q.payload = p.payload ++ List.replicate k 0x00)

/-- MKREQ (R118) with the length rules R86 and R87 (requestLength is the spec's decision D4, the empty payload D5). It writes
nothing. -/
def Obligations.RequestFieldsFollowTheCommand : Prop :=
  ∀ (c : Command) (a n : Half) (s : State), exec (.mkreq c a n) s = .next (withOut (.ok (.packet
    { command := s.par.opc.byte c
      status := s.par.reqStatus
      requestLength := if c = .readSingle then 1 else if c = .readBlock then n else 0
      replyLength := if c = .readSingle then 1 else if c = .readBlock then n else 0
      address := a
      checksum := 0
      payload := [] })) [] s)

/-! ## Transport -/

/-- OPEN (R151): busy (the spec's decision D14), the device opens, or it does not (which leaves the link closed, D28). -/
def Obligations.OpenOutcomes : Prop :=
  ∀ (port : PortId) (t : ReadTimeout) (s : State),
    (s.seq.sc ≠ .init → s.seq.sc ≠ .ready → exec (.openLink port t) s = .next (withOut (.err .stateBusy) [] s)) ∧
    ((s.seq.sc = .init ∨ s.seq.sc = .ready) → (draw s s.env.drawIdx).ok = true →
      exec (.openLink port t) s = .next (withOut (.ok .unit) [] (withDraws 1
        { s with link := { linkOpen := true, cfgPort := some port, cfgReadTimeout := t, rx := [] } }))) ∧
    ((s.seq.sc = .init ∨ s.seq.sc = .ready) → (draw s s.env.drawIdx).ok = false →
      exec (.openLink port t) s = .next (withOut (.err (.transportOpen port)) [] (withDraws 1
        { s with link := { s.link with linkOpen := false } })))

/-- CLOSE (R152): busy (the spec's decision D14), or the link is closed and nothing else changes. -/
def Obligations.CloseOutcomes : Prop :=
  ∀ s : State,
    (s.seq.sc ≠ .init → s.seq.sc ≠ .ready → exec .closeLink s = .next (withOut (.err .stateBusy) [] s)) ∧
    ((s.seq.sc = .init ∨ s.seq.sc = .ready) →
      exec .closeLink s = .next (withOut (.ok .unit) [] { s with link := { s.link with linkOpen := false } })) ∧
    ((s.seq.sc = .init ∨ s.seq.sc = .ready) → s.link.linkOpen = false →
      exec .closeLink s = .next (withOut (.ok .unit) [] s))

/-- WRITE (R153): on a closed link nothing leaves; else all bytes, or the drawn number of them (the spec's decision D7). -/
def Obligations.WriteOutcomes : Prop :=
  ∀ (bs : Bytes) (s : State),
    (s.link.linkOpen = false → exec (.write bs) s = .next (withOut (.err (.transportWrite .closed)) [] s)) ∧
    (s.link.linkOpen = true → (draw s s.env.drawIdx).ok = true →
      exec (.write bs) s = .next (withOut (.ok .unit) [.tx bs] (withDraws 1 s))) ∧
    (s.link.linkOpen = true → (draw s s.env.drawIdx).ok = false → ∃ k, k ≤ bs.length ∧
      k = min (draw s s.env.drawIdx).count bs.length ∧
      exec (.write bs) s = .next (withOut (.err (.transportWrite .io)) [.tx (bs.take k)] (withDraws 1 s)))

/-- READ (R154): the arrivals join the buffer, and the drawn number of bytes, at most `min(max, len(rx))`, leaves its front;
they are returned, or lost when the success flag is false (the spec's decision D6). -/
def Obligations.ReadOutcomes : Prop :=
  ∀ (max : Nat) (s : State),
    (s.link.linkOpen = false → exec (.read max) s = .next (withOut (.err (.transportRead .closed)) [] s)) ∧
    (s.link.linkOpen = true → ∃ rx k, rx = s.link.rx ++ (draw s s.env.drawIdx).arrives ∧
      k = min (draw s s.env.drawIdx).count (min max rx.length) ∧
      exec (.read max) s = .next (withOut
        (if (draw s s.env.drawIdx).ok then .ok (.bytes (rx.take k)) else .err (.transportRead .io)) []
        (withDraws 1 { s with link := { s.link with rx := rx.drop k } })))

/-- SYNCHRONIZE (R155): one WRITE of thirteen sync opcodes and a null byte (R91); nothing is read. One write, no
acknowledgement and the null byte 0x00 are the spec's decisions D18, D25 and D33. -/
def Obligations.SynchronizeSendsTheSequence : Prop :=
  ∀ s : State, ∃ q : Bytes,
    q = List.replicate 13 (s.par.opc.byte .sync) ++ [0x00] ∧ q.length = 14 ∧
    (s.link.linkOpen = false → exec .synchronize s = .next (withOut (.err (.transportWrite .closed)) [] s)) ∧
    (s.link.linkOpen = true → (draw s s.env.drawIdx).ok = true →
      exec .synchronize s = .next (withOut (.ok .unit) [.tx q] (withDraws 1 s))) ∧
    (s.link.linkOpen = true → (draw s s.env.drawIdx).ok = false →
      exec .synchronize s = .next (withOut (.err (.transportWrite .io)) [.tx (q.take (draw s s.env.drawIdx).count)]
        (withDraws 1 s)))

/-- EXCHANGE (R156, R257 (2)): the errors in their order, then the decoded reply. The expected length is 10 and the
request's replyLength (the spec's decision D37), in one READ (D42). -/
def Obligations.ExchangeOutcomes : Prop :=
  ∀ (p : Packet) (s : State),
    (s.link.linkOpen = false → exec (.exchange p) s = .next (withOut (.err (.transportWrite .closed)) [] s)) ∧
    (s.link.linkOpen = true → (draw s s.env.drawIdx).ok = false → exec (.exchange p) s = .next (withOut
      (.err (.transportWrite .io)) [.tx ((encodeFrame p).take (draw s s.env.drawIdx).count)] (withDraws 1 s))) ∧
    (s.link.linkOpen = true → (draw s s.env.drawIdx).ok = true → ∃ rx k r,
      rx = s.link.rx ++ (draw s (s.env.drawIdx + 1)).arrives ∧
      k = min (draw s (s.env.drawIdx + 1)).count (min (10 + p.replyLength.toNat) rx.length) ∧ r = rx.take k ∧
      exec (.exchange p) s = .next (withOut
        (if (draw s (s.env.drawIdx + 1)).ok = false then .err (.transportRead .io)
         else if r.length = 0 then .err .protoNoReply
         else if r.length < 10 + p.replyLength.toNat then .err (.protoIncomplete r.length (10 + p.replyLength.toNat))
         else if frameCk r ≠ halfAt r 8 then .err (.protoChecksum (frameCk r) (halfAt r 8))
         else .ok (.packet (frameFields r)))
        [.tx (encodeFrame p)] (withDraws 2 { s with link := { s.link with rx := rx.drop k } })))

/-- No field of the reply is compared with the request (R115, the spec's decision D17): two requests that expect the same length get the same answer
from the same environment, whatever their commands, addresses and statuses are, and leave the same state. -/
def Obligations.ReplyHeaderIsNotCompared : Prop :=
  ∀ (p p' : Packet) (s t : State), p.replyLength = p'.replyLength → exec (.exchange p) s = .next t →
    ∃ t', exec (.exchange p') s = .next t' ∧ t'.out.result = t.out.result ∧ t'.link = t.link ∧ t'.seq = t.seq ∧
      t'.img = t.img ∧ t'.env = t.env

/-- Each of the eleven wire commands READ_SINGLE, WRITE_SINGLE, EMULATE_SINGLE, READ_BLOCK, WRITE_BLOCK, EMULATE_BLOCK,
SET_READ_DELAY, GET_READ_DELAY, GET_INFO, SYNC, NOP is the EXCHANGE of its request (R118, R120–R130): replyLength 1, n, or 0;
and SYNC_SEQ is the WRITE of its 14 bytes (R91). That these instructions are that exchange and that write is the model's
reading (log entry 2). -/
def Obligations.WireCommandsExchangeTheirRequests : Prop :=
  ∀ (a n : Half) (s : State),
    (∀ c, exec (Instr.ofCommand c a n) s = exec (.exchange
      { command := s.par.opc.byte c
        status := s.par.reqStatus
        requestLength := if c = .readSingle then 1 else if c = .readBlock then n else 0
        replyLength := if c = .readSingle then 1 else if c = .readBlock then n else 0
        address := a
        checksum := 0
        payload := [] }) s) ∧
    Instr.ofCommand .readSingle a n = .readSingle a ∧ Instr.ofCommand .writeSingle a n = .writeSingle a ∧
    Instr.ofCommand .emulateSingle a n = .emulateSingle a ∧ Instr.ofCommand .readBlock a n = .readBlock a n ∧
    Instr.ofCommand .writeBlock a n = .writeBlock a ∧ Instr.ofCommand .emulateBlock a n = .emulateBlock a ∧
    Instr.ofCommand .setReadDelay a n = .setReadDelay a ∧ Instr.ofCommand .getReadDelay a n = .getReadDelay a ∧
    Instr.ofCommand .getInfo a n = .getInfo a ∧ Instr.ofCommand .sync a n = .sync a ∧
    Instr.ofCommand .nop a n = .nop a ∧
    exec .syncSeq s = exec (.write (List.replicate 13 (s.par.opc.byte .sync) ++ [0x00])) s ∧
    (s.link.linkOpen = true → (draw s s.env.drawIdx).ok = true → exec .syncSeq s =
      .next (withOut (.ok .unit) [.tx (List.replicate 13 (s.par.opc.byte .sync) ++ [0x00])] (withDraws 1 s)))

/-- Every wire command completes, whatever the environment does, and its frame: no component of the sequencer, no image byte,
no parameter, no configuration register and no scheduled entry changes; what is left in `rx` is an end of what it held and
what arrived. -/
def Obligations.WireCommandsCompleteWithFrame : Prop :=
  ∀ (c : Command) (a n : Half) (s : State), ∃ t, exec (Instr.ofCommand c a n) s = .next t ∧ t.seq = s.seq ∧ t.img = s.img ∧
    t.par = s.par ∧ t.inputs = s.inputs ∧ t.env.script = s.env.script ∧ t.link.linkOpen = s.link.linkOpen ∧
    t.link.cfgPort = s.link.cfgPort ∧ t.link.cfgReadTimeout = s.link.cfgReadTimeout ∧
    (t.link.rx = s.link.rx ∨ ∃ k, t.link.rx = (s.link.rx ++ (draw s (s.env.drawIdx + 1)).arrives).drop k)

/-- A wire command answered by a whole frame with a matching checksum returns that frame's packet, and takes exactly the
expected number of bytes from `rx` (R120–R130, R156, R157). -/
def Obligations.WireCommandsReturnAFramedReply : Prop :=
  ∀ (c : Command) (a n : Half) (s : State) (reply rest : Bytes),
    s.link.linkOpen = true → (draw s s.env.drawIdx).ok = true → (draw s (s.env.drawIdx + 1)).ok = true →
    s.link.rx ++ (draw s (s.env.drawIdx + 1)).arrives = reply ++ rest →
    reply.length = 10 + (if c = .readSingle then 1 else if c = .readBlock then n.toNat else 0) →
    reply.length ≤ (draw s (s.env.drawIdx + 1)).count →
    ((reply.take 8 ++ reply.drop 10).map BitVec.toNat).sum % 65536 = (byteAt reply 8).toNat + 256 * (byteAt reply 9).toNat →
    exec (Instr.ofCommand c a n) s = .next (withOut (.ok (.packet (frameFields reply)))
      [.tx (encodeFrame (mkreq s.par c a n))] (withDraws 2 { s with link := { s.link with rx := rest } }))

/-! ## Memory Image -/

/-- SET_CAPACITY (R181): a power of two, at most IMAGE_MAX (the spec's decision D29), gives that many zero bytes, invalid; anything else is refused with
no state change. -/
def Obligations.SetCapacityOutcomes : Prop :=
  ∀ (n : Nat) (s : State),
    ((∃ k, n = 2 ^ k) → n ≤ s.par.imageMax → ∃ img : Image, img.capacity = n ∧ img.bytes = List.replicate n 0x00 ∧
      img.valid = false ∧ exec (.setCapacity n) s = .next (withOut (.ok .unit) [] { s with img := img })) ∧
    (¬ (∃ k, n = 2 ^ k) ∨ s.par.imageMax < n →
      exec (.setCapacity n) s = .next (withOut (.err (.boundsCapacity n)) [] s))

/-- WRITE_AT (R182, the sum without wrap by the spec's decision D27): within the capacity the bytes of the range are replaced, every other byte of the image is as before, and
the image is invalid; past it nothing changes. The first premise is the image's form, which every step keeps
(InvariantKeptByEveryStep). -/
def Obligations.WriteAtOutcomes : Prop :=
  ∀ (off : Nat) (bs : Bytes) (s : State), s.img.data.wf = true →
    (off + bs.length ≤ s.img.capacity → ∃ d : Memory,
      exec (.writeAt off bs) s =
        .next (withOut (.ok .unit) [] { s with img := { capacity := s.img.capacity, data := d, valid := false } }) ∧
      d.wf = true ∧ (∀ i, i < bs.length → d.read (off + i) = bs.getD i 0x00) ∧
      (∀ x, x < off ∨ off + bs.length ≤ x → d.read x = s.img.data.read x)) ∧
    (s.img.capacity < off + bs.length →
      exec (.writeAt off bs) s = .next (withOut (.err (.boundsWrite off bs.length)) [] s))

/-- MARK_VALID, IS_VALID and SNAPSHOT (R183, R184, R185). That MARK_VALID runs in every sequencer state is the model's choice
(log entry 16). -/
def Obligations.ValidityOperations : Prop :=
  ∀ s : State,
    exec .markValid s = .next (withOut (.ok .unit) [] { s with img := { s.img with valid := true } }) ∧
    exec .isValid s = .next (withOut (.ok (.flag s.img.valid)) [] s) ∧
    (s.img.valid = true → ∃ b : Bytes, exec .snapshot s = .next (withOut (.ok (.bytes b)) [] s) ∧
      b.length = s.img.capacity ∧ ∀ i, i < s.img.capacity → b[i]? = some (s.img.data.read i)) ∧
    (s.img.valid = false → exec .snapshot s = .next (withOut (.err .stateNotValid) [] s))

/-! ## Sequencer -/

/-- The two plans (R203, R204), unit by unit; the other strategies have none (R202); and each plan's blocks cover every
offset of its image exactly once (which the spec derives from its lists). -/
def Obligations.ReadPlansUnitByUnit : Prop :=
  (∀ s : Strategy, s ≠ .none → s ≠ .f8 → readPlan s = none) ∧
  (∃ p, readPlan .none = some p ∧ p.size = 4096 ∧ p.units.length = 16 ∧
    ∀ i, i < 16 → p.units[i]? = some (.block (BitVec.ofNat 16 (0x1000 + i * 256)) (i * 256) 256)) ∧
  (∃ p, readPlan .f8 = some p ∧ p.size = 8192 ∧ p.units.length = 34 ∧ p.units[0]? = some (.hotspot 0x1FF8) ∧
    p.units[17]? = some (.hotspot 0x1FF9) ∧
    (∀ i, i < 16 → p.units[1 + i]? = some (.block (BitVec.ofNat 16 (0x1000 + i * 256)) (i * 256) 256)) ∧
    (∀ i, i < 16 → p.units[18 + i]? = some (.block (BitVec.ofNat 16 (0x1000 + i * 256)) (0x1000 + i * 256) 256))) ∧
  (∀ (s : Strategy) (p : ReadPlan), readPlan s = some p → ∀ x, x < p.size →
    ∃ i, i < p.units.length ∧ ∀ j, (∃ a off n, p.units[j]? = some (.block a off n) ∧ off ≤ x ∧ x < off + n.toNat) ↔ j = i)

/-- EXEC_UNIT of a hotspot (R206): an EXCHANGE of READ_SINGLE whose byte is discarded. -/
def Obligations.HotspotUnitOutcomes : Prop :=
  ∀ (a : Half) (s : State), ∃ t, exec (.exchange (mkreq s.par .readSingle a 1)) s = .next t ∧
    ((∃ q, t.out.result = some (.ok (.packet q)) ∧
        exec (.execUnit (.hotspot a)) s = .next (withOut (.ok .unit) t.out.events t)) ∨
     (∃ e, t.out.result = some (.err e) ∧ exec (.execUnit (.hotspot a)) s = .next t))

/-- EXEC_UNIT of a block (R206): an EXCHANGE of READ_BLOCK, whose `n` payload bytes WRITE_AT puts at the offset and the byte
count counts; a failed EXCHANGE or WRITE_AT leaves the image and the byte count as they were. -/
def Obligations.BlockUnitOutcomes : Prop :=
  ∀ (a : Half) (off : Nat) (n : Half) (s : State), ∃ t, exec (.exchange (mkreq s.par .readBlock a n)) s = .next t ∧
    ((∃ q, t.out.result = some (.ok (.packet q)) ∧ q.payload.length = n.toNat ∧
        ((off + n.toNat ≤ s.img.capacity ∧ exec (.execUnit (.block a off n)) s = .next (withOut (.ok .unit) t.out.events
            { t with
              img := { capacity := s.img.capacity, data := s.img.data.writeBytes off q.payload, valid := false }
              seq := { s.seq with byteCount := s.seq.byteCount + n.toNat } })) ∨
         (s.img.capacity < off + n.toNat ∧ exec (.execUnit (.block a off n)) s =
            .next (withOut (.err (.boundsWrite off n.toNat)) t.out.events t)))) ∨
     (∃ e, t.out.result = some (.err e) ∧ exec (.execUnit (.block a off n)) s = .next t))

/-- EXEC_UNIT completes where the environment answers the request with a whole frame whose checksum matches (R206): a hotspot
discards the byte; a block puts the payload at its offset, counts it, and leaves every other byte of the image. -/
def Obligations.UnitsCompleteOnAFramedReply : Prop :=
  ∀ (a n : Half) (off : Nat) (s : State) (reply rest : Bytes),
    s.link.linkOpen = true → (draw s s.env.drawIdx).ok = true → (draw s (s.env.drawIdx + 1)).ok = true →
    s.link.rx ++ (draw s (s.env.drawIdx + 1)).arrives = reply ++ rest →
    reply.length ≤ (draw s (s.env.drawIdx + 1)).count →
    ((reply.take 8 ++ reply.drop 10).map BitVec.toNat).sum % 65536 = (byteAt reply 8).toNat + 256 * (byteAt reply 9).toNat →
    (reply.length = 11 → exec (.execUnit (.hotspot a)) s = .next (withOut (.ok .unit)
      [.tx (encodeFrame (mkreq s.par .readSingle a 1))] (withDraws 2 { s with link := { s.link with rx := rest } }))) ∧
    (reply.length = 10 + n.toNat → off + n.toNat ≤ s.img.capacity → s.img.data.wf = true → ∃ d : Memory, d.wf = true ∧
      (∀ i, i < n.toNat → d.read (off + i) = byteAt reply (10 + i)) ∧
      (∀ x, x < off ∨ off + n.toNat ≤ x → d.read x = s.img.data.read x) ∧
      exec (.execUnit (.block a off n)) s = .next (withOut (.ok .unit)
        [.tx (encodeFrame (mkreq s.par .readBlock a n))] (withDraws 2 { s with
          link := { s.link with rx := rest }
          img := { capacity := s.img.capacity, data := d, valid := false }
          seq := { s.seq with byteCount := s.seq.byteCount + n.toNat } })))

/-- SELECT_STRATEGY (R219): every strategy is accepted in INIT and READY and refused elsewhere (the spec's decision D14). -/
def Obligations.SelectStrategyOutcomes : Prop :=
  ∀ (k : Strategy) (s : State),
    ((s.seq.sc = .init ∨ s.seq.sc = .ready) →
      exec (.selectStrategy k) s = .next (withOut (.ok .unit) [] { s with seq := { s.seq with cfgStrategy := k } })) ∧
    (s.seq.sc ≠ .init → s.seq.sc ≠ .ready →
      exec (.selectStrategy k) s = .next (withOut (.err .stateBusy) [] s))

/-- REQUEST_DUMP (R207) and ABORT (R218, the spec's decision D12, log entry 18): where they are accepted, and that they change nothing else. -/
def Obligations.RequestAndAbortOutcomes : Prop :=
  ∀ s : State,
    (s.seq.sc = .ready →
      exec .requestDump s = .next (withOut (.ok .started) [] { s with seq := { s.seq with sc := .dumpBegin } })) ∧
    (s.seq.sc ≠ .ready → exec .requestDump s = .next (withOut (.err .stateBusy) [] s)) ∧
    ((s.seq.sc = .dumpBegin ∨ s.seq.sc = .dump) →
      exec .abort s = .next (withOut (.ok .accepted) [] { s with seq := { s.seq with sc := .dumpAbort } })) ∧
    (s.seq.sc ≠ .dumpBegin → s.seq.sc ≠ .dump → exec .abort s = .next (withOut (.ok .ignored) [] s))

/-- GET_LAST_ARTIFACT (R220). -/
def Obligations.GetLastArtifactOutcomes : Prop :=
  ∀ s : State,
    (∀ name bs, s.seq.lastArtifact = some (name, bs) →
      exec .getLastArtifact s = .next (withOut (.ok (.name name)) [] s)) ∧
    (s.seq.lastArtifact = none → exec .getLastArtifact s = .next (withOut (.ok .noneYet) [] s))

/-- STEP in INIT and READY (R209, R210; the spec's decisions D11 and D38). -/
def Obligations.StepInIdleStates : Prop :=
  ∀ s : State,
    (s.seq.sc = .init → exec .step s = .next (withOut (.ok .unit) [] { s with seq := { s.seq with sc := .ready } })) ∧
    (s.seq.sc = .ready → exec .step s = .next (withOut (.ok .unit) [] s))

/-- STEP in DUMP_BEGIN (R211): an unsupported strategy fails before the lock (the spec's decision D13); else the lock, the fresh image, the cursor, the
byte count and the countdown, and the synchronize sequence, whose failure leads to DUMP_FAIL. -/
def Obligations.StepInDumpBegin : Prop :=
  ∀ s : State, s.seq.sc = .dumpBegin → s.par.Wf →
    (s.seq.cfgStrategy ≠ .none → s.seq.cfgStrategy ≠ .f8 → exec .step s = .next (withOut (.ok .unit)
      [.log (.error .notSupported)] { s with seq := { s.seq with sc := .dumpFail } })) ∧
    (∀ size, (s.seq.cfgStrategy = .none ∧ size = 4096) ∨ (s.seq.cfgStrategy = .f8 ∧ size = 8192) →
      ∃ t : SeqState → State,
        (∀ sc, t sc = { s with
          seq := { s.seq with
            sc := sc, lock := true, byteCount := 0, planIdx := 0, countdown := s.par.timeoutTicks }
          img := { capacity := size, data := [], valid := false } }) ∧
        (s.link.linkOpen = false → exec .step s = .next (withOut (.ok .unit)
          [.lock, .log (.error .transportWrite)] (t .dumpFail))) ∧
        (s.link.linkOpen = true → (draw s s.env.drawIdx).ok = false → exec .step s = .next (withOut (.ok .unit)
          [.lock, .tx ((syncBytes s.par).take (draw s s.env.drawIdx).count), .log (.error .transportWrite)]
          (withDraws 1 (t .dumpFail)))) ∧
        (s.link.linkOpen = true → (draw s s.env.drawIdx).ok = true → exec .step s = .next (withOut (.ok .unit)
          [.lock, .tx (syncBytes s.par)] (withDraws 1 (t .dump)))))

/-- STEP in DUMP (R212, the countdown as the spec's decision D10 reads it): no unit at countdown 0; else one tick and one unit; completion wins over the countdown; a failed unit
is logged and leads to DUMP_FAIL. -/
def Obligations.StepInDump : Prop :=
  ∀ s : State, s.seq.sc = .dump →
    (s.seq.countdown = 0 →
      exec .step s = .next (withOut (.ok .unit) [] { s with seq := { s.seq with sc := .dumpTimeout } })) ∧
    (∀ u, 0 < s.seq.countdown → (planUnits s.seq.cfgStrategy)[s.seq.planIdx]? = some u →
      ∃ t, exec (.execUnit u) { s with seq := { s.seq with countdown := s.seq.countdown - 1 } } = .next t ∧
        ((t.out.result = some (.ok .unit) ∧ exec .step s = .next (withOut (.ok .unit) t.out.events
            { t with seq := { t.seq with
                planIdx := s.seq.planIdx + 1
                sc := if s.seq.planIdx + 1 = (planUnits s.seq.cfgStrategy).length then .dumpEnd
                      else if s.seq.countdown = 1 then .dumpTimeout else .dump } })) ∨
         (∃ e, t.out.result = some (.err e) ∧ exec .step s = .next (withOut (.ok .unit)
            (t.out.events ++ [.log (.error e.kind)]) { t with seq := { t.seq with sc := .dumpFail } }))))

/-- STEP in DUMP_END (R213): the image is valid, its bytes are the last artifact, and are handed to persistence; nothing else
changes, the lock included. They are exactly the plan's size where the host has issued no unit-level operation (`HostInv`,
which DumpInvariantKeptByHostSteps states is kept): the model runs those in every state (log entry 16). -/
def Obligations.StepInDumpEnd : Prop :=
  ∀ s : State, s.seq.sc = .dumpEnd → ∃ b : Bytes, b.length = s.img.capacity ∧
    (∀ i, i < s.img.capacity → b[i]? = some (s.img.data.read i)) ∧
    (HostInv s → ∃ p, readPlan s.seq.cfgStrategy = some p ∧ b.length = p.size) ∧
    exec .step s = .next (withOut (.ok .unit) [.persist s.par.artifactName b] { s with
      img := { s.img with valid := true }
      seq := { s.seq with lastArtifact := some (s.par.artifactName, b), sc := .reset } })

/-- STEP on the failure path and in RESET (R214, R215, R216, R217; the Log of an abort is the spec's decision D12, the Unlock
only where the lock is held D19; log entry 18). -/
def Obligations.StepOnTheWayBack : Prop :=
  ∀ s : State,
    (s.seq.sc = .dumpTimeout → exec .step s = .next (withOut (.ok .unit) [.log .timeout]
      { s with seq := { s.seq with sc := .dumpFail } })) ∧
    (s.seq.sc = .dumpAbort → exec .step s = .next (withOut (.ok .unit) [.log .abortRequested]
      { s with seq := { s.seq with sc := .dumpFail } })) ∧
    (s.seq.sc = .dumpFail → exec .step s = .next (withOut (.ok .unit)
      (if s.seq.lock then [.unlock, .aborted] else [.aborted])
      { s with seq := { s.seq with lock := false, sc := .reset } })) ∧
    (s.seq.sc = .reset → exec .step s = .next (withOut (.ok .unit) (if s.seq.lock then [.unlock] else [])
      { s with seq := { s.seq with lock := false, sc := .ready } }))

/-- STEP completes in every state that meets the invariant (R208, always `Ok()` by the spec's decision D34): it never stops the machine. -/
def Obligations.StepAlwaysCompletes : Prop :=
  ∀ s : State, Inv s → ∃ t, exec .step s = .next t ∧ t.out.result = some (.ok .unit)

/-- `STEP ×n` (R95, D32; that it goes to the front of the schedule is the model's choice, log entry 11): its expansion, and that n + 1 transitions of the machine on it are n STEPs. -/
def Obligations.StepTimesRunsSteps : Prop :=
  ∀ (n : Nat) (s : State),
    exec (.stepTimes n) s =
      .next { s with inputs := List.replicate n (.host (.line "STEP".toList)) ++ s.inputs } ∧
    Host.Core.run core (n + 1) { s with inputs := .host (encode s.par (.stepTimes n)) :: s.inputs } = steps n s

/-! ## Rules of the whole machine -/

/-- The transition relation (R201; the arcs into DUMP_ABORT and READY's own are the spec's decisions D12, D38, the conditions on the
countdown D10): only STEP, REQUEST_DUMP and ABORT change the sequencer state, along the table's arcs, and the arcs of DUMP_BEGIN and
DUMP exactly under its conditions. -/
def Obligations.TransitionsFollowTheTable : Prop :=
  ∀ (i : Instr) (s t : State), exec i s = .next t →
    (i ≠ .step → i ≠ .requestDump → i ≠ .abort → t.seq.sc = s.seq.sc) ∧
    (i = .requestDump → t.seq.sc = if s.seq.sc = .ready then .dumpBegin else s.seq.sc) ∧
    (i = .abort → t.seq.sc = if s.seq.sc = .dumpBegin ∨ s.seq.sc = .dump then .dumpAbort else s.seq.sc) ∧
    (i = .step → t.seq.sc ∈ stepArcs s.seq.sc ∧
      (s.seq.sc = .dumpBegin → (t.seq.sc = .dump ↔
        (readPlan s.seq.cfgStrategy ≠ none ∧ s.link.linkOpen = true ∧ (draw s s.env.drawIdx).ok = true))) ∧
      (s.seq.sc = .dump →
        (t.seq.sc = .dumpEnd ↔ 0 < s.seq.countdown ∧ unitAnswers s (.ok .unit) ∧
          s.seq.planIdx + 1 = (planUnits s.seq.cfgStrategy).length) ∧
        (t.seq.sc = .dump ↔ 1 < s.seq.countdown ∧ unitAnswers s (.ok .unit) ∧
          s.seq.planIdx + 1 ≠ (planUnits s.seq.cfgStrategy).length) ∧
        (t.seq.sc = .dumpTimeout ↔ s.seq.countdown = 0 ∨ (s.seq.countdown = 1 ∧ unitAnswers s (.ok .unit) ∧
          s.seq.planIdx + 1 ≠ (planUnits s.seq.cfgStrategy).length)) ∧
        (t.seq.sc = .dumpFail ↔ 0 < s.seq.countdown ∧ ∃ e, unitAnswers s (.err e)) ∧
        (t.seq.sc = .dumpEnd ∨ t.seq.sc = .dump → t.seq.planIdx = s.seq.planIdx + 1) ∧
        (t.seq.sc = .dump → 0 < t.seq.countdown) ∧
        (t.seq.sc = .dumpTimeout → t.seq.countdown = 0 ∧ (s.seq.countdown = 0 ∨
          (t.seq.planIdx = s.seq.planIdx + 1 ∧ t.seq.planIdx ≠ (planUnits s.seq.cfgStrategy).length))) ∧
        (t.seq.sc = .dumpFail → ∃ e, unitAnswers s (.err e) ∧ t.out.events.getLast? = some (.log (.error e.kind)))))

/-- The state after reset (70_reset_and_hazards.md R280): INIT and 4096 are the source's, the other values the spec's decision
D15. No event, and nothing scheduled: the model's own fields are its choice (log entry 23). -/
def Obligations.ResetValues : Prop :=
  State.reset.seq = { sc := .init, countdown := 0, byteCount := 0, lock := false, planIdx := 0, lastArtifact := none,
                      cfgStrategy := .none } ∧
  State.reset.link.cfgPort = none ∧ State.reset.link.cfgReadTimeout = State.reset.par.readTimeoutReset ∧
  State.reset.link.linkOpen = false ∧ State.reset.link.rx = [] ∧
  State.reset.img.capacity = 4096 ∧ State.reset.img.bytes = List.replicate 4096 0x00 ∧ State.reset.img.valid = false ∧
  State.reset.out.events = [] ∧ State.reset.inputs = []

/-- The kinds' codes and classes (60_exceptions.md R250; the codes are the spec's decision D20). -/
def Obligations.ErrorCodesAndClasses : Prop :=
  (∀ port, (Err.transportOpen port).kind.code = 1 ∧ (Err.transportOpen port).kind.errClass = .transport) ∧
  (∀ c, (Err.transportWrite c).kind.code = 2 ∧ (Err.transportWrite c).kind.errClass = .transport) ∧
  (∀ c, (Err.transportRead c).kind.code = 3 ∧ (Err.transportRead c).kind.errClass = .transport) ∧
  (∀ n, (Err.protoMalformed n).kind.code = 4 ∧ (Err.protoMalformed n).kind.errClass = .protocol) ∧
  (∀ x y, (Err.protoChecksum x y).kind.code = 5 ∧ (Err.protoChecksum x y).kind.errClass = .protocol) ∧
  (Err.protoNoReply.kind.code = 6 ∧ Err.protoNoReply.kind.errClass = .protocol) ∧
  (∀ x y, (Err.protoIncomplete x y).kind.code = 7 ∧ (Err.protoIncomplete x y).kind.errClass = .protocol) ∧
  (∀ n, (Err.boundsCapacity n).kind.code = 8 ∧ (Err.boundsCapacity n).kind.errClass = .bounds) ∧
  (∀ x y, (Err.boundsWrite x y).kind.code = 8 ∧ (Err.boundsWrite x y).kind.errClass = .bounds) ∧
  (Err.stateBusy.kind.code = 9 ∧ Err.stateBusy.kind.errClass = .state) ∧
  (Err.stateNotValid.kind.code = 10 ∧ Err.stateNotValid.kind.errClass = .state) ∧
  (∀ k, (Err.notSupported k).kind.code = 11 ∧ (Err.notSupported k).kind.errClass = .config) ∧
  LogKind.timeout.code = 12 ∧ LogKind.abortRequested.code = 13

/-- The invariant of 10_state.md R23, R33, R34, R37 (which the spec derives) holds in the state after reset. -/
def Obligations.InvariantHoldsAtReset : Prop := Inv State.reset ∧ HostInv State.reset

/-- Every step keeps the invariant (R37 (1), (2), (3), (5), (6), R33, R34), whatever the host issues and whatever the environment
does. -/
def Obligations.InvariantKeptByEveryStep : Prop := ∀ s t : State, Inv s → step s = .next t → Inv t

/-- Every step that is no unit-level operation keeps R37 (4) as well: no image is valid while its dump is under way or has
failed past the lock, and the artifact of a dump that ends is complete (42_image.md R186, 60_exceptions.md R253). -/
def Obligations.DumpInvariantKeptByHostSteps : Prop :=
  ∀ s t : State, Inv s → HostInv s → hostOnly s → step s = .next t → HostInv t

/-- Validity (R186, which the spec derives): an image becomes valid only by MARK_VALID or by the DUMP_END step, and a capacity change or a write that
succeeds makes it invalid. -/
def Obligations.OnlyCompletionMakesTheImageValid : Prop :=
  ∀ (i : Instr) (s t : State), exec i s = .next t →
    (s.img.valid = false → t.img.valid = true → i = .markValid ∨ (i = .step ∧ s.seq.sc = .dumpEnd)) ∧
    (t.img.data ≠ s.img.data ∨ t.img.capacity ≠ s.img.capacity → t.img.valid = false)

/-- The lock's notifications (R25, the spec's decision D19): where it changes, exactly one event says how; where it does not, none. -/
def Obligations.LockChangesAreNotifiedOnce : Prop :=
  ∀ (i : Instr) (s t : State), Inv s → (∀ n, i ≠ .stepTimes n) → exec i s = .next t →
    lockEvents t.out.events =
      if s.seq.lock = t.seq.lock then [] else if t.seq.lock = true then [.lock] else [.unlock]

/-- Configuration is gated by activity (R258, the spec's decision D14): outside INIT and READY no operation changes the port, the read timeout, the
strategy or the link's being open. -/
def Obligations.BusyStatesKeepConfiguration : Prop :=
  ∀ (i : Instr) (s t : State), s.seq.sc ≠ .init → s.seq.sc ≠ .ready → exec i s = .next t →
    t.link.cfgPort = s.link.cfgPort ∧ t.link.cfgReadTimeout = s.link.cfgReadTimeout ∧
    t.link.linkOpen = s.link.linkOpen ∧ t.seq.cfgStrategy = s.seq.cfgStrategy

/-- Synchronous rejection (R251 (1)): an operation that answers an error, other than a transport operation, EXCHANGE or a
unit, leaves the block as it was; a refused OPEN at most closes the link. -/
def Obligations.RejectedOperationsChangeNothing : Prop :=
  ∀ (i : Instr) (s t : State) (e : Err), exec i s = .next t → t.out.result = some (.err e) →
    (i = .closeLink ∨ (∃ k, i = .selectStrategy k) ∨ i = .requestDump ∨ i = .snapshot ∨ (∃ n, i = .setCapacity n) ∨
      (∃ off bs, i = .writeAt off bs) ∨ (∃ bs, i = .decodeFrame bs) →
      t = withOut (.err e) [] s) ∧
    ((∃ port tm, i = .openLink port tm) → t.seq = s.seq ∧ t.img = s.img ∧ t.par = s.par ∧ t.out.events = [] ∧
      (t.link = s.link ∨ t.link = { s.link with linkOpen := false }))

/-- Who writes what in the sequencer (10_state.md R20–R27): the countdown only STEP in DUMP_BEGIN and DUMP, the byte count
those and EXEC_UNIT, the cursor those, the lock STEP in DUMP_BEGIN, DUMP_FAIL and RESET, the last artifact STEP in
DUMP_END, the strategy SELECT_STRATEGY. -/
def Obligations.SequencerRegistersHaveTheirWriters : Prop :=
  ∀ (i : Instr) (s t : State), exec i s = .next t →
    (t.seq.countdown ≠ s.seq.countdown → i = .step ∧ (s.seq.sc = .dumpBegin ∨ s.seq.sc = .dump)) ∧
    (t.seq.byteCount ≠ s.seq.byteCount →
      (i = .step ∧ (s.seq.sc = .dumpBegin ∨ s.seq.sc = .dump)) ∨ ∃ u, i = .execUnit u) ∧
    (t.seq.planIdx ≠ s.seq.planIdx → i = .step ∧ (s.seq.sc = .dumpBegin ∨ s.seq.sc = .dump)) ∧
    (t.seq.lock ≠ s.seq.lock → i = .step ∧ (s.seq.sc = .dumpBegin ∨ s.seq.sc = .dumpFail ∨ s.seq.sc = .reset)) ∧
    (t.seq.lastArtifact ≠ s.seq.lastArtifact → i = .step ∧ s.seq.sc = .dumpEnd) ∧
    (t.seq.cfgStrategy ≠ s.seq.cfgStrategy → ∃ k, i = .selectStrategy k)

/-- The parameters never change, nor does the environment script; draws are only counted up (00_scope.md R7; the model's own
fields, log entries 4 and 6). -/
def Obligations.ParametersNeverChange : Prop :=
  ∀ s t : State, step s = .next t → t.par = s.par ∧ t.env.script = s.env.script ∧ s.env.drawIdx ≤ t.env.drawIdx

/-- The receive buffer (10_state.md R32, 70_reset_and_hazards.md R284, the spec's decision D26): an OPEN that succeeds empties it;
a READ on an open link, and the READ of an EXCHANGE (of a wire command, of EXEC_UNIT, of a DUMP step with ticks left), takes the
drawn number of bytes from its front once what arrived has joined its back; nothing else changes it, a CLOSE, a SYNCHRONIZE and a
failure included. -/
def Obligations.ReceiveBufferLosesOnlyItsFront : Prop :=
  ∀ (i : Instr) (s t : State), exec i s = .next t →
    (∀ port tm, i = .openLink port tm → t.link.rx =
      if (s.seq.sc = .init ∨ s.seq.sc = .ready) ∧ (draw s s.env.drawIdx).ok = true then [] else s.link.rx) ∧
    (∀ max, i = .read max → t.link.rx =
      if s.link.linkOpen = true then rxAfterRead max s.env.drawIdx s else s.link.rx) ∧
    (∀ max, exchangeAsks i s = some max → t.link.rx = rxAfterExchange max s) ∧
    (exchangeAsks i s = none → (∀ max, i ≠ .read max) → (∀ port tm, i ≠ .openLink port tm) → t.link.rx = s.link.rx)

/-- What the sequencer transmits (30_encoding.md R92 (1), 20_memory.md R60): in one STEP at most one Tx, and its bytes are the
synchronize sequence, or a READ_SINGLE or READ_BLOCK request, or the beginning of one of them. -/
def Obligations.StepsTransmitOnlyReadsAndSync : Prop :=
  ∀ s t : State, exec .step s = .next t →
    (t.out.events.filter fun e => match e with | .tx _ => true | _ => false).length ≤ 1 ∧
    ∀ bs, .tx bs ∈ t.out.events → bs <+: syncBytes s.par ∨ (∃ a, bs <+: encodeFrame (mkreq s.par .readSingle a 1)) ∨
      ∃ a, bs <+: encodeFrame (mkreq s.par .readBlock a 256)

/-- The failure path's entry is precise (60_exceptions.md R252, which the spec derives): the failing unit took its tick and nothing else; every
earlier unit's bytes stay. -/
def Obligations.FailureEntryIsPrecise : Prop :=
  ∀ s t : State, s.seq.sc = .dump → exec .step s = .next t → t.seq.sc = .dumpFail →
    t.seq = { s.seq with sc := .dumpFail, countdown := s.seq.countdown - 1 } ∧ t.img = s.img ∧
    t.link.cfgPort = s.link.cfgPort ∧ t.link.cfgReadTimeout = s.link.cfgReadTimeout ∧
    t.link.linkOpen = s.link.linkOpen ∧ ∃ k, t.out.events.getLast? = some (.log (.error k))

/-- Return to READY (R222, which the spec derives): from DUMP_BEGIN, for every draw of the environment, READY with
the lock free is reached within `1 + max(1, min(U, T)) + 3` STEPs, with no arrival between them, U the plan's length and T the
timeout ticks. -/
def Obligations.EveryDumpReturnsToReady : Prop :=
  ∀ s : State, Inv s → s.seq.sc = .dumpBegin →
    ∃ k t, k ≤ 1 + max 1 (min (planUnits s.seq.cfgStrategy).length s.par.timeoutTicks) + 3 ∧
      steps k s = .next t ∧ t.seq.sc = .ready ∧ t.seq.lock = false

/-- After an accepted ABORT three STEPs lead to READY with the lock free, and the image's bytes, the artifact and the
configuration are as they were (43_sequencer.md R222, 70_reset_and_hazards.md R289). -/
def Obligations.AbortReturnsInThreeSteps : Prop :=
  ∀ s t : State, s.seq.sc = .dumpBegin ∨ s.seq.sc = .dump → exec .abort s = .next t →
    ∃ u, steps 3 t = .next u ∧ u.seq = { s.seq with sc := .ready, lock := false } ∧ u.img = s.img ∧ u.link = s.link

/-- A cooperating firmware (95_test_vectors.md P1, E5): if the link is open with an empty buffer, the ticks suffice, and every
block request is answered by a whole frame with a matching checksum and a 256-byte payload, then 16 STEPs of a NONE dump end
in DUMP_END with the payloads, in order, as the image. -/
def Obligations.NoneDumpCollectsThePayloads : Prop :=
  ∀ (s : State) (pay : Nat → Bytes),
    Inv s → s.seq.sc = .dump → s.seq.cfgStrategy = .none → s.seq.planIdx = 0 → s.img.capacity = 4096 →
    16 ≤ s.seq.countdown → s.link.linkOpen = true → s.link.rx = [] →
    (∀ i, i < 16 → (pay i).length = 256 ∧ (draw s (s.env.drawIdx + 2 * i)).ok = true ∧
      (draw s (s.env.drawIdx + 2 * i + 1)).ok = true ∧ 266 ≤ (draw s (s.env.drawIdx + 2 * i + 1)).count ∧
      ∃ q : Packet, q.payload = pay i ∧ (draw s (s.env.drawIdx + 2 * i + 1)).arrives = encodeFrame q) →
    ∃ t, steps 16 s = .next t ∧ t.seq.sc = .dumpEnd ∧ t.seq.countdown = s.seq.countdown - 16 ∧
      t.seq.byteCount = s.seq.byteCount + 4096 ∧ t.link.rx = [] ∧ t.img.capacity = 4096 ∧
      t.img.bytes = ((List.range 16).map pay).flatten
end

