-- ==== Sys2Proof/Laws/Codec.lean ====
section
/-! SUPPORT. The wire frame: its length, its bytes, its checksum (40_framer.md R110–R112, 30_encoding.md R82). -/

namespace Sys2Proof.Machine

@[simp] theorem length_le16 (v : Half) : (le16 v).length = 2 := rfl

@[simp] theorem length_headerFields (p : Packet) : (headerFields p).length = 8 := rfl

/-- `u16` undoes `le16`. -/
theorem u16_le16 (v : Half) : u16 (v.extractLsb' 0 8) (v.extractLsb' 8 8) = v := by
  unfold u16
  ext i hi
  simp only [BitVec.getElem_append, BitVec.getElem_extractLsb']
  split
  · simp [BitVec.getElem_eq_testBit_toNat]; rfl
  · rw [show 8 + (i - 8) = i by omega]
    simp [BitVec.getElem_eq_testBit_toNat]; rfl

theorem toNat_u16 (lo hi : Byte) : (u16 lo hi).toNat = lo.toNat + 256 * hi.toNat := by
  unfold u16
  rw [BitVec.toNat_append, Nat.shiftLeft_eq, Nat.mul_comm, ← Nat.two_pow_add_eq_or_of_lt lo.isLt]
  omega

theorem toNat_le16_low (v : Half) : (v.extractLsb' 0 8).toNat = v.toNat % 256 := by
  simp [BitVec.extractLsb'_toNat]

theorem toNat_le16_high (v : Half) : (v.extractLsb' 8 8).toNat = v.toNat / 256 := by
  have := v.isLt
  simp only [BitVec.extractLsb'_toNat, Nat.shiftRight_eq_div_pow]
  omega

/-- The value of a checksum. -/
theorem toNat_ck (bs : Bytes) : (ck bs).toNat = (bs.map BitVec.toNat).sum % 65536 := by
  simp [ck]

theorem ck_append (a b : Bytes) : ck (a ++ b) = ck a + ck b := by
  apply BitVec.eq_of_toNat_eq
  simp [ck]

/-- A checksum does not depend on the order of the bytes (R110, corner case (3)). -/
theorem ck_perm {a b : Bytes} (h : a.Perm b) : ck a = ck b := by
  unfold ck
  rw [(h.map BitVec.toNat).sum_eq]

/-- The placeholder adds nothing to the sum (R112). -/
theorem encodeFrame_eq (p : Packet) :
    encodeFrame p = headerFields p ++ le16 (ck (headerFields p ++ p.payload)) ++ p.payload := by
  have h0 : ck (headerFields p ++ le16 0 ++ p.payload) = ck (headerFields p ++ p.payload) := by
    rw [List.append_assoc, ck_append, ck_append (le16 0), ck_append (headerFields p) p.payload]
    rw [show ck (le16 0) = 0 by decide]
    simp
  show ((headerFields p ++ le16 0).take 8 ++ le16 (ck (headerFields p ++ le16 0 ++ p.payload))) ++ p.payload = _
  rw [h0, List.take_append_of_le_length (by simp), List.take_of_length_le (by simp)]

@[simp] theorem length_encodeFrame (p : Packet) : (encodeFrame p).length = 10 + p.payload.length := by
  simp [encodeFrame_eq]
  omega

@[simp] theorem take_encodeFrame (p : Packet) : (encodeFrame p).take 8 = headerFields p := by
  rw [encodeFrame_eq, List.append_assoc, List.take_append_of_le_length (by simp), List.take_of_length_le (by simp)]

@[simp] theorem drop_encodeFrame (p : Packet) : (encodeFrame p).drop 10 = p.payload := by
  rw [encodeFrame_eq, List.drop_append_of_le_length (by simp), List.drop_of_length_le (by simp), List.nil_append]

/-- The checksum of an encoded frame (R112). -/
theorem frameCk_encodeFrame (p : Packet) : frameCk (encodeFrame p) = ck (headerFields p ++ p.payload) := by
  simp [frameCk]

theorem halfAt_encodeFrame_checksum (p : Packet) : halfAt (encodeFrame p) 8 = ck (headerFields p ++ p.payload) := by
  rw [encodeFrame_eq]
  exact u16_le16 _

theorem halfAt_encodeFrame_requestLength (p : Packet) : halfAt (encodeFrame p) 2 = p.requestLength := by
  rw [encodeFrame_eq]
  exact u16_le16 _

theorem halfAt_encodeFrame_replyLength (p : Packet) : halfAt (encodeFrame p) 4 = p.replyLength := by
  rw [encodeFrame_eq]
  exact u16_le16 _

theorem halfAt_encodeFrame_address (p : Packet) : halfAt (encodeFrame p) 6 = p.address := by
  rw [encodeFrame_eq]
  exact u16_le16 _

theorem byteAt_encodeFrame_command (p : Packet) : byteAt (encodeFrame p) 0 = p.command := by
  rw [encodeFrame_eq]
  rfl

theorem byteAt_encodeFrame_status (p : Packet) : byteAt (encodeFrame p) 1 = p.status := by
  rw [encodeFrame_eq]
  rfl

/-- The fields of an encoded frame are the packet's, with the checksum it was given. -/
theorem frameFields_encodeFrame (p : Packet) :
    frameFields (encodeFrame p) = { p with checksum := ck (headerFields p ++ p.payload) } := by
  simp only [frameFields, byteAt_encodeFrame_command, byteAt_encodeFrame_status, halfAt_encodeFrame_requestLength,
    halfAt_encodeFrame_replyLength, halfAt_encodeFrame_address, halfAt_encodeFrame_checksum, drop_encodeFrame]

end Sys2Proof.Machine
end

