-- ==== Sys2Proof/Laws/Text.lean ====
section
/-! SUPPORT. The text surface: a rendered line splits into its tokens again, and a written number reads back. -/

namespace Sys2Proof

open Machine

/-! ## Lexing -/

theorem isWord_cons {c : Char} {w : Text} (h : isWord (c :: w) = true) :
    isDelimiter c = false ∧ ∀ d ∈ w, isDelimiter d = false := by
  simpa [isWord] using h

theorem isWord_ne_nil {w : Text} (h : isWord w = true) : w ≠ [] := by
  rintro rfl
  simp [isWord] at h

theorem isWord_all {w : Text} (h : isWord w = true) : ∀ d ∈ w, isDelimiter d = false := by
  simp only [isWord, Bool.and_eq_true, List.all_eq_true, Bool.not_eq_true'] at h
  exact h.2

/-- A character that ends no word goes on with the word gathered so far. -/
theorem lexFrom_char {c : Char} (acc cs : Text) (h : isDelimiter c = false) : lexFrom acc (c :: cs) = lexFrom (c :: acc) cs := by
  simp only [isDelimiter, Bool.or_eq_false_iff, beq_eq_false_iff_ne] at h
  obtain ⟨⟨⟨⟨⟨⟨h1, h2⟩, h3⟩, h4⟩, h5⟩, h6⟩, h7⟩ := h
  simp [lexFrom, punctuation, h1, h2, h3, h4, h5, h6, h7]

theorem lexFrom_word (acc w cs : Text) (h : ∀ d ∈ w, isDelimiter d = false) :
    lexFrom acc (w ++ cs) = lexFrom (w.reverse ++ acc) cs := by
  induction w generalizing acc with
  | nil => rfl
  | cons c w ih =>
    rw [List.cons_append, lexFrom_char acc _ (h c (by simp)), ih _ fun d hd => h d (by simp [hd])]
    simp

/-- At the end of the text, or before a character that ends a word, the word gathered so far is closed. -/
theorem lexFrom_close (acc : Text) (cs : Text) (h : ∀ c r, cs = c :: r → isDelimiter c = true) :
    lexFrom acc cs = closeWord acc ++ lexFrom [] cs := by
  cases cs with
  | nil => simp [lexFrom, closeWord]
  | cons c r =>
    have hc := h c r rfl
    simp only [isDelimiter, Bool.or_eq_true, beq_iff_eq] at hc
    rcases hc with (((((rfl | rfl) | rfl) | rfl) | rfl) | rfl) | rfl <;> simp [lexFrom, punctuation, closeWord]

theorem closeWord_reverse {w : Text} (h : w ≠ []) : closeWord w.reverse = [.word w] := by
  unfold closeWord
  split
  · simp_all
  · rename_i c cs he
    rw [← he, List.reverse_reverse]

/-- A token that can be written: a word of the syntax, or punctuation. -/
def Tok.ok (t : Tok) : Bool :=
  match t with
  | .word w => isWord w
  | .comma | .lpar | .rpar | .lbrk | .rbrk => true

theorem render_head {ts : List Tok} (h : ∀ w r, ts ≠ .word w :: r) (c : Char) (r : Text) (e : render ts = c :: r) :
    isDelimiter c = true := by
  cases ts with
  | nil => simp [render] at e
  | cons t ts =>
    cases t with
    | word w => exact absurd rfl (h w ts)
    | comma | lpar | rpar | lbrk | rbrk =>
      simp only [render, List.cons.injEq] at e
      obtain ⟨rfl, -⟩ := e
      decide

/-- Tokens written as text are read back as they were. -/
theorem lex_render {ts : List Tok} (h : ts.all Tok.ok = true) : lex (render ts) = ts := by
  unfold lex
  induction ts with
  | nil => rfl
  | cons t ts ih =>
    simp only [List.all_cons, Bool.and_eq_true] at h
    have ih := ih h.2
    cases t with
    | word w =>
      have hw : isWord w = true := h.1
      rw [render, List.append_assoc, lexFrom_word _ _ _ (isWord_all hw), List.append_nil]
      have hclose : lexFrom w.reverse (gap ts ++ render ts) = closeWord w.reverse ++ lexFrom [] (gap ts ++ render ts) := by
        apply lexFrom_close
        intro c r e
        cases ts with
        | nil => simp [gap, render] at e
        | cons t' ts' =>
          cases t' with
          | word w' =>
            simp only [gap, List.cons_append, List.cons.injEq] at e
            rw [← e.1]
            decide
          | comma | lpar | rpar | lbrk | rbrk =>
            change render (_ :: ts') = c :: r at e
            exact render_head (by simp) c r e
      rw [hclose, closeWord_reverse (isWord_ne_nil hw)]
      have hgap : lexFrom [] (gap ts ++ render ts) = lexFrom [] (render ts) := by
        unfold gap
        split
        · simp [lexFrom, closeWord]
        · rfl
      rw [hgap, ih]
      rfl
    | comma | lpar | rpar | lbrk | rbrk => simp [render, lexFrom, punctuation, closeWord, ih]

/-- A line: its keyword, then its operands. -/
theorem lex_lineOf {w : Text} {ts : List Tok} (hw : isWord w = true) (h : ts.all Tok.ok = true) :
    lex (w ++ ' ' :: render ts) = .word w :: ts := by
  unfold lex
  rw [lexFrom_word _ _ _ (isWord_all hw), List.append_nil,
    lexFrom_close _ _ (by rintro c r e; simp only [List.cons.injEq] at e; rw [← e.1]; decide),
    closeWord_reverse (isWord_ne_nil hw)]
  have := lex_render h
  unfold lex at this
  simp [lexFrom, closeWord, this]

/-- A function row: its keyword, then its parenthesis. -/
theorem lex_callOf {w : Text} {ts : List Tok} (hw : isWord w = true) (h : (Tok.lpar :: ts).all Tok.ok = true) :
    lex (w ++ render (.lpar :: ts)) = .word w :: .lpar :: ts := by
  have := lex_render h
  unfold lex at this ⊢
  rw [lexFrom_word _ _ _ (isWord_all hw), List.append_nil, lexFrom_close _ _ (by
    rintro c r e
    exact render_head (by simp) c r e), closeWord_reverse (isWord_ne_nil hw), this]
  rfl

theorem lex_keyword {w : Text} (hw : isWord w = true) : lex w = [.word w] := by
  have := lexFrom_word [] w [] (isWord_all hw)
  rw [List.append_nil, List.append_nil] at this
  rw [lex, this, lexFrom, closeWord_reverse (isWord_ne_nil hw)]

/-! ## Numbers -/

theorem hexDigit_hexChar {d : Nat} (h : d < 16) : hexDigit (hexChar d) = some d := by
  interval_cases d <;> decide

theorem hexChar_notDelimiter {d : Nat} (h : d < 16) : isDelimiter (hexChar d) = false := by
  interval_cases d <;> decide

theorem byteWord_byteText (b : Byte) : byteWord (byteText b) = .ok b := by
  have hb := b.isLt
  simp only [byteWord, byteText, hexDigit_hexChar (show b.toNat / 16 < 16 by omega),
    hexDigit_hexChar (show b.toNat % 16 < 16 by omega)]
  congr 1
  apply BitVec.eq_of_toNat_eq
  simp only [BitVec.toNat_ofNat]
  omega

theorem halfWord_halfText (v : Half) : halfWord (halfText v) = .ok v := by
  have hv := v.isLt
  simp only [halfWord, halfText, hexDigit_hexChar (show v.toNat / 4096 < 16 by omega),
    hexDigit_hexChar (show v.toNat / 256 % 16 < 16 by omega), hexDigit_hexChar (show v.toNat / 16 % 16 < 16 by omega),
    hexDigit_hexChar (show v.toNat % 16 < 16 by omega)]
  congr 1
  apply BitVec.eq_of_toNat_eq
  simp only [BitVec.toNat_ofNat]
  omega

theorem isWord_byteText (b : Byte) : isWord (byteText b) = true := by
  have hb := b.isLt
  simp [isWord, byteText, hexChar_notDelimiter (show b.toNat / 16 < 16 by omega),
    hexChar_notDelimiter (show b.toNat % 16 < 16 by omega)]

theorem halfText_notDelimiter (v : Half) : ∀ d ∈ halfText v, isDelimiter d = false := by
  have hv := v.isLt
  simp [halfText, hexChar_notDelimiter (show v.toNat / 4096 < 16 by omega),
    hexChar_notDelimiter (show v.toNat / 256 % 16 < 16 by omega),
    hexChar_notDelimiter (show v.toNat / 16 % 16 < 16 by omega), hexChar_notDelimiter (show v.toNat % 16 < 16 by omega)]

theorem isWord_halfText (v : Half) : isWord (halfText v) = true := by
  simp only [isWord, Bool.and_eq_true, List.all_eq_true, Bool.not_eq_true']
  exact ⟨by simp [halfText], halfText_notDelimiter v⟩

theorem isWord_addressText (v : Half) : isWord (addressText v) = true := by
  have := halfText_notDelimiter v
  simp only [isWord, addressText, Bool.and_eq_true, List.all_eq_true, Bool.not_eq_true', List.mem_cons]
  refine ⟨by simp, ?_⟩
  rintro d (rfl | rfl | hd)
  · decide
  · decide
  · exact this d hd

/-- An address written in hexadecimal reads back. -/
theorem number_addressText (v : Half) : number (addressText v) = some v.toNat := by
  have hv := v.isLt
  simp only [number, addressText, halfText, digits, digitsFrom, hexDigit_hexChar (show v.toNat / 4096 < 16 by omega),
    hexDigit_hexChar (show v.toNat / 256 % 16 < 16 by omega), hexDigit_hexChar (show v.toNat / 16 % 16 < 16 by omega),
    hexDigit_hexChar (show v.toNat % 16 < 16 by omega)]
  congr 1
  omega

theorem halfNumber_of_number {w : Text} {v : Half} (h : number w = some v.toNat) : halfNumber w = .ok v := by
  have hv := v.isLt
  simp only [halfNumber, h]
  rw [if_pos (by omega)]
  simp

theorem decDigit_of_isDigit {c : Char} (h : c.isDigit = true) : decDigit c = some (c.toNat - '0'.toNat) := by
  unfold decDigit
  rw [if_pos]
  simp only [Char.isDigit, Bool.and_eq_true, decide_eq_true_eq] at h
  exact ⟨h.1, h.2⟩

theorem digitsFrom_dec (w : Text) (acc : Nat) (h : ∀ c ∈ w, c.isDigit = true) :
    digitsFrom 10 decDigit acc w = some (Nat.ofDigitChars 10 w acc) := by
  induction w generalizing acc with
  | nil => rfl
  | cons c w ih =>
    simp only [digitsFrom, decDigit_of_isDigit (h c (by simp))]
    rw [ih _ fun d hd => h d (by simp [hd])]
    simp [Nat.ofDigitChars, Nat.mul_comm]

theorem natText_isDigit (n : Nat) : ∀ c ∈ natText n, c.isDigit = true :=
  fun _ h => Nat.isDigit_of_mem_toDigits (by omega) (by omega) h

theorem natText_ne_nil (n : Nat) : natText n ≠ [] := Nat.toDigits_ne_nil

theorem isWord_of_digits {w : Text} (hn : w ≠ []) (h : ∀ c ∈ w, c.isDigit = true) : isWord w = true := by
  simp only [isWord, Bool.and_eq_true, List.all_eq_true, Bool.not_eq_true']
  refine ⟨by simpa using hn, fun d hd => ?_⟩
  have := h d hd
  simp only [isDelimiter, Bool.or_eq_false_iff, beq_eq_false_iff_ne]
  refine ⟨⟨⟨⟨⟨⟨?_, ?_⟩, ?_⟩, ?_⟩, ?_⟩, ?_⟩, ?_⟩ <;> rintro rfl <;> revert this <;> decide

theorem isWord_natText (n : Nat) : isWord (natText n) = true := isWord_of_digits (natText_ne_nil n) (natText_isDigit n)

/-- A number written in decimal reads back. -/
theorem number_natText (n : Nat) : number (natText n) = some n := by
  have hd := natText_isDigit n
  have hr : digits 10 decDigit (natText n) = some n := by
    unfold digits
    split
    · rename_i h; exact absurd h (natText_ne_nil n)
    · rename_i c r h
      rw [← h, digitsFrom_dec _ _ hd]
      exact congrArg some (Nat.ofDigitChars_toDigits (by omega) (by omega))
  unfold number
  split
  · rename_i rest h
    have hx := hd 'x' (by rw [h]; simp)
    exact absurd hx (by decide)
  · exact hr

/-! ## Operands -/

theorem bytesTail_toks (bs : Bytes) (rest : List Tok) :
    bytesTail (bs.map (fun b => .word (byteText b)) ++ .rbrk :: rest) = .ok (bs, rest) := by
  induction bs with
  | nil => rfl
  | cons b bs ih => simp [bytesTail, byteWord_byteText, ih]

/-- A written byte list reads back. -/
theorem bytesThen_bytesToks (bs : Bytes) (after : List Tok) : bytesThen after (bytesToks bs ++ after) = .ok bs := by
  simp [bytesThen, bytesToks, bytesTail_toks]

theorem bytesToks_ok (bs : Bytes) : (bytesToks bs).all Tok.ok = true := by
  simp [bytesToks, Tok.ok, isWord_byteText]

theorem strategyWord_text (s : Strategy) : strategyWord (strategyText s) = .ok s := by cases s <;> rfl

theorem commandWord_text (c : Command) : commandWord (commandText c) = .ok c := by cases c <;> rfl

theorem keyword_text (k : Keyword) : keyword (keywordText k) = some k := by cases k <;> rfl

theorem isWord_keywordText (k : Keyword) : isWord (keywordText k) = true := by cases k <;> decide

theorem isWord_commandText (c : Command) : isWord (commandText c) = true := by cases c <;> decide

theorem isWord_strategyText (s : Strategy) : isWord (strategyText s) = true := by cases s <;> decide

end Sys2Proof
end

