-- ==== Sys2Proof/Laws/Decode.lean ====
section
/-! SUPPORT. Decoding a rendered line, a packet operand and a request frame. -/

namespace Sys2Proof

open Machine

/-- A line of a keyword and its operands decodes as the operands do. -/
theorem decode_lineOf (par : Params) (k : Keyword) {args : List Tok} {i : Instr} (h : args.all Tok.ok = true)
    (hi : decodeArgs par k args = .ok i) : decode par (lineOf k args) = .instr i := by
  cases args with
  | nil => simp [lineOf, decode, decodeLine, lex_keyword (isWord_keywordText k), keyword_text, hi, Decoded.ofExcept]
  | cons t ts => simp [lineOf, decode, decodeLine, lex_lineOf (isWord_keywordText k) h, keyword_text, hi, Decoded.ofExcept]

/-- A function row decodes as its operands do. -/
theorem decode_callOf (par : Params) (k : Keyword) {args : List Tok} {i : Instr} (h : (Tok.lpar :: args).all Tok.ok = true)
    (hi : decodeArgs par k (.lpar :: args) = .ok i) : decode par (callOf k (.lpar :: args)) = .instr i := by
  simp [decode, callOf, decodeLine, lex_callOf (isWord_keywordText k) h, keyword_text, hi, Decoded.ofExcept]

@[simp] theorem natNumber_natText (n : Nat) : natNumber (natText n) = .ok n := by simp [natNumber, number_natText]

@[simp] theorem halfNumber_natText (n : Half) : halfNumber (natText n.toNat) = .ok n := halfNumber_of_number (number_natText _)

@[simp] theorem halfNumber_addressText (n : Half) : halfNumber (addressText n) = .ok n :=
  halfNumber_of_number (number_addressText _)

/-- A written packet reads back, its checksum included. -/
theorem packetOperand_toks (par : Params) (p : Packet) : packetOperand par (packetToks p) = .ok p := by
  have h : bytesThen [.rpar] (bytesToks p.payload ++ [.rpar]) = .ok p.payload := bytesThen_bytesToks _ _
  simp [packetOperand, packetToks, byteWord_byteText, halfWord_halfText, h, bind, Except.bind, pure, Except.pure]

theorem packetToks_ok (p : Packet) : (packetToks p).all Tok.ok = true := by
  have := bytesToks_ok p.payload
  simp only [packetToks, List.all_append, List.all_cons, Tok.ok, isWord_byteText, isWord_halfText, List.all_nil, this,
    Bool.and_self]

/-- With distinct opcodes a command's byte names that command. -/
theorem commandOf_byte (par : Params) (h : par.opc.Distinct) (c : Command) : commandOf par (par.opc.byte c) = some c := by
  unfold commandOf
  cases c <;> simp_all [Command.all, Opcodes.Distinct, Opcodes.byte]

/-- A byte that names a command is its opcode. -/
theorem byte_of_commandOf {par : Params} {b : Byte} {c : Command} (h : commandOf par b = some c) : par.opc.byte c = b := by
  simpa using List.find?_some h

/-- The request frame of a command decodes to the command (R120–R130). -/
theorem decodeWire_request (par : Params) (h : par.opc.Distinct) (c : Command) (a n : Half) (hn : n = replyLen c n) :
    decodeWire par (encodeFrame (mkreq par c a n)) = .instr (Instr.ofCommand c a n) := by
  unfold decodeWire
  rw [if_neg (by simp [mkreq]), if_neg (by simp [mkreq]), byteAt_encodeFrame_command,
    show (mkreq par c a n).command = par.opc.byte c from rfl, commandOf_byte par h]
  simp only [byteAt_encodeFrame_status, halfAt_encodeFrame_replyLength, halfAt_encodeFrame_requestLength,
    halfAt_encodeFrame_address, halfAt_encodeFrame_checksum, frameCk_encodeFrame]
  cases c <;> simp_all [mkreq, replyLen, reqLen, Instr.ofCommand]

/-- A byte string of ten bytes, byte by byte. -/
theorem bytes_of_length_ten {bs : Bytes} (h : bs.length = 10) :
    bs = [byteAt bs 0, byteAt bs 1, byteAt bs 2, byteAt bs 3, byteAt bs 4, byteAt bs 5, byteAt bs 6, byteAt bs 7,
      byteAt bs 8, byteAt bs 9] := by
  match bs, h with
  | [_, _, _, _, _, _, _, _, _, _], _ => rfl

theorem le16_u16 (lo hi : Byte) : le16 (u16 lo hi) = [lo, hi] := by
  have h0 : (u16 lo hi).extractLsb' 0 8 = lo := by
    apply BitVec.eq_of_toNat_eq
    rw [toNat_le16_low, toNat_u16]
    have := lo.isLt
    omega
  have h1 : (u16 lo hi).extractLsb' 8 8 = hi := by
    apply BitVec.eq_of_toNat_eq
    rw [toNat_le16_high, toNat_u16]
    have := lo.isLt
    omega
  simp only [le16, h0, h1]

/-- A frame of ten bytes whose checksum field holds its checksum is the encoding of its fields. -/
theorem encodeFrame_fields {bs : Bytes} {p : Packet} (hlen : bs.length = 10) (hp : p.payload = [])
    (hf : frameFields bs = { p with checksum := frameCk bs }) : encodeFrame p = bs := by
  have hb := bytes_of_length_ten hlen
  have hh : headerFields p = bs.take 8 := by
    have hc := congrArg Packet.command hf
    have hs := congrArg Packet.status hf
    have hq := congrArg Packet.requestLength hf
    have hr := congrArg Packet.replyLength hf
    have ha := congrArg Packet.address hf
    simp only [frameFields] at hc hs hq hr ha
    unfold headerFields
    rw [← hc, ← hs, ← hq, ← hr, ← ha]
    simp only [halfAt, le16_u16]
    rw [hb]
    rfl
  have hk : le16 (ck (headerFields p ++ p.payload)) = [byteAt bs 8, byteAt bs 9] := by
    have hck := congrArg Packet.checksum hf
    simp only [frameFields] at hck
    have hd : bs.drop 10 = [] := List.drop_of_length_le (by omega)
    have he : ck (headerFields p ++ p.payload) = frameCk bs := by
      rw [hh, hp, frameCk, hd]
    rw [he, ← hck]
    exact le16_u16 _ _
  rw [encodeFrame_eq, hk, hh, hp]
  conv_rhs => rw [hb]
  conv_lhs => rw [hb]
  rfl

end Sys2Proof
end

