-- ==== Sys2Proof/Laws/Memory.lean ====
section
/-! SUPPORT. The image's byte store: read after write, the canonical form, and what a block write touches. -/

namespace Sys2Proof.Machine

theorem Memory.wfFrom_mono {m : Memory} {lo lo' : Nat} (h : m.wfFrom lo = true) (hl : lo' ≤ lo) : m.wfFrom lo' = true := by
  cases m with
  | nil => rfl
  | cons c rest =>
    obtain ⟨k, v⟩ := c
    simp only [Memory.wfFrom, Bool.and_eq_true, decide_eq_true_eq] at h ⊢
    exact ⟨⟨by omega, h.1.2⟩, h.2⟩

/-- Below the first offset nothing is listed. -/
theorem Memory.read_of_lt {m : Memory} {lo a : Nat} (h : m.wfFrom lo = true) (ha : a < lo) : m.read a = 0 := by
  induction m generalizing lo with
  | nil => rfl
  | cons c rest ih =>
    obtain ⟨k, v⟩ := c
    simp only [Memory.wfFrom, Bool.and_eq_true, decide_eq_true_eq] at h
    simp only [Memory.read]
    rw [if_neg (by omega), ih h.2 (by omega)]

theorem Memory.wfFrom_write {m : Memory} {lo a : Nat} (b : Byte) (h : m.wfFrom lo = true) (ha : lo ≤ a) :
    (m.write a b).wfFrom lo = true := by
  induction m generalizing lo with
  | nil =>
    simp only [Memory.write]
    split
    · rfl
    · simp_all [Memory.wfFrom]
  | cons c rest ih =>
    obtain ⟨k, v⟩ := c
    simp only [Memory.wfFrom, Bool.and_eq_true, decide_eq_true_eq] at h
    obtain ⟨⟨hk, hv⟩, hr⟩ := h
    simp only [Memory.write]
    split
    · split
      · simp only [Memory.wfFrom, Bool.and_eq_true, decide_eq_true_eq]
        exact ⟨⟨hk, hv⟩, hr⟩
      · simp only [Memory.wfFrom, Bool.and_eq_true, decide_eq_true_eq]
        exact ⟨⟨ha, by assumption⟩, ⟨by omega, hv⟩, hr⟩
    · split
      · split
        · exact Memory.wfFrom_mono hr (by omega)
        · simp only [Memory.wfFrom, Bool.and_eq_true, decide_eq_true_eq]
          subst_vars
          exact ⟨⟨ha, by assumption⟩, hr⟩
      · simp only [Memory.wfFrom, Bool.and_eq_true, decide_eq_true_eq]
        exact ⟨⟨hk, hv⟩, ih hr (by omega)⟩

/-- A write keeps the canonical form. -/
theorem Memory.wf_write {m : Memory} (a : Nat) (b : Byte) (h : m.wf = true) : (m.write a b).wf = true :=
  Memory.wfFrom_write b h (Nat.zero_le a)

theorem Memory.wf_writeBytes {m : Memory} (off : Nat) (bs : Bytes) (h : m.wf = true) : (m.writeBytes off bs).wf = true := by
  induction bs generalizing m off with
  | nil => exact h
  | cons b rest ih => exact ih (off + 1) (Memory.wf_write off b h)

theorem Memory.read_writeFrom {m : Memory} {lo : Nat} (a x : Nat) (b : Byte) (h : m.wfFrom lo = true) :
    (m.write a b).read x = if x = a then b else m.read x := by
  induction m generalizing lo with
  | nil =>
    simp only [Memory.write]
    split
    · subst_vars; simp [Memory.read]
    · simp [Memory.read, eq_comm]
  | cons c rest ih =>
    obtain ⟨k, v⟩ := c
    simp only [Memory.wfFrom, Bool.and_eq_true, decide_eq_true_eq] at h
    obtain ⟨⟨hk, hv⟩, hr⟩ := h
    have low (y : Nat) (hy : y < k + 1) : Memory.read rest y = 0 := Memory.read_of_lt hr hy
    simp only [Memory.write]
    split
    · rename_i hak
      split
      · subst_vars
        split
        · subst_vars; simp only [Memory.read]; rw [if_neg (by omega), low _ (by omega)]
        · rfl
      · simp only [Memory.read, eq_comm]
    · split
      · subst_vars
        split
        · subst_vars
          split
          · subst_vars; exact low _ (by omega)
          · rename_i hx; simp only [Memory.read]; rw [if_neg (by omega)]
        · simp only [Memory.read]
          by_cases hx : x = k
          · simp [hx]
          · rw [if_neg (by omega), if_neg hx, if_neg (by omega)]
      · simp only [Memory.read, ih hr]
        by_cases hx : k = x
        · rw [if_pos hx, if_neg (by omega), if_pos hx]
        · rw [if_neg hx, if_neg hx]

/-- Reading after a write: the written offset gives the new byte, every other offset the old one. -/
theorem Memory.read_write {m : Memory} (a x : Nat) (b : Byte) (h : m.wf = true) :
    (m.write a b).read x = if x = a then b else m.read x := Memory.read_writeFrom a x b h

/-- Reading after `MemWrite`: inside the range the written bytes, outside it the old ones (42_image.md R182). -/
theorem Memory.read_writeBytes {m : Memory} (off x : Nat) (bs : Bytes) (h : m.wf = true) :
    (m.writeBytes off bs).read x = if off ≤ x ∧ x < off + bs.length then bs.getD (x - off) 0 else m.read x := by
  induction bs generalizing m off with
  | nil => simp only [Memory.writeBytes, List.length_nil]; rw [if_neg (by omega)]
  | cons b rest ih =>
    simp only [Memory.writeBytes, List.length_cons]
    rw [ih (off + 1) (Memory.wf_write off b h), Memory.read_write off x b h]
    by_cases h1 : x = off
    · subst h1
      rw [if_neg (by omega), if_pos rfl, if_pos (by omega)]
      simp
    · by_cases h2 : off + 1 ≤ x ∧ x < off + 1 + rest.length
      · rw [if_pos h2, if_pos (by omega)]
        obtain ⟨d, rfl⟩ : ∃ d, x = off + 1 + d := ⟨x - (off + 1), by omega⟩
        rw [show off + 1 + d - (off + 1) = d by omega, show off + 1 + d - off = d + 1 by omega]
        simp
      · rw [if_neg h2, if_neg h1, if_neg (by omega)]

@[simp] theorem Memory.below_nil (cap : Nat) : Memory.below [] cap = true := rfl

@[simp] theorem Memory.below_cons (k : Nat) (v : Byte) (rest : Memory) (cap : Nat) :
    Memory.below ((k, v) :: rest) cap = (decide (k < cap) && Memory.below rest cap) := rfl

theorem Memory.below_write {m : Memory} {cap a : Nat} (b : Byte) (h : m.below cap = true) (ha : a < cap) :
    (m.write a b).below cap = true := by
  induction m with
  | nil =>
    simp only [Memory.write]
    split <;> simp [ha]
  | cons c rest ih =>
    obtain ⟨k, v⟩ := c
    simp only [Memory.below_cons, Bool.and_eq_true, decide_eq_true_eq] at h
    have ih' := ih h.2
    simp only [Memory.write]
    split
    · split <;> simp [h.1, h.2, ha]
    · split
      · split <;> simp [h.2, ha]
      · simp [h.1, ih']

theorem Memory.below_writeBytes {m : Memory} {cap : Nat} (off : Nat) (bs : Bytes) (h : m.below cap = true)
    (hb : off + bs.length ≤ cap) : (m.writeBytes off bs).below cap = true := by
  induction bs generalizing m off with
  | nil => exact h
  | cons b rest ih =>
    simp only [List.length_cons] at hb
    exact ih (off + 1) (Memory.below_write b h (by omega)) (by omega)

/-- A byte at or past the bound is not listed. -/
theorem Memory.read_of_below {m : Memory} {cap x : Nat} (h : m.below cap = true) (hx : cap ≤ x) : m.read x = 0 := by
  induction m with
  | nil => rfl
  | cons c rest ih =>
    obtain ⟨k, v⟩ := c
    simp only [Memory.below_cons, Bool.and_eq_true, decide_eq_true_eq] at h
    simp only [Memory.read]
    rw [if_neg (by omega), ih h.2]

@[simp] theorem Memory.length_readBytes (m : Memory) (off n : Nat) : (m.readBytes off n).length = n := by
  induction n generalizing off with
  | zero => rfl
  | succ n ih => simp [Memory.readBytes, ih]

/-- Byte `i` of `MemRead(off, n)` is the byte at offset `off + i`. -/
theorem Memory.getElem?_readBytes (m : Memory) (off n i : Nat) (hi : i < n) :
    (m.readBytes off n)[i]? = some (m.read (off + i)) := by
  induction n generalizing off i with
  | zero => omega
  | succ n ih =>
    cases i with
    | zero => simp [Memory.readBytes]
    | succ i =>
      simp only [Memory.readBytes, List.getElem?_cons_succ]
      rw [ih (off + 1) i (by omega), show off + 1 + i = off + (i + 1) by omega]

@[simp] theorem Image.length_bytes (img : Image) : img.bytes.length = img.capacity := Memory.length_readBytes _ _ _

theorem Image.getElem?_bytes (img : Image) (i : Nat) (hi : i < img.capacity) : img.bytes[i]? = some (img.data.read i) := by
  have h := Memory.getElem?_readBytes img.data 0 img.capacity i hi
  rwa [Nat.zero_add] at h

/-- Two canonical lists that read the same everywhere are equal: equal images are equal data. -/
theorem Memory.ext_of_read {m m' : Memory} {lo : Nat} (h : m.wfFrom lo = true) (h' : m'.wfFrom lo = true)
    (e : ∀ a, m.read a = m'.read a) : m = m' := by
  induction m generalizing lo m' with
  | nil =>
    cases m' with
    | nil => rfl
    | cons c r =>
      obtain ⟨k, v⟩ := c
      simp only [Memory.wfFrom, Bool.and_eq_true, decide_eq_true_eq] at h'
      have := e k
      simp only [Memory.read, if_true] at this
      exact absurd this.symm h'.1.2
  | cons c r ih =>
    obtain ⟨k, v⟩ := c
    simp only [Memory.wfFrom, Bool.and_eq_true, decide_eq_true_eq] at h
    cases m' with
    | nil =>
      have := e k
      simp only [Memory.read, if_true] at this
      exact absurd this h.1.2
    | cons c' r' =>
      obtain ⟨k', v'⟩ := c'
      simp only [Memory.wfFrom, Bool.and_eq_true, decide_eq_true_eq] at h'
      have hk : k = k' := by
        rcases Nat.lt_trichotomy k k' with hlt | heq | hlt
        · have := e k
          simp only [Memory.read, if_true] at this
          rw [if_neg (by omega), Memory.read_of_lt h'.2 (by omega)] at this
          exact absurd this h.1.2
        · exact heq
        · have := e k'
          simp only [Memory.read, if_true] at this
          rw [if_neg (by omega), Memory.read_of_lt h.2 (by omega)] at this
          exact absurd this.symm h'.1.2
      subst hk
      have hv : v = v' := by simpa [Memory.read] using e k
      subst hv
      have : r = r' := ih h.2 h'.2 fun a => by
        by_cases ha : k = a
        · subst ha
          rw [Memory.read_of_lt h.2 (by omega), Memory.read_of_lt h'.2 (by omega)]
        · have := e a
          simpa only [Memory.read, if_neg ha] using this
      rw [this]

end Sys2Proof.Machine
end

