-- ==== Sys2Proof/Laws/State.lean ====
section
/-! SUPPORT. One lemma per component and update of the state, so that no proof unfolds a record update. -/

namespace Sys2Proof.Machine

variable (s : State)

@[simp] theorem start_seq : (start s).seq = s.seq := rfl
@[simp] theorem start_link : (start s).link = s.link := rfl
@[simp] theorem start_img : (start s).img = s.img := rfl
@[simp] theorem start_par : (start s).par = s.par := rfl
@[simp] theorem start_env : (start s).env = s.env := rfl
@[simp] theorem start_inputs : (start s).inputs = s.inputs := rfl
@[simp] theorem start_out : (start s).out = { result := none, events := [] } := rfl

@[simp] theorem emit_seq (e : Event) : (emit e s).seq = s.seq := rfl
@[simp] theorem emit_link (e : Event) : (emit e s).link = s.link := rfl
@[simp] theorem emit_img (e : Event) : (emit e s).img = s.img := rfl
@[simp] theorem emit_par (e : Event) : (emit e s).par = s.par := rfl
@[simp] theorem emit_env (e : Event) : (emit e s).env = s.env := rfl
@[simp] theorem emit_inputs (e : Event) : (emit e s).inputs = s.inputs := rfl
@[simp] theorem emit_out (e : Event) : (emit e s).out = { result := s.out.result, events := s.out.events ++ [e] } := rfl

@[simp] theorem finish_seq (r : Res Value) : (finish r s).seq = s.seq := rfl
@[simp] theorem finish_link (r : Res Value) : (finish r s).link = s.link := rfl
@[simp] theorem finish_img (r : Res Value) : (finish r s).img = s.img := rfl
@[simp] theorem finish_par (r : Res Value) : (finish r s).par = s.par := rfl
@[simp] theorem finish_env (r : Res Value) : (finish r s).env = s.env := rfl
@[simp] theorem finish_inputs (r : Res Value) : (finish r s).inputs = s.inputs := rfl
@[simp] theorem finish_out (r : Res Value) : (finish r s).out = { result := some r, events := s.out.events } := rfl

@[simp] theorem drawn_seq : (drawn s).seq = s.seq := rfl
@[simp] theorem drawn_link : (drawn s).link = s.link := rfl
@[simp] theorem drawn_img : (drawn s).img = s.img := rfl
@[simp] theorem drawn_par : (drawn s).par = s.par := rfl
@[simp] theorem drawn_out : (drawn s).out = s.out := rfl
@[simp] theorem drawn_inputs : (drawn s).inputs = s.inputs := rfl
@[simp] theorem drawn_env : (drawn s).env = { script := s.env.script, drawIdx := s.env.drawIdx + 1 } := rfl

@[simp] theorem setRx_seq (rx : Bytes) : (setRx rx s).seq = s.seq := rfl
@[simp] theorem setRx_img (rx : Bytes) : (setRx rx s).img = s.img := rfl
@[simp] theorem setRx_par (rx : Bytes) : (setRx rx s).par = s.par := rfl
@[simp] theorem setRx_env (rx : Bytes) : (setRx rx s).env = s.env := rfl
@[simp] theorem setRx_out (rx : Bytes) : (setRx rx s).out = s.out := rfl
@[simp] theorem setRx_inputs (rx : Bytes) : (setRx rx s).inputs = s.inputs := rfl
@[simp] theorem setRx_link (rx : Bytes) : (setRx rx s).link = { s.link with rx := rx } := rfl

@[simp] theorem setLinkOpen_seq (b : Bool) : (setLinkOpen b s).seq = s.seq := rfl
@[simp] theorem setLinkOpen_img (b : Bool) : (setLinkOpen b s).img = s.img := rfl
@[simp] theorem setLinkOpen_par (b : Bool) : (setLinkOpen b s).par = s.par := rfl
@[simp] theorem setLinkOpen_env (b : Bool) : (setLinkOpen b s).env = s.env := rfl
@[simp] theorem setLinkOpen_out (b : Bool) : (setLinkOpen b s).out = s.out := rfl
@[simp] theorem setLinkOpen_inputs (b : Bool) : (setLinkOpen b s).inputs = s.inputs := rfl
@[simp] theorem setLinkOpen_link (b : Bool) : (setLinkOpen b s).link = { s.link with linkOpen := b } := rfl

@[simp] theorem setImage_seq (img : Image) : (setImage img s).seq = s.seq := rfl
@[simp] theorem setImage_link (img : Image) : (setImage img s).link = s.link := rfl
@[simp] theorem setImage_par (img : Image) : (setImage img s).par = s.par := rfl
@[simp] theorem setImage_env (img : Image) : (setImage img s).env = s.env := rfl
@[simp] theorem setImage_out (img : Image) : (setImage img s).out = s.out := rfl
@[simp] theorem setImage_inputs (img : Image) : (setImage img s).inputs = s.inputs := rfl
@[simp] theorem setImage_img (img : Image) : (setImage img s).img = img := rfl

@[simp] theorem imageMarkValid_seq : (imageMarkValid s).seq = s.seq := rfl
@[simp] theorem imageMarkValid_link : (imageMarkValid s).link = s.link := rfl
@[simp] theorem imageMarkValid_par : (imageMarkValid s).par = s.par := rfl
@[simp] theorem imageMarkValid_env : (imageMarkValid s).env = s.env := rfl
@[simp] theorem imageMarkValid_out : (imageMarkValid s).out = s.out := rfl
@[simp] theorem imageMarkValid_inputs : (imageMarkValid s).inputs = s.inputs := rfl
@[simp] theorem imageMarkValid_img : (imageMarkValid s).img = { s.img with valid := true } := rfl

@[simp] theorem setSc_link (sc : SeqState) : (setSc sc s).link = s.link := rfl
@[simp] theorem setSc_img (sc : SeqState) : (setSc sc s).img = s.img := rfl
@[simp] theorem setSc_par (sc : SeqState) : (setSc sc s).par = s.par := rfl
@[simp] theorem setSc_env (sc : SeqState) : (setSc sc s).env = s.env := rfl
@[simp] theorem setSc_out (sc : SeqState) : (setSc sc s).out = s.out := rfl
@[simp] theorem setSc_inputs (sc : SeqState) : (setSc sc s).inputs = s.inputs := rfl
@[simp] theorem setSc_seq (sc : SeqState) : (setSc sc s).seq = { s.seq with sc := sc } := rfl

@[simp] theorem consumeTick_link : (consumeTick s).link = s.link := rfl
@[simp] theorem consumeTick_img : (consumeTick s).img = s.img := rfl
@[simp] theorem consumeTick_par : (consumeTick s).par = s.par := rfl
@[simp] theorem consumeTick_env : (consumeTick s).env = s.env := rfl
@[simp] theorem consumeTick_out : (consumeTick s).out = s.out := rfl
@[simp] theorem consumeTick_inputs : (consumeTick s).inputs = s.inputs := rfl
@[simp] theorem consumeTick_seq : (consumeTick s).seq = { s.seq with countdown := s.seq.countdown - 1 } := rfl

@[simp] theorem loadCountdown_link : (loadCountdown s).link = s.link := rfl
@[simp] theorem loadCountdown_img : (loadCountdown s).img = s.img := rfl
@[simp] theorem loadCountdown_par : (loadCountdown s).par = s.par := rfl
@[simp] theorem loadCountdown_env : (loadCountdown s).env = s.env := rfl
@[simp] theorem loadCountdown_out : (loadCountdown s).out = s.out := rfl
@[simp] theorem loadCountdown_inputs : (loadCountdown s).inputs = s.inputs := rfl
@[simp] theorem loadCountdown_seq : (loadCountdown s).seq = { s.seq with countdown := s.par.timeoutTicks } := rfl

@[simp] theorem setByteCount_link (n : Nat) : (setByteCount n s).link = s.link := rfl
@[simp] theorem setByteCount_img (n : Nat) : (setByteCount n s).img = s.img := rfl
@[simp] theorem setByteCount_par (n : Nat) : (setByteCount n s).par = s.par := rfl
@[simp] theorem setByteCount_env (n : Nat) : (setByteCount n s).env = s.env := rfl
@[simp] theorem setByteCount_out (n : Nat) : (setByteCount n s).out = s.out := rfl
@[simp] theorem setByteCount_inputs (n : Nat) : (setByteCount n s).inputs = s.inputs := rfl
@[simp] theorem setByteCount_seq (n : Nat) : (setByteCount n s).seq = { s.seq with byteCount := n } := rfl

@[simp] theorem setPlanIdx_link (n : Nat) : (setPlanIdx n s).link = s.link := rfl
@[simp] theorem setPlanIdx_img (n : Nat) : (setPlanIdx n s).img = s.img := rfl
@[simp] theorem setPlanIdx_par (n : Nat) : (setPlanIdx n s).par = s.par := rfl
@[simp] theorem setPlanIdx_env (n : Nat) : (setPlanIdx n s).env = s.env := rfl
@[simp] theorem setPlanIdx_out (n : Nat) : (setPlanIdx n s).out = s.out := rfl
@[simp] theorem setPlanIdx_inputs (n : Nat) : (setPlanIdx n s).inputs = s.inputs := rfl
@[simp] theorem setPlanIdx_seq (n : Nat) : (setPlanIdx n s).seq = { s.seq with planIdx := n } := rfl

@[simp] theorem consumeInput_seq : (consumeInput s).seq = s.seq := rfl
@[simp] theorem consumeInput_link : (consumeInput s).link = s.link := rfl
@[simp] theorem consumeInput_img : (consumeInput s).img = s.img := rfl
@[simp] theorem consumeInput_par : (consumeInput s).par = s.par := rfl
@[simp] theorem consumeInput_env : (consumeInput s).env = s.env := rfl
@[simp] theorem consumeInput_out : (consumeInput s).out = s.out := rfl
@[simp] theorem consumeInput_inputs : (consumeInput s).inputs = s.inputs.tail := rfl

@[simp] theorem issue_seq (e : Encoded) : (issue e s).seq = s.seq := rfl
@[simp] theorem issue_link (e : Encoded) : (issue e s).link = s.link := rfl
@[simp] theorem issue_img (e : Encoded) : (issue e s).img = s.img := rfl
@[simp] theorem issue_par (e : Encoded) : (issue e s).par = s.par := rfl
@[simp] theorem issue_env (e : Encoded) : (issue e s).env = s.env := rfl
@[simp] theorem issue_out (e : Encoded) : (issue e s).out = s.out := rfl
@[simp] theorem issue_inputs (e : Encoded) : (issue e s).inputs = .host e :: s.inputs := rfl

@[simp] theorem takeLock_link : (takeLock s).link = s.link := rfl
@[simp] theorem takeLock_img : (takeLock s).img = s.img := rfl
@[simp] theorem takeLock_par : (takeLock s).par = s.par := rfl
@[simp] theorem takeLock_env : (takeLock s).env = s.env := rfl
@[simp] theorem takeLock_inputs : (takeLock s).inputs = s.inputs := rfl
@[simp] theorem takeLock_seq : (takeLock s).seq = { s.seq with lock := true } := rfl
@[simp] theorem takeLock_out : (takeLock s).out = { result := s.out.result, events := s.out.events ++ [.lock] } := rfl

@[simp] theorem enterFailure_link (k : ErrKind) : (enterFailure k s).link = s.link := rfl
@[simp] theorem enterFailure_img (k : ErrKind) : (enterFailure k s).img = s.img := rfl
@[simp] theorem enterFailure_par (k : ErrKind) : (enterFailure k s).par = s.par := rfl
@[simp] theorem enterFailure_env (k : ErrKind) : (enterFailure k s).env = s.env := rfl
@[simp] theorem enterFailure_inputs (k : ErrKind) : (enterFailure k s).inputs = s.inputs := rfl
@[simp] theorem enterFailure_seq (k : ErrKind) : (enterFailure k s).seq = { s.seq with sc := .dumpFail } := rfl
@[simp] theorem enterFailure_out (k : ErrKind) : (enterFailure k s).out = { result := s.out.result, events := s.out.events ++ [.log (.error k)] } := rfl

@[simp] theorem advancePlan_link : (advancePlan s).link = s.link := by simp only [advancePlan]; split <;> [rfl; split <;> rfl]
@[simp] theorem advancePlan_img : (advancePlan s).img = s.img := by simp only [advancePlan]; split <;> [rfl; split <;> rfl]
@[simp] theorem advancePlan_par : (advancePlan s).par = s.par := by simp only [advancePlan]; split <;> [rfl; split <;> rfl]
@[simp] theorem advancePlan_env : (advancePlan s).env = s.env := by simp only [advancePlan]; split <;> [rfl; split <;> rfl]
@[simp] theorem advancePlan_out : (advancePlan s).out = s.out := by simp only [advancePlan]; split <;> [rfl; split <;> rfl]
@[simp] theorem advancePlan_inputs : (advancePlan s).inputs = s.inputs := by
  simp only [advancePlan]; split <;> [rfl; split <;> rfl]

@[simp] theorem releaseLock_link : (releaseLock s).link = s.link := by unfold releaseLock; split <;> rfl
@[simp] theorem releaseLock_img : (releaseLock s).img = s.img := by unfold releaseLock; split <;> rfl
@[simp] theorem releaseLock_par : (releaseLock s).par = s.par := by unfold releaseLock; split <;> rfl
@[simp] theorem releaseLock_env : (releaseLock s).env = s.env := by unfold releaseLock; split <;> rfl
@[simp] theorem releaseLock_inputs : (releaseLock s).inputs = s.inputs := by unfold releaseLock; split <;> rfl

/-- Releasing the lock writes nothing else of the sequencer. -/
@[simp] theorem releaseLock_seq : (releaseLock s).seq = { s.seq with lock := false } := by
  unfold releaseLock
  split
  · rfl
  · rename_i h
    obtain ⟨⟨sc, cd, bc, lk, pi, la, cs⟩, _, _, _, _, _, _⟩ := s
    cases lk <;> simp_all

@[simp] theorem leaveFailure_seq : (leaveFailure s).seq = { s.seq with lock := false, sc := .reset } := by
  simp [leaveFailure]
@[simp] theorem leaveFailure_img : (leaveFailure s).img = s.img := by simp [leaveFailure]
@[simp] theorem leaveFailure_link : (leaveFailure s).link = s.link := by simp [leaveFailure]
@[simp] theorem leaveFailure_par : (leaveFailure s).par = s.par := by simp [leaveFailure]
@[simp] theorem leaveFailure_env : (leaveFailure s).env = s.env := by simp [leaveFailure]
@[simp] theorem leaveFailure_inputs : (leaveFailure s).inputs = s.inputs := by simp [leaveFailure]

end Sys2Proof.Machine
end

