-- ==== Sys2Proof/Laws/Ops.lean ====
section
/-! SUPPORT. What each shared operation can do, said once: its frame, component by component, and its outcomes. -/

namespace Sys2Proof.Machine

@[simp] theorem bindOp_ok {α β : Type} (a : α) (s : State) (f : α → State → Res β × State) :
    bindOp (.ok a, s) f = f a s := rfl

@[simp] theorem bindOp_err {α β : Type} (e : Err) (s : State) (f : α → State → Res β × State) :
    bindOp (.err e, s) f = (.err e, s) := rfl

/-- A property of states that the first operation establishes and the second keeps. -/
theorem bindOp_keeps {α β : Type} (P : State → Prop) (r : Res α × State) (f : α → State → Res β × State)
    (h : P r.2) (hf : ∀ a s, P s → P (f a s).2) : P (bindOp r f).2 := by
  obtain ⟨r1, s1⟩ := r
  cases r1 with
  | ok a => exact hf a s1 h
  | err e => exact h

@[simp] theorem linkWrite_seq (bs : Bytes) (s : State) : (linkWrite bs s).2.seq = s.seq := by
  unfold linkWrite; split <;> [rfl; split <;> rfl]
@[simp] theorem linkWrite_link (bs : Bytes) (s : State) : (linkWrite bs s).2.link = s.link := by
  unfold linkWrite; split <;> [rfl; split <;> rfl]
@[simp] theorem linkWrite_img (bs : Bytes) (s : State) : (linkWrite bs s).2.img = s.img := by
  unfold linkWrite; split <;> [rfl; split <;> rfl]
@[simp] theorem linkWrite_par (bs : Bytes) (s : State) : (linkWrite bs s).2.par = s.par := by
  unfold linkWrite; split <;> [rfl; split <;> rfl]
@[simp] theorem linkWrite_inputs (bs : Bytes) (s : State) : (linkWrite bs s).2.inputs = s.inputs := by
  unfold linkWrite; split <;> [rfl; split <;> rfl]
@[simp] theorem linkWrite_script (bs : Bytes) (s : State) : (linkWrite bs s).2.env.script = s.env.script := by
  unfold linkWrite; split <;> [rfl; split <;> rfl]
@[simp] theorem linkWrite_result (bs : Bytes) (s : State) : (linkWrite bs s).2.out.result = s.out.result := by
  unfold linkWrite; split <;> [rfl; split <;> rfl]

@[simp] theorem linkRead_seq (max : Nat) (s : State) : (linkRead max s).2.seq = s.seq := by
  unfold linkRead; split <;> [rfl; split <;> rfl]
@[simp] theorem linkRead_img (max : Nat) (s : State) : (linkRead max s).2.img = s.img := by
  unfold linkRead; split <;> [rfl; split <;> rfl]
@[simp] theorem linkRead_par (max : Nat) (s : State) : (linkRead max s).2.par = s.par := by
  unfold linkRead; split <;> [rfl; split <;> rfl]
@[simp] theorem linkRead_inputs (max : Nat) (s : State) : (linkRead max s).2.inputs = s.inputs := by
  unfold linkRead; split <;> [rfl; split <;> rfl]
@[simp] theorem linkRead_out (max : Nat) (s : State) : (linkRead max s).2.out = s.out := by
  unfold linkRead; split <;> [rfl; split <;> rfl]
@[simp] theorem linkRead_script (max : Nat) (s : State) : (linkRead max s).2.env.script = s.env.script := by
  unfold linkRead; split <;> [rfl; split <;> rfl]
@[simp] theorem linkRead_linkOpen (max : Nat) (s : State) : (linkRead max s).2.link.linkOpen = s.link.linkOpen := by
  unfold linkRead; split <;> [rfl; split <;> rfl]
@[simp] theorem linkRead_cfgPort (max : Nat) (s : State) : (linkRead max s).2.link.cfgPort = s.link.cfgPort := by
  unfold linkRead; split <;> [rfl; split <;> rfl]
@[simp] theorem linkRead_cfgReadTimeout (max : Nat) (s : State) : (linkRead max s).2.link.cfgReadTimeout = s.link.cfgReadTimeout := by
  unfold linkRead; split <;> [rfl; split <;> rfl]

@[simp] theorem synchronizeLink_seq (s : State) : (synchronizeLink s).2.seq = s.seq := by
  simp [synchronizeLink]
@[simp] theorem synchronizeLink_link (s : State) : (synchronizeLink s).2.link = s.link := by
  simp [synchronizeLink]
@[simp] theorem synchronizeLink_img (s : State) : (synchronizeLink s).2.img = s.img := by
  simp [synchronizeLink]
@[simp] theorem synchronizeLink_par (s : State) : (synchronizeLink s).2.par = s.par := by
  simp [synchronizeLink]
@[simp] theorem synchronizeLink_script (s : State) : (synchronizeLink s).2.env.script = s.env.script := by
  simp [synchronizeLink]
@[simp] theorem synchronizeLink_inputs (s : State) : (synchronizeLink s).2.inputs = s.inputs := by
  simp [synchronizeLink]

/-- EXCHANGE keeps what WRITE and READ both keep. -/
theorem exchangePacket_keeps (P : State → Prop) (p : Packet) (s : State) (h : P (linkWrite (encodeFrame p) s).2)
    (hr : ∀ n s, P s → P (linkRead n s).2) : P (exchangePacket p s).2 :=
  bindOp_keeps P _ _ h fun _ s1 h1 => bindOp_keeps P _ _ (hr _ s1 h1) fun _ _ h2 => h2

@[simp] theorem exchangePacket_seq (p : Packet) (s : State) : (exchangePacket p s).2.seq = s.seq :=
  exchangePacket_keeps (fun t => t.seq = s.seq) p s (by simp) fun n t h => by simp [h]
@[simp] theorem exchangePacket_img (p : Packet) (s : State) : (exchangePacket p s).2.img = s.img :=
  exchangePacket_keeps (fun t => t.img = s.img) p s (by simp) fun n t h => by simp [h]
@[simp] theorem exchangePacket_par (p : Packet) (s : State) : (exchangePacket p s).2.par = s.par :=
  exchangePacket_keeps (fun t => t.par = s.par) p s (by simp) fun n t h => by simp [h]
@[simp] theorem exchangePacket_inputs (p : Packet) (s : State) : (exchangePacket p s).2.inputs = s.inputs :=
  exchangePacket_keeps (fun t => t.inputs = s.inputs) p s (by simp) fun n t h => by simp [h]
@[simp] theorem exchangePacket_script (p : Packet) (s : State) : (exchangePacket p s).2.env.script = s.env.script :=
  exchangePacket_keeps (fun t => t.env.script = s.env.script) p s (by simp) fun n t h => by simp [h]
@[simp] theorem exchangePacket_linkOpen (p : Packet) (s : State) : (exchangePacket p s).2.link.linkOpen = s.link.linkOpen :=
  exchangePacket_keeps (fun t => t.link.linkOpen = s.link.linkOpen) p s (by simp) fun n t h => by simp [h]
@[simp] theorem exchangePacket_cfgPort (p : Packet) (s : State) : (exchangePacket p s).2.link.cfgPort = s.link.cfgPort :=
  exchangePacket_keeps (fun t => t.link.cfgPort = s.link.cfgPort) p s (by simp) fun n t h => by simp [h]
@[simp] theorem exchangePacket_cfgReadTimeout (p : Packet) (s : State) : (exchangePacket p s).2.link.cfgReadTimeout = s.link.cfgReadTimeout :=
  exchangePacket_keeps (fun t => t.link.cfgReadTimeout = s.link.cfgReadTimeout) p s (by simp) fun n t h => by simp [h]

@[simp] theorem openPort_seq (port : PortId) (t : ReadTimeout) (s : State) : (openPort port t s).2.seq = s.seq := by
  unfold openPort; split <;> [rfl; split <;> rfl]
@[simp] theorem openPort_img (port : PortId) (t : ReadTimeout) (s : State) : (openPort port t s).2.img = s.img := by
  unfold openPort; split <;> [rfl; split <;> rfl]
@[simp] theorem openPort_par (port : PortId) (t : ReadTimeout) (s : State) : (openPort port t s).2.par = s.par := by
  unfold openPort; split <;> [rfl; split <;> rfl]
@[simp] theorem openPort_inputs (port : PortId) (t : ReadTimeout) (s : State) : (openPort port t s).2.inputs = s.inputs := by
  unfold openPort; split <;> [rfl; split <;> rfl]
@[simp] theorem openPort_out (port : PortId) (t : ReadTimeout) (s : State) : (openPort port t s).2.out = s.out := by
  unfold openPort; split <;> [rfl; split <;> rfl]

@[simp] theorem closePort_seq (s : State) : (closePort s).2.seq = s.seq := by
  unfold closePort; split <;> rfl
@[simp] theorem closePort_img (s : State) : (closePort s).2.img = s.img := by
  unfold closePort; split <;> rfl
@[simp] theorem closePort_par (s : State) : (closePort s).2.par = s.par := by
  unfold closePort; split <;> rfl
@[simp] theorem closePort_inputs (s : State) : (closePort s).2.inputs = s.inputs := by
  unfold closePort; split <;> rfl
@[simp] theorem closePort_out (s : State) : (closePort s).2.out = s.out := by
  unfold closePort; split <;> rfl
@[simp] theorem closePort_env (s : State) : (closePort s).2.env = s.env := by
  unfold closePort; split <;> rfl

@[simp] theorem imageSetCapacity_seq (n : Nat) (s : State) : (imageSetCapacity n s).2.seq = s.seq := by
  unfold imageSetCapacity; split <;> rfl
@[simp] theorem imageSetCapacity_link (n : Nat) (s : State) : (imageSetCapacity n s).2.link = s.link := by
  unfold imageSetCapacity; split <;> rfl
@[simp] theorem imageSetCapacity_par (n : Nat) (s : State) : (imageSetCapacity n s).2.par = s.par := by
  unfold imageSetCapacity; split <;> rfl
@[simp] theorem imageSetCapacity_inputs (n : Nat) (s : State) : (imageSetCapacity n s).2.inputs = s.inputs := by
  unfold imageSetCapacity; split <;> rfl
@[simp] theorem imageSetCapacity_out (n : Nat) (s : State) : (imageSetCapacity n s).2.out = s.out := by
  unfold imageSetCapacity; split <;> rfl
@[simp] theorem imageSetCapacity_env (n : Nat) (s : State) : (imageSetCapacity n s).2.env = s.env := by
  unfold imageSetCapacity; split <;> rfl

@[simp] theorem imageWriteAt_seq (off : Nat) (bs : Bytes) (s : State) : (imageWriteAt off bs s).2.seq = s.seq := by
  unfold imageWriteAt; split <;> rfl
@[simp] theorem imageWriteAt_link (off : Nat) (bs : Bytes) (s : State) : (imageWriteAt off bs s).2.link = s.link := by
  unfold imageWriteAt; split <;> rfl
@[simp] theorem imageWriteAt_par (off : Nat) (bs : Bytes) (s : State) : (imageWriteAt off bs s).2.par = s.par := by
  unfold imageWriteAt; split <;> rfl
@[simp] theorem imageWriteAt_inputs (off : Nat) (bs : Bytes) (s : State) : (imageWriteAt off bs s).2.inputs = s.inputs := by
  unfold imageWriteAt; split <;> rfl
@[simp] theorem imageWriteAt_out (off : Nat) (bs : Bytes) (s : State) : (imageWriteAt off bs s).2.out = s.out := by
  unfold imageWriteAt; split <;> rfl
@[simp] theorem imageWriteAt_env (off : Nat) (bs : Bytes) (s : State) : (imageWriteAt off bs s).2.env = s.env := by
  unfold imageWriteAt; split <;> rfl

@[simp] theorem arriveBytes_seq (bs : Bytes) (s : State) : (arriveBytes bs s).seq = s.seq := by
  unfold arriveBytes; split <;> rfl
@[simp] theorem arriveBytes_img (bs : Bytes) (s : State) : (arriveBytes bs s).img = s.img := by
  unfold arriveBytes; split <;> rfl
@[simp] theorem arriveBytes_par (bs : Bytes) (s : State) : (arriveBytes bs s).par = s.par := by
  unfold arriveBytes; split <;> rfl
@[simp] theorem arriveBytes_inputs (bs : Bytes) (s : State) : (arriveBytes bs s).inputs = s.inputs := by
  unfold arriveBytes; split <;> rfl
@[simp] theorem arriveBytes_out (bs : Bytes) (s : State) : (arriveBytes bs s).out = s.out := by
  unfold arriveBytes; split <;> rfl
@[simp] theorem arriveBytes_env (bs : Bytes) (s : State) : (arriveBytes bs s).env = s.env := by
  unfold arriveBytes; split <;> rfl
@[simp] theorem arriveBytes_linkOpen (bs : Bytes) (s : State) : (arriveBytes bs s).link.linkOpen = s.link.linkOpen := by
  unfold arriveBytes; split <;> rfl
@[simp] theorem arriveBytes_cfgPort (bs : Bytes) (s : State) : (arriveBytes bs s).link.cfgPort = s.link.cfgPort := by
  unfold arriveBytes; split <;> rfl
@[simp] theorem arriveBytes_cfgReadTimeout (bs : Bytes) (s : State) : (arriveBytes bs s).link.cfgReadTimeout = s.link.cfgReadTimeout := by
  unfold arriveBytes; split <;> rfl

/-- DUMP_BEGIN's preparation, component by component (43_sequencer.md R211). -/
@[simp] theorem prepareDump_seq (p : ReadPlan) (s : State) :
    (prepareDump p s).seq = { s.seq with lock := true, byteCount := 0, planIdx := 0 } := by simp [prepareDump]
@[simp] theorem prepareDump_link (p : ReadPlan) (s : State) : (prepareDump p s).link = s.link := by simp [prepareDump]
@[simp] theorem prepareDump_par (p : ReadPlan) (s : State) : (prepareDump p s).par = s.par := by simp [prepareDump]
@[simp] theorem prepareDump_env (p : ReadPlan) (s : State) : (prepareDump p s).env = s.env := by simp [prepareDump]
@[simp] theorem prepareDump_inputs (p : ReadPlan) (s : State) : (prepareDump p s).inputs = s.inputs := by simp [prepareDump]
@[simp] theorem prepareDump_out (p : ReadPlan) (s : State) :
    (prepareDump p s).out = { result := s.out.result, events := s.out.events ++ [.lock] } := by simp [prepareDump]

/-- EXEC_UNIT keeps what EXCHANGE, WRITE_AT and the byte count keep. -/
theorem runUnit_keeps (P : State → Prop) (u : PlanUnit) (s : State) (h : ∀ p, P (exchangePacket p s).2)
    (hw : ∀ off bs t, P t → P (imageWriteAt off bs t).2)
    (hc : ∀ n t, P t → P { t with seq := { t.seq with byteCount := n } }) : P (runUnit u s).2 := by
  cases u with
  | hotspot a => exact bindOp_keeps P _ _ (h _) fun _ _ h1 => h1
  | block a off n =>
    exact bindOp_keeps P _ _ (h _) fun _ s1 h1 => bindOp_keeps P _ _ (hw _ _ s1 h1) fun _ _ h2 => hc _ _ h2

@[simp] theorem runUnit_par (u : PlanUnit) (s : State) : (runUnit u s).2.par = s.par :=
  runUnit_keeps (fun t => t.par = s.par) u s (fun p => by simp) (fun _ _ t h => by simp [h]) fun _ _ h => h
@[simp] theorem runUnit_inputs (u : PlanUnit) (s : State) : (runUnit u s).2.inputs = s.inputs :=
  runUnit_keeps (fun t => t.inputs = s.inputs) u s (fun p => by simp) (fun _ _ t h => by simp [h]) fun _ _ h => h
@[simp] theorem runUnit_script (u : PlanUnit) (s : State) : (runUnit u s).2.env.script = s.env.script :=
  runUnit_keeps (fun t => t.env.script = s.env.script) u s (fun p => by simp) (fun _ _ t h => by simp [h]) fun _ _ h => h
@[simp] theorem runUnit_linkOpen (u : PlanUnit) (s : State) : (runUnit u s).2.link.linkOpen = s.link.linkOpen :=
  runUnit_keeps (fun t => t.link.linkOpen = s.link.linkOpen) u s (fun p => by simp) (fun _ _ t h => by simp [h]) fun _ _ h => h
@[simp] theorem runUnit_cfgPort (u : PlanUnit) (s : State) : (runUnit u s).2.link.cfgPort = s.link.cfgPort :=
  runUnit_keeps (fun t => t.link.cfgPort = s.link.cfgPort) u s (fun p => by simp) (fun _ _ t h => by simp [h]) fun _ _ h => h
@[simp] theorem runUnit_cfgReadTimeout (u : PlanUnit) (s : State) : (runUnit u s).2.link.cfgReadTimeout = s.link.cfgReadTimeout :=
  runUnit_keeps (fun t => t.link.cfgReadTimeout = s.link.cfgReadTimeout) u s (fun p => by simp) (fun _ _ t h => by simp [h]) fun _ _ h => h
@[simp] theorem runUnit_sc (u : PlanUnit) (s : State) : (runUnit u s).2.seq.sc = s.seq.sc :=
  runUnit_keeps (fun t => t.seq.sc = s.seq.sc) u s (fun p => by simp) (fun _ _ t h => by simp [h]) fun _ _ h => h
@[simp] theorem runUnit_countdown (u : PlanUnit) (s : State) : (runUnit u s).2.seq.countdown = s.seq.countdown :=
  runUnit_keeps (fun t => t.seq.countdown = s.seq.countdown) u s (fun p => by simp) (fun _ _ t h => by simp [h]) fun _ _ h => h
@[simp] theorem runUnit_lock (u : PlanUnit) (s : State) : (runUnit u s).2.seq.lock = s.seq.lock :=
  runUnit_keeps (fun t => t.seq.lock = s.seq.lock) u s (fun p => by simp) (fun _ _ t h => by simp [h]) fun _ _ h => h
@[simp] theorem runUnit_planIdx (u : PlanUnit) (s : State) : (runUnit u s).2.seq.planIdx = s.seq.planIdx :=
  runUnit_keeps (fun t => t.seq.planIdx = s.seq.planIdx) u s (fun p => by simp) (fun _ _ t h => by simp [h]) fun _ _ h => h
@[simp] theorem runUnit_lastArtifact (u : PlanUnit) (s : State) : (runUnit u s).2.seq.lastArtifact = s.seq.lastArtifact :=
  runUnit_keeps (fun t => t.seq.lastArtifact = s.seq.lastArtifact) u s (fun p => by simp) (fun _ _ t h => by simp [h]) fun _ _ h => h
@[simp] theorem runUnit_cfgStrategy (u : PlanUnit) (s : State) : (runUnit u s).2.seq.cfgStrategy = s.seq.cfgStrategy :=
  runUnit_keeps (fun t => t.seq.cfgStrategy = s.seq.cfgStrategy) u s (fun p => by simp) (fun _ _ t h => by simp [h]) fun _ _ h => h
@[simp] theorem runUnit_capacity (u : PlanUnit) (s : State) : (runUnit u s).2.img.capacity = s.img.capacity :=
  runUnit_keeps (fun t => t.img.capacity = s.img.capacity) u s (fun p => by simp) (fun _ _ t h => by unfold imageWriteAt; split <;> exact h) fun _ _ h => h

/-! ## Outcomes -/

/-- The draw made, and the count of draws after it. -/
theorem nextDraw_eq_draw (s : State) : nextDraw s = Safety.draw s s.env.drawIdx := rfl

@[simp] theorem nextDraw_drawn (s : State) : nextDraw (drawn s) = Safety.draw s (s.env.drawIdx + 1) := rfl

@[simp] theorem nextDraw_start (s : State) : nextDraw (start s) = nextDraw s := rfl

@[simp] theorem nextDraw_emit (e : Event) (s : State) : nextDraw (emit e s) = nextDraw s := rfl

@[simp] theorem nextDraw_prepareDump (p : ReadPlan) (s : State) : nextDraw (prepareDump p s) = nextDraw s := by
  simp [nextDraw]

/-- WRITE's outcomes (41_transport.md R153). -/
theorem linkWrite_closed {s : State} (bs : Bytes) (h : s.link.linkOpen = false) :
    linkWrite bs s = (.err (.transportWrite .closed), s) := by simp [linkWrite, h]

theorem linkWrite_done {s : State} (bs : Bytes) (h : s.link.linkOpen = true) (hd : (nextDraw s).ok = true) :
    linkWrite bs s = (.ok (), emit (.tx bs) (drawn s)) := by simp [linkWrite, h, hd]

theorem linkWrite_failed {s : State} (bs : Bytes) (h : s.link.linkOpen = true) (hd : (nextDraw s).ok = false) :
    linkWrite bs s = (.err (.transportWrite .io), emit (.tx (bs.take (nextDraw s).count)) (drawn s)) := by
  simp [linkWrite, h, hd]

/-- READ's outcomes (41_transport.md R154). -/
theorem linkRead_closed {s : State} (max : Nat) (h : s.link.linkOpen = false) :
    linkRead max s = (.err (.transportRead .closed), s) := by simp [linkRead, h]

theorem linkRead_done {s : State} (max : Nat) (h : s.link.linkOpen = true) (hd : (nextDraw s).ok = true) :
    linkRead max s = (.ok ((readBuffer s).take (readCount max s)), afterRead max s) := by simp [linkRead, h, hd]

theorem linkRead_failed {s : State} (max : Nat) (h : s.link.linkOpen = true) (hd : (nextDraw s).ok = false) :
    linkRead max s = (.err (.transportRead .io), afterRead max s) := by simp [linkRead, h, hd]

/-- SET_CAPACITY's two outcomes (42_image.md R181). -/
theorem imageSetCapacity_ok {n : Nat} {s : State} (h : capacityOk s.par.imageMax n = true) :
    imageSetCapacity n s = (.ok (), setImage { capacity := n, data := [], valid := false } s) := by
  unfold imageSetCapacity; exact if_pos h

theorem imageSetCapacity_bounds {n : Nat} {s : State} (h : capacityOk s.par.imageMax n = false) :
    imageSetCapacity n s = (.err (.boundsCapacity n), s) := by
  unfold imageSetCapacity; exact if_neg (by simp [h])

/-- WRITE_AT's two outcomes (42_image.md R182). -/
theorem imageWriteAt_ok {off : Nat} {bs : Bytes} {s : State} (h : off + bs.length ≤ s.img.capacity) :
    imageWriteAt off bs s = (.ok (), setImage
      { capacity := s.img.capacity, data := s.img.data.writeBytes off bs, valid := false } s) := by
  unfold imageWriteAt; exact if_pos (by simpa [fitsImage] using h)

theorem imageWriteAt_bounds {off : Nat} {bs : Bytes} {s : State} (h : s.img.capacity < off + bs.length) :
    imageWriteAt off bs s = (.err (.boundsWrite off bs.length), s) := by
  unfold imageWriteAt; exact if_neg (by simpa [fitsImage] using h)

/-- READ never returns more than `max` bytes (41_transport.md R154, corner case (2)). -/
theorem linkRead_length {max : Nat} {s t : State} {r : Bytes} (h : linkRead max s = (.ok r, t)) : r.length ≤ max := by
  unfold linkRead at h
  split at h
  · simp at h
  · split at h
    · simp only [Prod.mk.injEq, Res.ok.injEq] at h
      rw [← h.1, List.length_take, readCount]
      omega
    · simp at h

/-- A reply of the expected length, ten bytes or more, is decoded as it stands (41_transport.md R156). -/
theorem checkReply_full {expected : Nat} {r : Bytes} (h : r.length = expected) (h0 : 10 ≤ expected) :
    checkReply expected r = decodePacket r := by
  unfold checkReply
  rw [if_neg (by omega), if_neg (by omega)]

/-- A decoded packet's payload is every byte after the header (30_encoding.md R83). -/
theorem decodePacket_ok {bs : Bytes} {p : Packet} (h : decodePacket bs = .ok p) :
    10 ≤ bs.length ∧ frameCk bs = halfAt bs 8 ∧ p = frameFields bs := by
  unfold decodePacket at h
  split at h
  · simp at h
  · split at h
    · simp at h
    · simp only [Res.ok.injEq] at h
      exact ⟨by omega, by simp_all, h.symm⟩

/-- A reply EXCHANGE accepts has at least the expected length and decodes. -/
theorem checkReply_ok {expected : Nat} {r : Bytes} {p : Packet} (h : checkReply expected r = .ok p) :
    expected ≤ r.length ∧ decodePacket r = .ok p := by
  unfold checkReply at h
  split at h
  · simp at h
  · split at h
    · simp at h
    · exact ⟨by omega, h⟩

/-- An EXCHANGE that succeeds returns a payload of exactly `replyLength` bytes (43_sequencer.md R206). -/
theorem exchangePacket_payload {p q : Packet} {s t : State} (h : exchangePacket p s = (.ok q, t)) :
    q.payload.length = p.replyLength.toNat := by
  unfold exchangePacket at h
  rcases hw : linkWrite (encodeFrame p) s with ⟨_ | e, s1⟩
  · rw [hw, bindOp_ok] at h
    rcases hr : linkRead (expectedSize p) s1 with ⟨r | e, s2⟩
    · rw [hr, bindOp_ok] at h
      simp only [Prod.mk.injEq] at h
      obtain ⟨hlen, hd⟩ := checkReply_ok h.1
      obtain ⟨-, -, rfl⟩ := decodePacket_ok hd
      have := linkRead_length hr
      simp only [frameFields, List.length_drop, expectedSize, Config.hdr] at *
      omega
    · rw [hr, bindOp_err] at h; simp at h
  · rw [hw, bindOp_err] at h; simp at h

/-- A unit that fails leaves the sequencer and the image as they were (60_exceptions.md R252). -/
theorem runUnit_err {u : PlanUnit} {s t : State} {e : Err} (h : runUnit u s = (.err e, t)) :
    t.seq = s.seq ∧ t.img = s.img := by
  cases u with
  | hotspot a =>
    have hs := exchangePacket_seq (mkreq s.par .readSingle a 1) s
    have hi := exchangePacket_img (mkreq s.par .readSingle a 1) s
    simp only [runUnit] at h
    rcases hx : exchangePacket (mkreq s.par .readSingle a 1) s with ⟨_ | _, s1⟩ <;> rw [hx] at h hs hi
    · rw [bindOp_ok] at h; simp at h
    · rw [bindOp_err] at h
      obtain ⟨-, rfl⟩ := Prod.mk.inj h
      exact ⟨hs, hi⟩
  | block a off n =>
    have hs := exchangePacket_seq (mkreq s.par .readBlock a n) s
    have hi := exchangePacket_img (mkreq s.par .readBlock a n) s
    simp only [runUnit] at h
    rcases hx : exchangePacket (mkreq s.par .readBlock a n) s with ⟨p | _, s1⟩ <;> rw [hx] at h hs hi
    · rw [bindOp_ok] at h
      by_cases hf : off + p.payload.length ≤ s1.img.capacity
      · rw [imageWriteAt_ok hf, bindOp_ok] at h; simp at h
      · rw [imageWriteAt_bounds (by omega), bindOp_err] at h
        obtain ⟨-, rfl⟩ := Prod.mk.inj h
        exact ⟨hs, hi⟩
    · rw [bindOp_err] at h
      obtain ⟨-, rfl⟩ := Prod.mk.inj h
      exact ⟨hs, hi⟩

/-- A block that succeeds has written its `n` bytes and counted them (43_sequencer.md R206). -/
theorem runUnit_block_ok {a : Half} {off : Nat} {n : Half} {s t : State} (h : runUnit (.block a off n) s = (.ok (), t)) :
    ∃ bs : Bytes, bs.length = n.toNat ∧ off + n.toNat ≤ s.img.capacity ∧
      t.img = { capacity := s.img.capacity, data := s.img.data.writeBytes off bs, valid := false } ∧
      t.seq = { s.seq with byteCount := s.seq.byteCount + n.toNat } := by
  have hs := exchangePacket_seq (mkreq s.par .readBlock a n) s
  have hi := exchangePacket_img (mkreq s.par .readBlock a n) s
  simp only [runUnit] at h
  rcases hx : exchangePacket (mkreq s.par .readBlock a n) s with ⟨p | _, s1⟩
  · have hp : p.payload.length = n.toNat := exchangePacket_payload hx
    rw [hx] at h hs hi
    rw [bindOp_ok] at h
    by_cases hf : off + p.payload.length ≤ s1.img.capacity
    · rw [imageWriteAt_ok hf, bindOp_ok] at h
      obtain ⟨-, rfl⟩ := Prod.mk.inj h
      simp only at hs hi
      rw [hi, hp] at hf
      exact ⟨p.payload, hp, hf, by simp [hi], by simp [hs, hp]⟩
    · rw [imageWriteAt_bounds (by omega), bindOp_err] at h; simp at h
  · rw [hx, bindOp_err] at h; simp at h

/-- A hotspot leaves the sequencer and the image as they were (43_sequencer.md R206). -/
theorem runUnit_hotspot (a : Half) (s : State) :
    (runUnit (.hotspot a) s).2.seq = s.seq ∧ (runUnit (.hotspot a) s).2.img = s.img :=
  ⟨bindOp_keeps (fun t => t.seq = s.seq) _ _ (by simp) fun _ _ h => h,
    bindOp_keeps (fun t => t.img = s.img) _ _ (by simp) fun _ _ h => h⟩

/-! ## The receive buffer -/

/-- What READ leaves in `rx` (41_transport.md R154). -/
theorem linkRead_rx (max : Nat) (s : State) : (linkRead max s).2.link.rx =
    if s.link.linkOpen = true then Safety.rxAfterRead max s.env.drawIdx s else s.link.rx := by
  unfold linkRead
  cases s.link.linkOpen
  · rfl
  · cases (nextDraw s).ok <;> rfl

/-- What EXCHANGE leaves in `rx` (R156). -/
theorem exchangePacket_rx (p : Packet) (s : State) :
    (exchangePacket p s).2.link.rx = Safety.rxAfterExchange (expectedSize p) s := by
  unfold exchangePacket Safety.rxAfterExchange
  cases ho : s.link.linkOpen
  · rw [linkWrite_closed _ ho]; simp
  · cases hd : (nextDraw s).ok
    · rw [linkWrite_failed _ ho hd, if_neg (by rw [← nextDraw_eq_draw, hd]; simp)]; rfl
    · rw [linkWrite_done _ ho hd, bindOp_ok, if_pos ⟨rfl, by rw [← nextDraw_eq_draw]; exact hd⟩]
      refine bindOp_keeps (fun t => t.link.rx = _) _ _ ?_ fun _ _ h => h
      rw [linkRead_rx, if_pos (by exact ho)]; rfl

/-- What EXEC_UNIT leaves in `rx` (43_sequencer.md R206). -/
theorem runUnit_rx (u : PlanUnit) (s : State) :
    (runUnit u s).2.link.rx = Safety.rxAfterExchange (Safety.unitAsks u) s := by
  cases u with
  | hotspot a => exact bindOp_keeps (fun t => t.link.rx = _) _ _ (exchangePacket_rx _ s) fun _ _ h => h
  | block a off n =>
    refine bindOp_keeps (fun t => t.link.rx = _) _ _ (exchangePacket_rx _ s) fun _ _ h => ?_
    exact bindOp_keeps (fun t => t.link.rx = _) _ _ (by simpa using h) fun _ _ h => h

end Sys2Proof.Machine
end

