-- ==== Sys2Proof/Laws/Sequence.lean ====
section
/-! SUPPORT. The sequencer's step, state by state, and what its parts write. -/

namespace Sys2Proof.Machine

/-- A unit that succeeded writes the cursor and the state, nothing else (43_sequencer.md R212). -/
theorem advancePlan_seq (s : State) : (advancePlan s).seq =
    { s.seq with
      planIdx := s.seq.planIdx + 1
      sc := if s.seq.planIdx + 1 = (planUnits s.seq.cfgStrategy).length then .dumpEnd
            else if s.seq.countdown = 0 then .dumpTimeout else s.seq.sc } := by
  simp only [advancePlan]
  by_cases h1 : s.seq.planIdx + 1 = (planUnits s.seq.cfgStrategy).length
  · rw [if_pos h1, if_pos h1]; rfl
  · rw [if_neg h1, if_neg h1]
    by_cases h2 : s.seq.countdown = 0
    · rw [if_pos h2, if_pos h2]; rfl
    · rw [if_neg h2, if_neg h2]

theorem advancePlan_eq (s : State) : advancePlan s = { s with seq := (advancePlan s).seq } := by
  rw [advancePlan_seq]
  simp only [advancePlan]
  by_cases h1 : s.seq.planIdx + 1 = (planUnits s.seq.cfgStrategy).length
  · rw [if_pos h1, if_pos h1]; rfl
  · rw [if_neg h1, if_neg h1]
    by_cases h2 : s.seq.countdown = 0
    · rw [if_pos h2, if_pos h2]; rfl
    · rw [if_neg h2, if_neg h2]

/-- Both plans' images fit under any IMAGE_MAX the parameters allow (43_sequencer.md R211, "cannot fail"). -/
theorem capacityOk_plan {par : Params} (h : par.Wf) {st : Strategy} {p : ReadPlan} (hp : readPlan st = some p) :
    capacityOk par.imageMax p.size = true := by
  have hm : 8192 ≤ par.imageMax := h.2.2
  unfold capacityOk
  cases st <;> simp only [readPlan, Option.some.injEq, reduceCtorEq] at hp <;> subst hp
  · rw [Bool.and_eq_true, decide_eq_true_eq, decide_eq_true_eq]
    exact ⟨by decide, Nat.le_trans (by decide) hm⟩
  · rw [Bool.and_eq_true, decide_eq_true_eq, decide_eq_true_eq]
    exact ⟨by decide, Nat.le_trans (by decide) hm⟩

/-- DUMP_BEGIN's preparation (43_sequencer.md R211). -/
theorem prepareDump_eq {s : State} {p : ReadPlan} (hw : s.par.Wf) (hp : readPlan s.seq.cfgStrategy = some p) :
    prepareDump p s = { s with
      seq := { s.seq with lock := true, byteCount := 0, planIdx := 0 }
      img := { capacity := p.size, data := [], valid := false }
      out := { result := s.out.result, events := s.out.events ++ [.lock] } } := by
  have hc := capacityOk_plan hw hp
  unfold prepareDump
  rw [imageSetCapacity_ok (by exact hc)]
  rfl

/-! ## The nine states -/

variable {s : State}

theorem tick_init (h : s.seq.sc = .init) : tick s = some (stepInit s) := by unfold tick; rw [h]
theorem tick_ready (h : s.seq.sc = .ready) : tick s = some (stepReady s) := by unfold tick; rw [h]
theorem tick_dumpBegin (h : s.seq.sc = .dumpBegin) : tick s = some (stepDumpBegin s) := by unfold tick; rw [h]
theorem tick_dump (h : s.seq.sc = .dump) : tick s = stepDump s := by unfold tick; rw [h]
theorem tick_dumpEnd (h : s.seq.sc = .dumpEnd) : tick s = some (stepDumpEnd s) := by unfold tick; rw [h]
theorem tick_dumpTimeout (h : s.seq.sc = .dumpTimeout) : tick s = some (stepDumpTimeout s) := by unfold tick; rw [h]
theorem tick_dumpAbort (h : s.seq.sc = .dumpAbort) : tick s = some (stepDumpAbort s) := by unfold tick; rw [h]
theorem tick_dumpFail (h : s.seq.sc = .dumpFail) : tick s = some (stepDumpFail s) := by unfold tick; rw [h]
theorem tick_reset (h : s.seq.sc = .reset) : tick s = some (stepReset s) := by unfold tick; rw [h]

theorem stepDumpBegin_unsupported (h : readPlan s.seq.cfgStrategy = none) :
    stepDumpBegin s = enterFailure .notSupported s := by unfold stepDumpBegin; rw [h]

theorem stepDumpBegin_supported {p : ReadPlan} (h : readPlan s.seq.cfgStrategy = some p) :
    stepDumpBegin s = afterSync (synchronizeLink (prepareDump p s)) := by unfold stepDumpBegin; rw [h]

theorem stepDump_timeout (h : s.seq.countdown = 0) : stepDump s = some (setSc .dumpTimeout s) := by
  unfold stepDump; rw [if_pos h]

theorem stepDump_unit {u : PlanUnit} (h : s.seq.countdown ≠ 0)
    (hu : (planUnits s.seq.cfgStrategy)[s.seq.planIdx]? = some u) :
    stepDump s = some (afterUnit (runUnit u (consumeTick s))) := by
  unfold stepDump; rw [if_neg h, hu]

/-- Everything DUMP's step can do (43_sequencer.md R212). -/
theorem stepDump_cases {t : State} (h : stepDump s = some t) :
    (s.seq.countdown = 0 ∧ t = setSc .dumpTimeout s) ∨
    ∃ u, s.seq.countdown ≠ 0 ∧ (planUnits s.seq.cfgStrategy)[s.seq.planIdx]? = some u ∧
      t = afterUnit (runUnit u (consumeTick s)) := by
  unfold stepDump at h
  split at h
  · exact .inl ⟨‹_›, (Option.some.inj h).symm⟩
  · split at h
    · simp at h
    · exact .inr ⟨_, ‹_›, ‹_›, (Option.some.inj h).symm⟩

/-- Everything DUMP_BEGIN's step can do (43_sequencer.md R211). -/
theorem stepDumpBegin_cases (s : State) :
    (readPlan s.seq.cfgStrategy = none ∧ stepDumpBegin s = enterFailure .notSupported s) ∨
    ∃ p, readPlan s.seq.cfgStrategy = some p ∧
      stepDumpBegin s = afterSync (synchronizeLink (prepareDump p s)) := by
  rcases hp : readPlan s.seq.cfgStrategy with _ | p
  · exact .inl ⟨rfl, stepDumpBegin_unsupported hp⟩
  · exact .inr ⟨p, rfl, stepDumpBegin_supported hp⟩

/-- SYNCHRONIZE's two ends (43_sequencer.md R211). -/
theorem afterSync_cases (r : Res Unit × State) :
    (r.1 = .ok () ∧ afterSync r = setSc .dump (loadCountdown r.2)) ∨
    ∃ e, r.1 = .err e ∧ afterSync r = enterFailure e.kind (loadCountdown r.2) := by
  obtain ⟨_ | e, t⟩ := r
  · exact .inl ⟨rfl, rfl⟩
  · exact .inr ⟨e, rfl, rfl⟩

/-- A unit's two ends (43_sequencer.md R212). -/
theorem afterUnit_cases (r : Res Unit × State) :
    (r.1 = .ok () ∧ afterUnit r = advancePlan r.2) ∨
    ∃ e, r.1 = .err e ∧ afterUnit r = enterFailure e.kind r.2 := by
  obtain ⟨_ | e, t⟩ := r
  · exact .inl ⟨rfl, rfl⟩
  · exact .inr ⟨e, rfl, rfl⟩

/-- Everything a STEP can do, state by state (43_sequencer.md R208–R217). -/
theorem tick_cases {t : State} (h : tick s = some t) :
    (s.seq.sc = .init ∧ t = setSc .ready s) ∨
    (s.seq.sc = .ready ∧ t = s) ∨
    (s.seq.sc = .dumpBegin ∧ readPlan s.seq.cfgStrategy = none ∧ t = enterFailure .notSupported s) ∨
    (s.seq.sc = .dumpBegin ∧ ∃ p, readPlan s.seq.cfgStrategy = some p ∧
      (((synchronizeLink (prepareDump p s)).1 = .ok () ∧
          t = setSc .dump (loadCountdown (synchronizeLink (prepareDump p s)).2)) ∨
        ∃ e, (synchronizeLink (prepareDump p s)).1 = .err e ∧
          t = enterFailure e.kind (loadCountdown (synchronizeLink (prepareDump p s)).2))) ∨
    (s.seq.sc = .dump ∧ s.seq.countdown = 0 ∧ t = setSc .dumpTimeout s) ∨
    (s.seq.sc = .dump ∧ s.seq.countdown ≠ 0 ∧ ∃ u, (planUnits s.seq.cfgStrategy)[s.seq.planIdx]? = some u ∧
      (((runUnit u (consumeTick s)).1 = .ok () ∧ t = advancePlan (runUnit u (consumeTick s)).2) ∨
        ∃ e, (runUnit u (consumeTick s)).1 = .err e ∧ t = enterFailure e.kind (runUnit u (consumeTick s)).2)) ∨
    (s.seq.sc = .dumpEnd ∧ t = stepDumpEnd s) ∨
    (s.seq.sc = .dumpTimeout ∧ t = stepDumpTimeout s) ∨
    (s.seq.sc = .dumpAbort ∧ t = stepDumpAbort s) ∨
    (s.seq.sc = .dumpFail ∧ t = leaveFailure s) ∨
    (s.seq.sc = .reset ∧ t = setSc .ready (releaseLock s)) := by
  unfold tick at h
  split at h <;> rename_i hs
  case h_4 =>
    rcases stepDump_cases h with ⟨h0, rfl⟩ | ⟨u, h0, hu, rfl⟩
    · simp [hs, h0]
    · rcases afterUnit_cases (runUnit u (consumeTick s)) with ⟨h1, e⟩ | ⟨k, h1, e⟩ <;> rw [e] <;> simp [hs, h0, hu, h1]
  all_goals obtain rfl := Option.some.inj h
  case h_3 =>
    rcases stepDumpBegin_cases s with ⟨hp, e⟩ | ⟨p, hp, e⟩ <;> rw [e]
    · simp [hs, hp]
    · rcases afterSync_cases (synchronizeLink (prepareDump p s)) with ⟨h1, e⟩ | ⟨k, h1, e⟩ <;> rw [e] <;>
        simp [hs, hp, h1]
  all_goals simp [hs, stepInit, stepReady, stepDumpFail, stepReset]

/-- STEP's answer (43_sequencer.md R208). -/
theorem exec_step_of_tick {t : State} (h : tick (start s) = some t) :
    exec .step s = .next (finish (.ok .unit) t) := by
  show execStep s = _
  unfold execStep; rw [h]; rfl

/-- Every next state of a STEP comes from the work of its sequencer state. -/
theorem exec_step_next {t : State} (h : exec .step s = .next t) :
    ∃ t', tick (start s) = some t' ∧ t = finish (.ok .unit) t' := by
  change execStep s = _ at h
  unfold execStep at h
  split at h
  · rename_i t' ht
    exact ⟨t', ht, (Host.Outcome.next.inj h).symm⟩
  · simp at h

end Sys2Proof.Machine
end

