-- ==== Sys2Proof/Laws/Exec.lean ====
section
/-! SUPPORT. What an instruction leaves behind, said once per instruction, for the statements over all of them. -/

namespace Sys2Proof.Machine

/-- The state an instruction leaves, before its result is written down; none where it does not go on. -/
def effect (i : Instr) (s : State) : Option State :=
  match i with
  | .readSingle a => some (exchangePacket (mkreq s.par .readSingle a 1) (start s)).2
  | .writeSingle a => some (exchangePacket (mkreq s.par .writeSingle a 0) (start s)).2
  | .emulateSingle a => some (exchangePacket (mkreq s.par .emulateSingle a 0) (start s)).2
  | .readBlock a n => some (exchangePacket (mkreq s.par .readBlock a n) (start s)).2
  | .writeBlock a => some (exchangePacket (mkreq s.par .writeBlock a 0) (start s)).2
  | .emulateBlock a => some (exchangePacket (mkreq s.par .emulateBlock a 0) (start s)).2
  | .setReadDelay a => some (exchangePacket (mkreq s.par .setReadDelay a 0) (start s)).2
  | .getReadDelay a => some (exchangePacket (mkreq s.par .getReadDelay a 0) (start s)).2
  | .getInfo a => some (exchangePacket (mkreq s.par .getInfo a 0) (start s)).2
  | .sync a => some (exchangePacket (mkreq s.par .sync a 0) (start s)).2
  | .nop a => some (exchangePacket (mkreq s.par .nop a 0) (start s)).2
  | .syncSeq | .synchronize => some (synchronizeLink (start s)).2
  | .encodePacket _ | .decodeFrame _ | .checksum _ | .mkreq _ _ _ => some (start s)
  | .write bs => some (linkWrite bs (start s)).2
  | .read max => some (linkRead max (start s)).2
  | .exchange p => some (exchangePacket p (start s)).2
  | .setCapacity n => some (imageSetCapacity n (start s)).2
  | .writeAt off bs => some (imageWriteAt off bs (start s)).2
  | .markValid => some (imageMarkValid (start s))
  | .execUnit u => some (runUnit u (start s)).2
  | .openLink port timeout => some (openPort port timeout (start s)).2
  | .closeLink => some (closePort (start s)).2
  | .selectStrategy k =>
    some (start (if s.seq.sc.isIdle then { s with seq := { s.seq with cfgStrategy := k } } else s))
  | .requestDump => some (start (if s.seq.sc = .ready then setSc .dumpBegin s else s))
  | .step => tick (start s)
  | .abort => some (start (if s.seq.sc.isAbortable then setSc .dumpAbort s else s))
  | .getLastArtifact | .isValid | .snapshot => some (start s)
  | .stepTimes n => some { s with inputs := List.replicate n (.host (.line ['S', 'T', 'E', 'P'])) ++ s.inputs }

/-- An instruction's next state is its effect with a result written down, and `STEP ×n` writes none. -/
theorem exec_effect {i : Instr} {s t : State} (h : exec i s = .next t) :
    ∃ u, effect i s = some u ∧ (t = u ∨ ∃ r, t = finish r u) := by
  cases i <;> first
    | (obtain rfl := Host.Outcome.next.inj h; exact ⟨_, rfl, .inr ⟨_, rfl⟩⟩)
    | skip
  case selectStrategy k =>
    simp only [exec, execSelectStrategy] at h
    cases hi : s.seq.sc.isIdle <;> rw [hi] at h <;> obtain rfl := Host.Outcome.next.inj h <;>
      exact ⟨_, rfl, .inr ⟨_, by rw [hi]; rfl⟩⟩
  case requestDump =>
    simp only [exec, execRequestDump] at h
    by_cases hr : s.seq.sc = .ready
    · rw [if_neg (by simpa using hr)] at h
      obtain rfl := Host.Outcome.next.inj h
      exact ⟨_, rfl, .inr ⟨_, by rw [if_pos hr]⟩⟩
    · rw [if_pos hr] at h
      obtain rfl := Host.Outcome.next.inj h
      exact ⟨_, rfl, .inr ⟨_, by rw [if_neg hr]⟩⟩
  case step =>
    obtain ⟨u, hu, rfl⟩ := exec_step_next h
    exact ⟨u, hu, .inr ⟨_, rfl⟩⟩
  case abort =>
    simp only [exec, execAbort] at h
    cases hi : s.seq.sc.isAbortable <;> rw [hi] at h <;> obtain rfl := Host.Outcome.next.inj h <;>
      exact ⟨_, rfl, .inr ⟨_, by rw [hi]; rfl⟩⟩
  case getLastArtifact =>
    simp only [exec, execGetLastArtifact] at h
    split at h <;> obtain rfl := Host.Outcome.next.inj h <;> exact ⟨_, rfl, .inr ⟨_, rfl⟩⟩
  case stepTimes n =>
    obtain rfl := Host.Outcome.next.inj h
    exact ⟨_, rfl, .inl rfl⟩

/-- The components of an instruction's next state are those of its effect. -/
theorem exec_next {i : Instr} {s t : State} (h : exec i s = .next t) :
    ∃ u, effect i s = some u ∧ t.seq = u.seq ∧ t.link = u.link ∧ t.img = u.img ∧ t.par = u.par ∧ t.env = u.env ∧
      t.out.events = u.out.events ∧ t.inputs = u.inputs := by
  obtain ⟨u, hu, rfl | ⟨r, rfl⟩⟩ := exec_effect h
  · exact ⟨t, hu, rfl, rfl, rfl, rfl, rfl, rfl, rfl⟩
  · exact ⟨u, hu, rfl, rfl, rfl, rfl, rfl, rfl, rfl⟩

/-- The cursor's unit answers what EXEC_UNIT's work on the ticked state gives (43_sequencer.md R206, R212). -/
theorem unitAnswers_iff {s : State} {u : PlanUnit} {r : Res Value}
    (hu : (planUnits s.seq.cfgStrategy)[s.seq.planIdx]? = some u) :
    Safety.unitAnswers s r ↔ (runUnit u (consumeTick (start s))).1.toValue (fun _ => .unit) = r := by
  constructor
  · rintro ⟨v, t, hv, h, hr⟩
    obtain rfl := Option.some.inj (hu.symm.trans hv)
    obtain rfl := Host.Outcome.next.inj h
    exact Option.some.inj hr
  · exact fun h => ⟨u, _, hu, rfl, congrArg some h⟩

end Sys2Proof.Machine
end

