-- ==== Sys2Proof/Laws/PerInstr.lean ====
section
/-! SUPPORT. For every instruction, which of the two surfaces (30_encoding.md) its encoding is on, and what it begins with. -/

namespace Sys2Proof.Laws.Surface

open Sys2Proof Sys2Proof.Machine

/-- A wire instruction is a request frame's 10 bytes or the 14 of SYNC_SEQ; any other is a line whose first word names
an operation (R80, R91, R94). -/
def OnSurface (e : Encoded) : Prop :=
  match e with
  | .wire bs => bs.length = 10 ∨ bs.length = 14
  | .line cs => ∃ k args, lex cs = .word (keywordText k) :: args

def Statement (i : Instr) : Prop := WellFormed i = true → ∀ par : Params, OnSurface (encode par i)

/-- A request frame carries no payload (R118). -/
theorem request (par : Params) (c : Command) (a n : Half) : OnSurface (requestOf par c a n) := .inl (by simp [mkreq])

theorem line (k : Keyword) {args : List Tok} (ha : args.all Tok.ok = true) : OnSurface (lineOf k args) := by
  cases args with
  | nil => exact ⟨k, [], lex_keyword (isWord_keywordText k)⟩
  | cons t ts => exact ⟨k, _, lex_lineOf (isWord_keywordText k) ha⟩

theorem bareLine (k : Keyword) : OnSurface (lineOf k []) := ⟨k, [], lex_keyword (isWord_keywordText k)⟩

theorem call (k : Keyword) {args : List Tok} (ha : (Tok.lpar :: args).all Tok.ok = true) :
    OnSurface (callOf k (.lpar :: args)) := ⟨k, _, lex_callOf (isWord_keywordText k) ha⟩

theorem nat_ok (n : Nat) : [Tok.word (natText n)].all Tok.ok = true := by simp [Tok.ok, isWord_natText]

theorem strategy_ok (s : Strategy) : [Tok.word (strategyText s)].all Tok.ok = true := by
  simp [Tok.ok, isWord_strategyText]

theorem writeAt_ok (off : Nat) (bs : Bytes) :
    (Tok.word (natText off) :: .comma :: bytesToks bs).all Tok.ok = true := by
  have := bytesToks_ok bs
  simp_all [Tok.ok, isWord_natText]

theorem unit_ok (u : PlanUnit) : (unitToks u).all Tok.ok = true := by
  have h1 : isWord hotspotText = true := by decide
  have h2 : isWord blockText = true := by decide
  cases u <;> simp [unitToks, Tok.ok, h1, h2, isWord_addressText, isWord_natText]

theorem times_ok (n : Nat) : [Tok.word ('×' :: natText n)].all Tok.ok = true := by
  have hx : isDelimiter '×' = false := by decide
  have := isWord_all (isWord_natText n)
  simp [Tok.ok, isWord, hx]
  exact this

theorem open_ok {port : PortId} {timeout : ReadTimeout} (h : WellFormed (.openLink port timeout) = true) :
    [Tok.word port, .comma, .word timeout].all Tok.ok = true := by
  simp only [WellFormed, Bool.and_eq_true] at h
  simp [Tok.ok, h.1, h.2]

theorem checksum_ok (bs : Bytes) : (Tok.lpar :: (bytesToks bs ++ [.rpar])).all Tok.ok = true := by
  have := bytesToks_ok bs
  simp_all [Tok.ok]

theorem mkreq_ok (c : Command) (a n : Half) : (mkreqToks c a n).all Tok.ok = true := by
  simp [mkreqToks, Tok.ok, isWord_commandText, isWord_addressText, isWord_natText]

theorem readSingle (a : Half) : Statement (.readSingle a) := fun _ par => request par .readSingle a 1

theorem writeSingle (a : Half) : Statement (.writeSingle a) := fun _ par => request par .writeSingle a 0

theorem emulateSingle (a : Half) : Statement (.emulateSingle a) := fun _ par => request par .emulateSingle a 0

theorem readBlock (a : Half) (n : Half) : Statement (.readBlock a n) := fun _ par => request par .readBlock a n

theorem writeBlock (a : Half) : Statement (.writeBlock a) := fun _ par => request par .writeBlock a 0

theorem emulateBlock (a : Half) : Statement (.emulateBlock a) := fun _ par => request par .emulateBlock a 0

theorem setReadDelay (a : Half) : Statement (.setReadDelay a) := fun _ par => request par .setReadDelay a 0

theorem getReadDelay (a : Half) : Statement (.getReadDelay a) := fun _ par => request par .getReadDelay a 0

theorem getInfo (a : Half) : Statement (.getInfo a) := fun _ par => request par .getInfo a 0

theorem sync (a : Half) : Statement (.sync a) := fun _ par => request par .sync a 0

theorem nop (a : Half) : Statement (.nop a) := fun _ par => request par .nop a 0

theorem syncSeq : Statement .syncSeq := fun _ _ => .inr (by simp [syncBytes])

theorem encodePacket (p : Packet) : Statement (.encodePacket p) := fun _ _ => line .kEncode (packetToks_ok p)

theorem decodeFrame (bs : Bytes) : Statement (.decodeFrame bs) := fun _ _ => line .kDecode (bytesToks_ok bs)

theorem checksum (bs : Bytes) : Statement (.checksum bs) := fun _ _ => call .kCk (checksum_ok bs)

theorem mkreq (c : Command) (a : Half) (n : Half) : Statement (.mkreq c a n) := fun _ _ => call .kMkreq (mkreq_ok c a n)

theorem write (bs : Bytes) : Statement (.write bs) := fun _ _ => line .kWrite (bytesToks_ok bs)

theorem read (max : Nat) : Statement (.read max) := fun _ _ => line .kRead (nat_ok max)

theorem synchronize : Statement .synchronize := fun _ _ => bareLine .kSynchronize

theorem exchange (p : Packet) : Statement (.exchange p) := fun _ _ => line .kExchange (packetToks_ok p)

theorem setCapacity (n : Nat) : Statement (.setCapacity n) := fun _ _ => line .kSetCapacity (nat_ok n)

theorem writeAt (off : Nat) (bs : Bytes) : Statement (.writeAt off bs) := fun _ _ => line .kWriteAt (writeAt_ok off bs)

theorem markValid : Statement .markValid := fun _ _ => bareLine .kMarkValid

theorem execUnit (u : PlanUnit) : Statement (.execUnit u) := fun _ _ => line .kExecUnit (unit_ok u)

theorem openLink (port : PortId) (timeout : ReadTimeout) : Statement (.openLink port timeout) := fun h _ => line .kOpen (open_ok h)

theorem closeLink : Statement .closeLink := fun _ _ => bareLine .kClose

theorem selectStrategy (strategy : Strategy) : Statement (.selectStrategy strategy) := fun _ _ => line .kSelectStrategy (strategy_ok strategy)

theorem requestDump : Statement .requestDump := fun _ _ => bareLine .kRequestDump

theorem step : Statement .step := fun _ _ => bareLine .kStep

theorem abort : Statement .abort := fun _ _ => bareLine .kAbort

theorem getLastArtifact : Statement .getLastArtifact := fun _ _ => bareLine .kGetLastArtifact

theorem isValid : Statement .isValid := fun _ _ => bareLine .kIsValid

theorem snapshot : Statement .snapshot := fun _ _ => bareLine .kSnapshot

theorem stepTimes (n : Nat) : Statement (.stepTimes n) := fun _ _ => line .kStep (times_ok n)

end Sys2Proof.Laws.Surface
end

