-- ==== Sys2Proof/Laws/Schedule.lean ====
section
/-! SUPPORT. Runs of several steps, and that a STEP neither reads nor writes the schedule. -/

namespace Sys2Proof.Machine

/-! ## Runs -/

theorem run_succ {M : Host.Core} {n : Nat} {s t : M.State} (h : M.step s = .next t) : M.run (n + 1) s = M.run n t := by
  rw [Host.Core.run.eq_2, h]

theorem run_succ_fault {M : Host.Core} {n : Nat} {s : M.State} {f : M.Fault} (h : M.step s = .fault f) :
    M.run (n + 1) s = .fault f := by
  rw [Host.Core.run.eq_2, h]

theorem run_succ_refused {M : Host.Core} {n : Nat} {s : M.State} {r : M.Refusal} (h : M.step s = .refused r) :
    M.run (n + 1) s = .refused r := by
  rw [Host.Core.run.eq_2, h]

/-- Running the machine over a step that goes on, that faults, that is refused. -/
theorem run_next {n : Nat} {s t : State} (h : step s = .next t) : Host.Core.run core (n + 1) s = Host.Core.run core n t :=
  run_succ (M := core) h

theorem run_fault {n : Nat} {s : State} {f : Fault} (h : step s = .fault f) : Host.Core.run core (n + 1) s = .fault f :=
  run_succ_fault (M := core) h

theorem run_refused {n : Nat} {s : State} {r : Refusal} (h : step s = .refused r) :
    Host.Core.run core (n + 1) s = .refused r := run_succ_refused (M := core) h

/-- STEPs in a row: after `k` of them that go on, the rest. -/
theorem steps_add {k j : Nat} {s t : State} (h : Safety.steps k s = .next t) :
    Safety.steps (k + j) s = Safety.steps j t := by
  induction k generalizing s with
  | zero => obtain rfl := Host.Outcome.next.inj h; rw [Nat.zero_add]
  | succ k ih =>
    rw [Nat.succ_add, Safety.steps]
    rw [Safety.steps] at h
    cases he : exec .step s <;> rw [he] at h
    · exact ih h
    · simp at h
    · simp at h

theorem steps_one {s u : State} (h : tick (start s) = some u) : Safety.steps 1 s = .next (finish (.ok .unit) u) := by
  rw [Safety.steps, exec_step_of_tick h]
  rfl

/-! ## The schedule is no input of STEP -/

/-- `s` with another schedule. -/
def withInputs (x : List Input) (s : State) : State := { s with inputs := x }

/-- The same result, on a state with another schedule. -/
def onInputs {α : Type} (x : List Input) (r : Res α × State) : Res α × State := (r.1, withInputs x r.2)

theorem bindOp_onInputs {α β : Type} (x : List Input) (r : Res α × State) (f : α → State → Res β × State)
    (hf : ∀ a t, f a (withInputs x t) = onInputs x (f a t)) : bindOp (onInputs x r) f = onInputs x (bindOp r f) := by
  obtain ⟨a | e, t⟩ := r
  · exact hf a t
  · rfl

theorem linkWrite_withInputs (bs : Bytes) (x : List Input) (s : State) :
    linkWrite bs (withInputs x s) = onInputs x (linkWrite bs s) := by
  unfold linkWrite
  change (if s.link.linkOpen = false then _ else if (nextDraw s).ok then _ else _) = _
  split <;> [rfl; split <;> rfl]

theorem linkRead_withInputs (max : Nat) (x : List Input) (s : State) :
    linkRead max (withInputs x s) = onInputs x (linkRead max s) := by
  unfold linkRead
  change (if s.link.linkOpen = false then _ else if (nextDraw s).ok then _ else _) = _
  split <;> [rfl; split <;> rfl]

theorem exchangePacket_withInputs (p : Packet) (x : List Input) (s : State) :
    exchangePacket p (withInputs x s) = onInputs x (exchangePacket p s) := by
  unfold exchangePacket
  rw [linkWrite_withInputs]
  refine bindOp_onInputs x _ _ fun _ t => ?_
  rw [linkRead_withInputs]
  exact bindOp_onInputs x _ _ fun _ _ => rfl

theorem imageWriteAt_withInputs (off : Nat) (bs : Bytes) (x : List Input) (s : State) :
    imageWriteAt off bs (withInputs x s) = onInputs x (imageWriteAt off bs s) := by
  unfold imageWriteAt
  change (if fitsImage s.img.capacity off bs.length then _ else _) = _
  split <;> rfl

theorem imageSetCapacity_withInputs (n : Nat) (x : List Input) (s : State) :
    imageSetCapacity n (withInputs x s) = onInputs x (imageSetCapacity n s) := by
  unfold imageSetCapacity
  change (if capacityOk s.par.imageMax n then _ else _) = _
  split <;> rfl

theorem runUnit_withInputs (u : PlanUnit) (x : List Input) (s : State) :
    runUnit u (withInputs x s) = onInputs x (runUnit u s) := by
  cases u with
  | hotspot a =>
    change bindOp (exchangePacket (mkreq s.par .readSingle a 1) (withInputs x s)) _ = _
    rw [exchangePacket_withInputs]
    exact bindOp_onInputs x _ _ fun _ _ => rfl
  | block a off n =>
    change bindOp (exchangePacket (mkreq s.par .readBlock a n) (withInputs x s)) _ = _
    rw [exchangePacket_withInputs]
    refine bindOp_onInputs x _ _ fun p t => ?_
    rw [imageWriteAt_withInputs]
    exact bindOp_onInputs x _ _ fun _ _ => rfl

theorem advancePlan_withInputs (x : List Input) (s : State) : advancePlan (withInputs x s) = withInputs x (advancePlan s) := by
  rw [advancePlan_eq, advancePlan_eq s, advancePlan_seq, advancePlan_seq]
  rfl

theorem afterUnit_onInputs (x : List Input) (r : Res Unit × State) : afterUnit (onInputs x r) = withInputs x (afterUnit r) := by
  obtain ⟨_ | e, t⟩ := r
  · exact advancePlan_withInputs x t
  · rfl

theorem afterSync_onInputs (x : List Input) (r : Res Unit × State) : afterSync (onInputs x r) = withInputs x (afterSync r) := by
  obtain ⟨_ | e, t⟩ := r <;> rfl

theorem releaseLock_withInputs (x : List Input) (s : State) : releaseLock (withInputs x s) = withInputs x (releaseLock s) := by
  unfold releaseLock
  change (if s.seq.lock then _ else _) = _
  split <;> rfl

theorem prepareDump_withInputs (p : ReadPlan) (x : List Input) (s : State) :
    prepareDump p (withInputs x s) = withInputs x (prepareDump p s) := by
  unfold prepareDump
  change setPlanIdx 0 (imageSetCapacity p.size (withInputs x (setByteCount 0 (takeLock s)))).2 = _
  rw [imageSetCapacity_withInputs]
  rfl

theorem stepDumpBegin_withInputs (x : List Input) (s : State) :
    stepDumpBegin (withInputs x s) = withInputs x (stepDumpBegin s) := by
  rcases hp : readPlan s.seq.cfgStrategy with _ | p
  · rw [stepDumpBegin_unsupported hp, stepDumpBegin_unsupported (by exact hp)]; rfl
  · rw [stepDumpBegin_supported hp, stepDumpBegin_supported (by exact hp), prepareDump_withInputs, ← afterSync_onInputs]
    exact congrArg afterSync (linkWrite_withInputs (syncBytes (prepareDump p s).par) x _)

theorem stepDump_withInputs (x : List Input) (s : State) : stepDump (withInputs x s) = (stepDump s).map (withInputs x) := by
  by_cases h0 : s.seq.countdown = 0
  · rw [stepDump_timeout h0, stepDump_timeout (by exact h0)]; rfl
  · rcases hu : (planUnits s.seq.cfgStrategy)[s.seq.planIdx]? with _ | u
    · have h (t : State) (ht : t.seq = s.seq) : stepDump t = none := by
        unfold stepDump; rw [ht, if_neg h0, hu]
      rw [h s rfl, h (withInputs x s) rfl]; rfl
    · rw [stepDump_unit h0 hu, stepDump_unit (by exact h0) (by exact hu), Option.map_some, ← afterUnit_onInputs]
      exact congrArg (some ∘ afterUnit) (runUnit_withInputs u x (consumeTick s))

/-- One tick neither reads nor writes the schedule. -/
theorem tick_withInputs (x : List Input) (s : State) : tick (withInputs x s) = (tick s).map (withInputs x) := by
  have hs : (withInputs x s).seq.sc = s.seq.sc := rfl
  cases h : s.seq.sc
  · rw [tick_init h, tick_init (hs.trans h)]; rfl
  · rw [tick_ready h, tick_ready (hs.trans h)]; rfl
  · rw [tick_dumpBegin h, tick_dumpBegin (hs.trans h), stepDumpBegin_withInputs]; rfl
  · rw [tick_dump h, tick_dump (hs.trans h), stepDump_withInputs]
  · rw [tick_dumpEnd h, tick_dumpEnd (hs.trans h)]; rfl
  · rw [tick_dumpTimeout h, tick_dumpTimeout (hs.trans h)]; rfl
  · rw [tick_dumpAbort h, tick_dumpAbort (hs.trans h)]; rfl
  · rw [tick_dumpFail h, tick_dumpFail (hs.trans h)]
    simp only [stepDumpFail, leaveFailure, releaseLock_withInputs]; rfl
  · rw [tick_reset h, tick_reset (hs.trans h)]
    simp only [stepReset, releaseLock_withInputs]; rfl

/-- STEP on a state with another schedule. -/
theorem exec_step_withInputs (x : List Input) (s : State) : exec .step (withInputs x s) =
    match exec .step s with
    | .next t => .next (withInputs x t)
    | .fault f => .fault f
    | .refused r => .refused r := by
  change execStep _ = match execStep s with
    | .next t => .next (withInputs x t)
    | .fault f => .fault f
    | .refused r => .refused r
  unfold execStep
  rw [show start (withInputs x s) = withInputs x (start s) from rfl, tick_withInputs]
  cases tick (start s) <;> rfl

end Sys2Proof.Machine
end

