-- ==== Sys2Proof/Tests/Slice0.lean ====
section
/-! SUPPORT. The model's own tests: expected values from spec/95_test_vectors.md and the rules; then a witness for every obligation that has hypotheses. -/

namespace Sys2Proof.Tests

open Sys2Proof Sys2Proof.Machine Sys2Proof.Safety

/-! ## Small states -/

/-- Parameters for the tests: REQ_STATUS 0x00 and TIMEOUT_TICKS 100 as 95_test_vectors.md takes them. The opcode bytes are
picked for the tests only (the spec gives none, R85). -/
def par : Params where
  opc :=
    { readSingle := 0x01
      writeSingle := 0x02
      emulateSingle := 0x03
      readBlock := 0x04
      writeBlock := 0x05
      emulateBlock := 0x06
      setReadDelay := 0x07
      getReadDelay := 0x08
      getInfo := 0x09
      sync := 0x0A
      nop := 0x0B }
  reqStatus := 0x00
  timeoutTicks := 100
  readTimeoutReset := ['t', 'r']
  writeTimeout := ['w']
  artifactName := ['A']
  imageMax := 8192
  uartFraming := ['u']

def s0 : State := State.resetWith par

/-- `s0` in sequencer state `sc`. -/
def inState (sc : SeqState) : State := setSc sc s0

/-- The link open, with the environment's next draws. -/
def opened (ds : List EnvDraw) (s : State) : State :=
  { s with
    link := { s.link with linkOpen := true, cfgPort := some ['p', '0'] }
    env := { script := ds, drawIdx := 0 } }

/-- A dump under way: strategy `k`, cursor `i`, countdown `c`, lock held. -/
def dumping (k : Strategy) (i c : Nat) (ds : List EnvDraw) : State :=
  let s := opened ds (inState .dump)
  { s with seq := { s.seq with lock := true, planIdx := i, countdown := c, cfgStrategy := k } }

/-- `s` with the line `l` scheduled. -/
def scheduled (l : String) (s : State) : State := issue (.line l.toList) s

def okDraw : EnvDraw where
  ok := true
  count := 0
  arrives := []

def failDraw (k : Nat) : EnvDraw where
  ok := false
  count := k
  arrives := []

/-- A READ that takes `k` bytes after `bs` arrived. -/
def readDraw (k : Nat) (bs : Bytes) : EnvDraw where
  ok := true
  count := k
  arrives := bs

/-- The next state, if there is one. -/
def nextOf (o : Host.Outcome State Fault Refusal) : Option State :=
  match o with
  | .next t => some t
  | .fault _ => none
  | .refused _ => none

/-- Result and events of one operation. -/
def outOf (o : Host.Outcome State Fault Refusal) : Option (Option (Res Value) × List Event) :=
  (nextOf o).map fun t => (t.out.result, t.out.events)

def seqOf (o : Host.Outcome State Fault Refusal) : Option Sequencer := (nextOf o).map (·.seq)
def linkOf (o : Host.Outcome State Fault Refusal) : Option Transport := (nextOf o).map (·.link)
def imgOf (o : Host.Outcome State Fault Refusal) : Option Image := (nextOf o).map (·.img)

/-- The refusal, if there is one. -/
def refusalOf (o : Host.Outcome State Fault Refusal) : Option Refusal :=
  match o with
  | .next _ => none
  | .fault _ => none
  | .refused r => some r

def faultOf (o : Host.Outcome State Fault Refusal) : Option Fault :=
  match o with
  | .next _ => none
  | .fault f => some f
  | .refused _ => none

/-- `decode` of a line. -/
def line (l : String) : Decoded := decode par (.line l.toList)

/-! ## Frames of 95_test_vectors.md section 2.1 -/

def c1 : Bytes := [0x04, 0x00, 0x00, 0x01, 0x00, 0x01, 0x00, 0x10, 0x16, 0x00]
def p1 : Packet where
  command := 0x04
  status := 0x00
  requestLength := 0x0100
  replyLength := 0x0100
  address := 0x1000
  checksum := 0xBEEF
  payload := []
def c8 : Bytes := [0x10, 0x20, 0x02, 0x03, 0x04, 0x05, 0x06, 0x07, 0x5C, 0x00, 0x08, 0x09]
def p8 : Packet where
  command := 0x10
  status := 0x20
  requestLength := 0x0302
  replyLength := 0x0504
  address := 0x0706
  checksum := 0x005C
  payload := [0x08, 0x09]
/-- F1 with `r = 01`, and the reply of section 2.2 to it. -/
def f1 : Bytes := [0x01, 0x00, 0x01, 0x00, 0x01, 0x00, 0xF8, 0x1F, 0x1A, 0x01]
def reply1 : Bytes := [0x01, 0x00, 0x01, 0x00, 0x01, 0x00, 0xF8, 0x1F, 0x74, 0x01, 0x5A]
def hotspotRequest : Packet := mkreq par .readSingle 0x1FF8 1
def reply1Packet : Packet where
  command := 0x01
  status := 0x00
  requestLength := 1
  replyLength := 1
  address := 0x1FF8
  checksum := 0x0174
  payload := [0x5A]
/-- A frame of ten zero bytes (C4). -/
def zeros : Bytes := List.replicate 10 0x00

/-! ## WellFormed -/

theorem test_wf_openLink : WellFormed (.openLink ['p', '0'] ['t', '0']) = true := by decide
theorem test_wf_refuses_empty_port : WellFormed (.openLink [] ['t', '0']) = false := by decide
theorem test_wf_refuses_port_with_comma : WellFormed (.openLink ['p', ','] ['t', '0']) = false := by decide
theorem test_wf_refuses_empty_timeout : WellFormed (.openLink ['p', '0'] []) = false := by decide
theorem test_wf_refuses_timeout_with_blank : WellFormed (.openLink ['p', '0'] ['t', ' ', '0']) = false := by decide
theorem test_wf_refuses_timeout_with_comment : WellFormed (.openLink ['p', '0'] ['t', ';']) = false := by decide

/-! ## Decode: wire byte strings, written out from 30_encoding.md R81, R85–R91 and the frames F1, F3, F6, F7 -/

theorem test_decode_readSingle : decode par (.wire f1) = .instr (.readSingle 0x1FF8) := by decide
theorem test_decode_writeSingle : decode par (.wire [0x02, 0, 0, 0, 0, 0, 0, 0, 0x02, 0]) = .instr (.writeSingle 0) := by decide
theorem test_decode_emulateSingle :
    decode par (.wire [0x03, 0, 0, 0, 0, 0, 0x34, 0x12, 0x49, 0]) = .instr (.emulateSingle 0x1234) := by decide
theorem test_decode_readBlock : decode par (.wire c1) = .instr (.readBlock 0x1000 256) := by decide
theorem test_decode_writeBlock : decode par (.wire [0x05, 0, 0, 0, 0, 0, 0, 0, 0x05, 0]) = .instr (.writeBlock 0) := by decide
theorem test_decode_emulateBlock :
    decode par (.wire [0x06, 0, 0, 0, 0, 0, 0, 0, 0x06, 0]) = .instr (.emulateBlock 0) := by decide
theorem test_decode_setReadDelay :
    decode par (.wire [0x07, 0, 0, 0, 0, 0, 0, 0, 0x07, 0]) = .instr (.setReadDelay 0) := by decide
theorem test_decode_getReadDelay :
    decode par (.wire [0x08, 0, 0, 0, 0, 0, 0, 0, 0x08, 0]) = .instr (.getReadDelay 0) := by decide
theorem test_decode_getInfo : decode par (.wire [0x09, 0, 0, 0, 0, 0, 0, 0, 0x09, 0]) = .instr (.getInfo 0) := by decide
theorem test_decode_sync : decode par (.wire [0x0A, 0, 0, 0, 0, 0, 0, 0, 0x0A, 0]) = .instr (.sync 0) := by decide
theorem test_decode_nop : decode par (.wire [0x0B, 0, 0, 0, 0, 0, 0x34, 0x12, 0x51, 0]) = .instr (.nop 0x1234) := by decide
theorem test_decode_syncSeq : decode par (.wire [0x0A, 0x0A, 0x0A, 0x0A, 0x0A, 0x0A, 0x0A, 0x0A, 0x0A, 0x0A, 0x0A, 0x0A,
    0x0A, 0x00]) = .instr .syncSeq := by decide

/-! ## Decode: lines (R94, R95) -/

theorem test_decode_encodePacket : line "ENCODE (04, 00, 0100, 0100, 1000, [])" =
    .instr (.encodePacket { p1 with checksum := 0 }) := by decide
theorem test_decode_decodeFrame : line "DECODE [10 20 02 03 04 05 06 07 5C 00 08 09]" = .instr (.decodeFrame c8) := by decide
theorem test_decode_checksum : line "CK([04 00 00 01])" = .instr (.checksum [0x04, 0x00, 0x00, 0x01]) := by decide
theorem test_decode_mkreq : line "MKREQ(READ_SINGLE, 0x1FF8, 1)" = .instr (.mkreq .readSingle 0x1FF8 1) := by decide
theorem test_decode_write : line "WRITE [01 02 03]" = .instr (.write [0x01, 0x02, 0x03]) := by decide
theorem test_decode_read : line "READ 11" = .instr (.read 11) := by decide
theorem test_decode_synchronize : line "SYNCHRONIZE" = .instr .synchronize := by decide
theorem test_decode_exchange : line "EXCHANGE MKREQ(READ_SINGLE, 0x1FF8, 1)" = .instr (.exchange hotspotRequest) := by decide
theorem test_decode_setCapacity : line "SET_CAPACITY 4096" = .instr (.setCapacity 4096) := by decide
theorem test_decode_writeAt : line "WRITE_AT 0, [AA]" = .instr (.writeAt 0 [0xAA]) := by decide
theorem test_decode_markValid : line "MARK_VALID" = .instr .markValid := by decide
theorem test_decode_execUnit_hotspot : line "EXEC_UNIT Hotspot(0x1FF8)" = .instr (.execUnit (.hotspot 0x1FF8)) := by decide
theorem test_decode_execUnit_block : line "EXEC_UNIT Block(0x1000, 0, 256)" =
    .instr (.execUnit (.block 0x1000 0 256)) := by decide
theorem test_decode_openLink : line "OPEN p0, t0            ; Ok" = .instr (.openLink ['p', '0'] ['t', '0']) := by decide
theorem test_decode_closeLink : line "CLOSE" = .instr .closeLink := by decide
theorem test_decode_selectStrategy_none : line "SELECT_STRATEGY NONE   ; Ok" = .instr (.selectStrategy .none) := by decide
theorem test_decode_selectStrategy_user : line "SELECT_STRATEGY USER" = .instr (.selectStrategy .user) := by decide
theorem test_decode_requestDump : line "REQUEST_DUMP           ; Ok(STARTED)" = .instr .requestDump := by decide
theorem test_decode_step : line "STEP" = .instr .step := by decide
theorem test_decode_abort : line "ABORT" = .instr .abort := by decide
theorem test_decode_getLastArtifact : line "GET_LAST_ARTIFACT" = .instr .getLastArtifact := by decide
theorem test_decode_isValid : line "IS_VALID               ; Ok(true)" = .instr .isValid := by decide
theorem test_decode_snapshot : line "SNAPSHOT" = .instr .snapshot := by decide
theorem test_decode_stepTimes : line "STEP ×19" = .instr (.stepTimes 19) := by decide
theorem test_decode_comment : line "  ; text" = .comment := by decide

/-! ## Decode: what is refused, by name -/

theorem test_reject_unknownMnemonic : line "DUMP" = .reject .unknownMnemonic := by decide
theorem test_reject_badOperands : line "READ eleven" = .reject .badOperands := by decide
theorem test_reject_operandRange : line "MKREQ(READ_BLOCK, 65536, 1)" = .reject .operandRange := by decide
theorem test_reject_wireLength : decode par (.wire [0x04]) = .reject .wireLength := by decide
theorem test_reject_wireCommand : decode par (.wire zeros) = .reject .wireCommand := by decide
theorem test_reject_wireStatus : decode par (.wire [0x02, 1, 0, 0, 0, 0, 0, 0, 0x03, 0]) = .reject .wireStatus := by decide
theorem test_reject_wireLengths : decode par (.wire [0x02, 0, 1, 0, 0, 0, 0, 0, 0x03, 0]) = .reject .wireLengths := by decide
theorem test_reject_wireChecksum : decode par (.wire [0x02, 0, 0, 0, 0, 0, 0, 0, 0x03, 0]) = .reject .wireChecksum := by decide
theorem test_reject_wireSync : decode par (.wire (List.replicate 14 0x0A)) = .reject .wireSync := by decide

/-! ## Table words (log entry 15) -/

theorem test_tableWord_step : decodeTableWord 32 0x50455453 = some .step := by decide
theorem test_tableWord_stepTimes : decodeTableWord 64 0x3597C32050455453 = some (.stepTimes 5) := by decide
theorem test_withFetchWord_step :
    (seqOf (step (State.reset.withFetchWord 32 0x50455453))).map (·.sc) = some .ready := by decide

/-! ## Codec -/

/-- C1's sum. -/
theorem test_checksum : outOf (exec (.checksum [0x04, 0x00, 0x00, 0x01, 0x00, 0x01, 0x00, 0x10]) s0) =
    some (some (.ok (.half 0x0016)), []) := by decide
/-- C9: 258 bytes of 0xFF wrap once. -/
theorem test_checksum_wraps : outOf (exec (.checksum (List.replicate 258 0xFF)) s0) =
    some (some (.ok (.half 0x00FE)), []) := by decide +kernel
/-- C1, with a checksum in the packet that ENCODE ignores. -/
theorem test_encodePacket : outOf (exec (.encodePacket p1) s0) = some (some (.ok (.bytes c1)), []) := by decide
/-- C8: every header offset. -/
theorem test_encodePacket_offsets : outOf (exec (.encodePacket p8) s0) = some (some (.ok (.bytes c8)), []) := by decide
/-- C8 decoded. -/
theorem test_decodeFrame : outOf (exec (.decodeFrame c8) s0) = some (some (.ok (.packet p8)), []) := by decide
/-- C16: bytes 8 and 9 swapped. -/
theorem test_decodeFrame_checksum :
    outOf (exec (.decodeFrame [0x04, 0x00, 0x00, 0x01, 0x00, 0x01, 0x00, 0x10, 0x00, 0x16]) s0) =
      some (some (.err (.protoChecksum 0x0016 0x1600)), []) := by decide
/-- F5's fields. -/
theorem test_mkreq : outOf (exec (.mkreq .readBlock 0xFFFF 0xFFFF) s0) = some (some (.ok (.packet
    { command := 0x04
      status := 0
      requestLength := 0xFFFF
      replyLength := 0xFFFF
      address := 0xFFFF
      checksum := 0
      payload := [] })), []) := by decide

/-! ## Transport (T and X vectors) -/

/-- T1. -/
theorem test_openLink : linkOf (exec (.openLink ['p', '0'] ['t', '0']) { inState .ready with
      link := { s0.link with rx := [0x77] }
      env := { script := [okDraw], drawIdx := 0 } }) =
    some { linkOpen := true, cfgPort := some ['p', '0'], cfgReadTimeout := ['t', '0'], rx := [] } := by decide
/-- T2. -/
theorem test_openLink_fails : (nextOf (exec (.openLink ['p', '1'] ['t', '1']) (opened [failDraw 0] (inState .ready)))).map
      (fun t => (t.out.result, t.link.linkOpen, t.link.cfgPort, t.link.cfgReadTimeout)) =
    some (some (.err (.transportOpen ['p', '1'])), false, some ['p', '0'], ['t', 'r']) := by decide
/-- T4. -/
theorem test_closeLink : (linkOf (exec .closeLink (opened [] (inState .ready)))).map (·.linkOpen) = some false := by decide
/-- CLOSE in DUMP. -/
theorem test_closeLink_busy : outOf (exec .closeLink (opened [] (inState .dump))) =
    some (some (.err .stateBusy), []) := by decide
/-- T5. -/
theorem test_write_closed : outOf (exec (.write [0x01, 0x02, 0x03]) s0) =
    some (some (.err (.transportWrite .closed)), []) := by decide
/-- T7. -/
theorem test_write_prefix : outOf (exec (.write [0x01, 0x02, 0x03]) (opened [failDraw 1] s0)) =
    some (some (.err (.transportWrite .io)), [.tx [0x01]]) := by decide
/-- T9. -/
theorem test_read : (nextOf (exec (.read 11) (opened [readDraw 4 (reply1.map fun b => b + 1)] s0))).map
      (fun t => (t.out.result, t.link.rx.length)) = some (some (.ok (.bytes [0x02, 0x01, 0x02, 0x01])), 7) := by decide
/-- T10: the bytes taken are lost. -/
theorem test_read_fails : (nextOf (exec (.read 11) (opened [{ ok := false, count := 3, arrives := reply1 }] s0))).map
      (fun t => (t.out.result, t.link.rx)) = some (some (.err (.transportRead .io)), reply1.drop 3) := by decide
theorem test_synchronize : outOf (exec .synchronize (opened [okDraw] s0)) =
    some (some (.ok .unit), [.tx [0x0A, 0x0A, 0x0A, 0x0A, 0x0A, 0x0A, 0x0A, 0x0A, 0x0A, 0x0A, 0x0A, 0x0A, 0x0A, 0x00]]) := by decide
theorem test_syncSeq_closed : outOf (exec .syncSeq s0) = some (some (.err (.transportWrite .closed)), []) := by decide
/-- X5: the reply, and one byte more that stays. -/
theorem test_exchange : (nextOf (exec (.exchange hotspotRequest) (opened [okDraw, readDraw 11 (reply1 ++ [0x77])] s0))).map
      (fun t => (t.out.result, t.out.events, t.link.rx)) =
    some (some (.ok (.packet reply1Packet)), [.tx f1], [0x77]) := by decide
/-- X6: only seven bytes in time. -/
theorem test_exchange_incomplete : (nextOf (exec (.exchange hotspotRequest) (opened [okDraw, readDraw 7 reply1] s0))).map
      (fun t => (t.out.result, t.link.rx)) =
    some (some (.err (.protoIncomplete 7 11)), [0x1F, 0x74, 0x01, 0x5A]) := by decide

/-! ## Wire commands -/

/-- X3. -/
theorem test_readSingle : outOf (exec (.readSingle 0x1FF8) (opened [okDraw, readDraw 11 reply1] s0)) =
    some (some (.ok (.packet reply1Packet)), [.tx f1]) := by decide
/-- X1. -/
theorem test_readSingle_noReply : outOf (exec (.readSingle 0x1FF8) (opened [okDraw, readDraw 0 []] s0)) =
    some (some (.err .protoNoReply), [.tx f1]) := by decide
/-- R123: ten bytes and n are expected. -/
theorem test_readBlock : outOf (exec (.readBlock 0x1000 2) (opened [okDraw, readDraw 12 c8] s0)) =
    some (some (.ok (.packet p8)), [.tx [0x04, 0x00, 0x02, 0x00, 0x02, 0x00, 0x00, 0x10, 0x18, 0x00]]) := by decide
/-- F6, and a ten-byte reply. -/
theorem test_writeSingle : outOf (exec (.writeSingle 0) (opened [okDraw, readDraw 11 c1] s0)) =
    some (some (.ok (.packet { p1 with checksum := 0x16 })), [.tx [0x02, 0, 0, 0, 0, 0, 0, 0, 0x02, 0]]) := by decide
theorem test_emulateSingle_tx : (outOf (exec (.emulateSingle 0) (opened [okDraw, readDraw 0 []] s0))).map (·.2) =
    some [.tx [0x03, 0, 0, 0, 0, 0, 0, 0, 0x03, 0]] := by decide
theorem test_writeBlock_tx : (outOf (exec (.writeBlock 0) (opened [okDraw, readDraw 0 []] s0))).map (·.2) =
    some [.tx [0x05, 0, 0, 0, 0, 0, 0, 0, 0x05, 0]] := by decide
theorem test_emulateBlock_tx : (outOf (exec (.emulateBlock 0) (opened [okDraw, readDraw 0 []] s0))).map (·.2) =
    some [.tx [0x06, 0, 0, 0, 0, 0, 0, 0, 0x06, 0]] := by decide
theorem test_setReadDelay_tx : (outOf (exec (.setReadDelay 0) (opened [okDraw, readDraw 0 []] s0))).map (·.2) =
    some [.tx [0x07, 0, 0, 0, 0, 0, 0, 0, 0x07, 0]] := by decide
theorem test_getReadDelay_tx : (outOf (exec (.getReadDelay 0) (opened [okDraw, readDraw 0 []] s0))).map (·.2) =
    some [.tx [0x08, 0, 0, 0, 0, 0, 0, 0, 0x08, 0]] := by decide
theorem test_getInfo_tx : (outOf (exec (.getInfo 0) (opened [okDraw, readDraw 0 []] s0))).map (·.2) =
    some [.tx [0x09, 0, 0, 0, 0, 0, 0, 0, 0x09, 0]] := by decide
theorem test_sync_tx : (outOf (exec (.sync 0) (opened [okDraw, readDraw 0 []] s0))).map (·.2) =
    some [.tx [0x0A, 0, 0, 0, 0, 0, 0, 0, 0x0A, 0]] := by decide
/-- F7. -/
theorem test_nop_tx : (outOf (exec (.nop 0x1234) (opened [okDraw, readDraw 0 []] s0))).map (·.2) =
    some [.tx [0x0B, 0, 0, 0, 0, 0, 0x34, 0x12, 0x51, 0]] := by decide

/-! ## Image (M vectors) -/

/-- M3. -/
theorem test_setCapacity_one : (imgOf (exec (.setCapacity 1) s0)).map (fun m => (m.capacity, m.bytes)) =
    some (1, [0x00]) := by decide
/-- M6. -/
theorem test_setCapacity_max : outOf (exec (.setCapacity 16384) s0) =
    some (some (.err (.boundsCapacity 16384)), []) := by decide
/-- M8: up to the capacity exactly. -/
theorem test_writeAt : (imgOf (exec (.writeAt 4094 [0x01, 0x02]) (imageMarkValid s0))).map
      (fun m => (m.data.read 4093, m.data.read 4094, m.data.read 4095, m.valid)) =
    some (0x00, 0x01, 0x02, false) := by decide
/-- M7. -/
theorem test_writeAt_bounds : outOf (exec (.writeAt 4090 (List.replicate 10 0x01)) s0) =
    some (some (.err (.boundsWrite 4090 10)), []) := by decide
theorem test_markValid : (imgOf (exec .markValid s0)).map (·.valid) = some true := by decide
/-- Right after reset. -/
theorem test_isValid : outOf (exec .isValid s0) = some (some (.ok (.flag false)), []) := by decide
/-- A two-byte image. -/
theorem test_snapshot : outOf (exec .snapshot { s0 with img := { capacity := 2, data := [(1, 0xAA)], valid := true } }) =
    some (some (.ok (.bytes [0x00, 0xAA])), []) := by decide
/-- M15. -/
theorem test_snapshot_invalid : outOf (exec .snapshot s0) = some (some (.err .stateNotValid), []) := by decide

/-! ## Sequencer (S, K vectors) -/

/-- The byte of a hotspot is discarded (R206). -/
theorem test_execUnit_hotspot : (nextOf (exec (.execUnit (.hotspot 0x1FF8)) (opened [okDraw, readDraw 11 reply1] s0))).map
      (fun t => (t.out.result, t.seq.byteCount, t.img.data)) = some (some (.ok .unit), 0, []) := by decide
/-- A block of two bytes at offset 4094. -/
theorem test_execUnit_block : (nextOf (exec (.execUnit (.block 0x1000 4094 2)) (opened [okDraw, readDraw 12 c8] s0))).map
      (fun t => (t.out.result, t.seq.byteCount, t.img.data)) =
    some (some (.ok .unit), 2, [(4094, 0x08), (4095, 0x09)]) := by decide
/-- S12. -/
theorem test_selectStrategy : (seqOf (exec (.selectStrategy .user) s0)).map (·.cfgStrategy) = some .user := by decide
/-- S6. -/
theorem test_selectStrategy_busy : outOf (exec (.selectStrategy .f8) (inState .dumpBegin)) =
    some (some (.err .stateBusy), []) := by decide
/-- S1. -/
theorem test_requestDump_init : outOf (exec .requestDump s0) = some (some (.err .stateBusy), []) := by decide
/-- S4. -/
theorem test_requestDump : (nextOf (exec .requestDump (inState .ready))).map (fun t => (t.out.result, t.seq.sc)) =
    some (some (.ok .started), .dumpBegin) := by decide
/-- K6: no unit at countdown 0. -/
theorem test_step_timeout : (nextOf (exec .step (dumping .none 0 0 []))).map
      (fun t => (t.seq.sc, t.seq.planIdx, t.out.events)) = some (.dumpTimeout, 0, []) := by decide
/-- P6: no reply, and the tick is consumed. -/
theorem test_step_noReply : (nextOf (exec .step (dumping .f8 0 100 [okDraw, readDraw 0 []]))).map
      (fun t => (t.seq.sc, t.seq.countdown, t.seq.planIdx, t.out.events)) =
    some (.dumpFail, 99, 0, [.tx f1, .log (.error .protoNoReply)]) := by decide
/-- S8. -/
theorem test_abort : (nextOf (exec .abort (inState .dumpBegin))).map (fun t => (t.out.result, t.seq.sc)) =
    some (some (.ok .accepted), .dumpAbort) := by decide
/-- S7. -/
theorem test_abort_ignored : (nextOf (exec .abort (inState .ready))).map (fun t => (t.out.result, t.seq.sc)) =
    some (some (.ok .ignored), .ready) := by decide
/-- S11. -/
theorem test_getLastArtifact_none : outOf (exec .getLastArtifact s0) = some (some (.ok .noneYet), []) := by decide
theorem test_getLastArtifact : outOf (exec .getLastArtifact
      { s0 with seq := { s0.seq with lastArtifact := some (['A'], [0xFF]) } }) =
    some (some (.ok (.name ['A'])), []) := by decide
/-- R95. -/
theorem test_stepTimes : (nextOf (exec (.stepTimes 2) (scheduled "ABORT" s0))).map (·.inputs) =
    some [.host (.line "STEP".toList), .host (.line "STEP".toList), .host (.line "ABORT".toList)] := by decide

/-! ## The step -/

theorem test_step_idle : faultOf (step s0) = some .hostIdle := by decide
theorem test_step_refused : refusalOf (step (scheduled "DUMP" s0)) = some (.undecodable .unknownMnemonic) := by decide
theorem test_step_planCursorOutside : faultOf (exec .step (dumping .none 16 1 [])) = some .planCursorOutside := by decide

/-! ## Witnesses: for every obligation with hypotheses, a state and operands that meet them, each clause on its own -/

theorem witness_KnownEncodingsDecode :
    par.opc.Distinct ∧ par.opc.readBlock = 0x04 ∧ par.opc.readSingle = 0x01 ∧ par.reqStatus = 0x00 := by decide

theorem witness_DecodeOfEncodeIsIdentity :
    par.opc.Distinct ∧ WellFormed (.openLink ['p', '0'] ['t', '0']) = true ∧ WellFormed (.readBlock 0xFFFF 0xFFFF) = true := by
  decide

theorem witness_DecodedInstructionsAreWellFormed :
    decode par (.line "OPEN p0, t0".toList) = .instr (.openLink ['p', '0'] ['t', '0']) := by decide

theorem witness_WireStringsDecodeToOneInstruction : decode par (.wire c1) = .instr (.readBlock 0x1000 256) := by decide

theorem witness_StepExecutesDecodedInstruction :
    (scheduled "STEP" s0).inputs = .host (.line "STEP".toList) :: [] ∧
      decode (scheduled "STEP" s0).par (.line "STEP".toList) = .instr .step := by decide

def arriving (s : State) : State := { s with inputs := [.arrive [0x77]] }

theorem witness_StepOnEntriesThatAreNoOperation :
    s0.inputs = [] ∧
    ((arriving (opened [] s0)).inputs = .arrive [0x77] :: [] ∧ (arriving (opened [] s0)).link.linkOpen = true) ∧
    ((arriving s0).inputs = .arrive [0x77] :: [] ∧ (arriving s0).link.linkOpen = false) ∧
    ((scheduled "; text" s0).inputs = .host (.line "; text".toList) :: [] ∧
      decode (scheduled "; text" s0).par (.line "; text".toList) = .comment) ∧
    ((scheduled "DUMP" s0).inputs = .host (.line "DUMP".toList) :: [] ∧
      decode (scheduled "DUMP" s0).par (.line "DUMP".toList) = .reject .unknownMnemonic) := by decide

/-- R110's third clause takes a permutation. -/
theorem witness_ChecksumIsTheByteSum : ([0x08, 0x09] : Bytes).Perm [0x09, 0x08] := by decide

/-- Positions 0, 9 and 11 of C8's twelve. -/
theorem witness_SingleByteChangeIsDetected :
    (0 < (encodeFrame p8).length ∧ (0x11 : Byte) ≠ byteAt (encodeFrame p8) 0) ∧
    (9 < (encodeFrame p8).length ∧ (0x01 : Byte) ≠ byteAt (encodeFrame p8) 9) ∧
    (11 < (encodeFrame p8).length ∧ (0x0A : Byte) ≠ byteAt (encodeFrame p8) 11) := by decide

/-- C18. -/
theorem witness_SumPreservingChangesAreAccepted :
    decodePacket c8 = .ok p8 ∧
    10 ≤ ([0x10, 0x20, 0x02, 0x03, 0x04, 0x05, 0x06, 0x07, 0x5C, 0x00, 0x09, 0x08] : Bytes).length ∧
    (([0x10, 0x20, 0x02, 0x03, 0x04, 0x05, 0x06, 0x07, 0x09, 0x08] : Bytes)).Perm (c8.take 8 ++ c8.drop 10) := by decide

theorem witness_OpenOutcomes :
    ((inState .dump).seq.sc ≠ .init ∧ (inState .dump).seq.sc ≠ .ready) ∧
    ((inState .ready).seq.sc = .ready ∧ (draw (opened [okDraw] (inState .ready)) 0).ok = true) ∧
    (s0.seq.sc = .init ∧ (draw (opened [failDraw 0] s0) 0).ok = false) := by decide

theorem witness_CloseOutcomes :
    ((inState .reset).seq.sc ≠ .init ∧ (inState .reset).seq.sc ≠ .ready) ∧
    ((inState .ready).seq.sc = .ready ∧ (inState .ready).link.linkOpen = false) := by decide

theorem witness_WriteOutcomes :
    s0.link.linkOpen = false ∧
    ((opened [okDraw] s0).link.linkOpen = true ∧ (draw (opened [okDraw] s0) 0).ok = true) ∧
    ((opened [failDraw 1] s0).link.linkOpen = true ∧ (draw (opened [failDraw 1] s0) 0).ok = false) := by decide

theorem witness_ReadOutcomes : s0.link.linkOpen = false ∧ (opened [readDraw 4 reply1] s0).link.linkOpen = true := by decide

theorem witness_SynchronizeSendsTheSequence :
    s0.link.linkOpen = false ∧
    ((opened [okDraw] s0).link.linkOpen = true ∧ (draw (opened [okDraw] s0) 0).ok = true) ∧
    ((opened [failDraw 14] s0).link.linkOpen = true ∧ (draw (opened [failDraw 14] s0) 0).ok = false) := by decide

theorem witness_ExchangeOutcomes :
    s0.link.linkOpen = false ∧
    ((opened [failDraw 0] s0).link.linkOpen = true ∧ (draw (opened [failDraw 0] s0) 0).ok = false) ∧
    ((opened [okDraw, readDraw 11 reply1] s0).link.linkOpen = true ∧
      (draw (opened [okDraw, readDraw 11 reply1] s0) 0).ok = true) := by decide

theorem witness_WireCommandsExchangeTheirRequests :
    (opened [okDraw] s0).link.linkOpen = true ∧ (draw (opened [okDraw] s0) 0).ok = true := by decide

theorem witness_ReplyHeaderIsNotCompared :
    hotspotRequest.replyLength = ({ hotspotRequest with command := 0x99, address := 0 } : Packet).replyLength ∧
    ∃ t, exec (.exchange hotspotRequest) (opened [okDraw, readDraw 11 reply1] s0) = .next t := ⟨rfl, _, rfl⟩

/-- READ_SINGLE with one byte, READ_BLOCK with two and with none, NOP with none. -/
theorem witness_WireCommandsReturnAFramedReply :
    let s := opened [okDraw, readDraw 11 (reply1 ++ [0x77])] s0
    let b := opened [okDraw, readDraw 12 c8] s0
    let z := opened [okDraw, readDraw 10 zeros] s0
    (s.link.linkOpen = true ∧ (draw s 0).ok = true ∧ (draw s 1).ok = true ∧
      s.link.rx ++ (draw s 1).arrives = reply1 ++ [0x77] ∧ reply1.length = 10 + 1 ∧ reply1.length ≤ (draw s 1).count ∧
      ((reply1.take 8 ++ reply1.drop 10).map BitVec.toNat).sum % 65536 =
        (byteAt reply1 8).toNat + 256 * (byteAt reply1 9).toNat) ∧
    (b.link.rx ++ (draw b 1).arrives = c8 ++ [] ∧ c8.length = 10 + (2 : Half).toNat ∧ c8.length ≤ (draw b 1).count ∧
      ((c8.take 8 ++ c8.drop 10).map BitVec.toNat).sum % 65536 = (byteAt c8 8).toNat + 256 * (byteAt c8 9).toNat) ∧
    (z.link.rx ++ (draw z 1).arrives = zeros ++ [] ∧ zeros.length = 10 + (0 : Half).toNat ∧
      zeros.length ≤ (draw z 1).count ∧
      ((zeros.take 8 ++ zeros.drop 10).map BitVec.toNat).sum % 65536 =
        (byteAt zeros 8).toNat + 256 * (byteAt zeros 9).toNat) := by decide

/-- Capacities 1, IMAGE_MAX, 0 and the next power of two. -/
theorem witness_SetCapacityOutcomes :
    ((∃ k, 1 = 2 ^ k) ∧ 1 ≤ s0.par.imageMax) ∧ ((∃ k, 8192 = 2 ^ k) ∧ 8192 ≤ s0.par.imageMax) ∧
    (¬ ∃ k, 0 = 2 ^ k) ∧ s0.par.imageMax < 16384 :=
  ⟨⟨⟨0, rfl⟩, by decide⟩, ⟨⟨13, rfl⟩, by decide⟩, fun ⟨_, h⟩ => absurd h.symm (by simp), by decide⟩

/-- Up to the capacity exactly, and one byte past it. -/
theorem witness_WriteAtOutcomes :
    s0.img.data.wf = true ∧ 4094 + ([0x01, 0x02] : Bytes).length ≤ s0.img.capacity ∧
    4096 + ([] : Bytes).length ≤ s0.img.capacity ∧ s0.img.capacity < 4095 + ([0x01, 0x02] : Bytes).length := by decide

theorem witness_ValidityOperations : (imageMarkValid s0).img.valid = true ∧ s0.img.valid = false := by decide

theorem witness_ReadPlansUnitByUnit :
    (Strategy.f6 ≠ .none ∧ Strategy.f6 ≠ .f8) ∧ (0 < 16 ∧ 15 < 16) ∧
    (readPlan .none = some planNone ∧ 0 < planNone.size ∧ 4095 < planNone.size) ∧
    (readPlan .f8 = some planF8 ∧ 4096 < planF8.size ∧ 8191 < planF8.size) := by decide

/-- A hotspot's eleven bytes, and a block of two at the image's end and one past it. -/
theorem witness_UnitsCompleteOnAFramedReply :
    let s := opened [okDraw, readDraw 11 reply1] s0
    let b := opened [okDraw, readDraw 12 c8] s0
    (s.link.linkOpen = true ∧ (draw s 0).ok = true ∧ (draw s 1).ok = true ∧
      s.link.rx ++ (draw s 1).arrives = reply1 ++ [] ∧ reply1.length ≤ (draw s 1).count ∧
      ((reply1.take 8 ++ reply1.drop 10).map BitVec.toNat).sum % 65536 =
        (byteAt reply1 8).toNat + 256 * (byteAt reply1 9).toNat ∧ reply1.length = 11) ∧
    (b.link.linkOpen = true ∧ (draw b 0).ok = true ∧ (draw b 1).ok = true ∧
      b.link.rx ++ (draw b 1).arrives = c8 ++ [] ∧ c8.length ≤ (draw b 1).count ∧
      ((c8.take 8 ++ c8.drop 10).map BitVec.toNat).sum % 65536 = (byteAt c8 8).toNat + 256 * (byteAt c8 9).toNat ∧
      c8.length = 10 + (2 : Half).toNat ∧ 4094 + (2 : Half).toNat ≤ b.img.capacity ∧ b.img.data.wf = true) := by decide

theorem witness_SelectStrategyOutcomes :
    s0.seq.sc = .init ∧ (inState .ready).seq.sc = .ready ∧
    ((inState .dumpBegin).seq.sc ≠ .init ∧ (inState .dumpBegin).seq.sc ≠ .ready) := by decide

theorem witness_RequestAndAbortOutcomes :
    (inState .ready).seq.sc = .ready ∧ s0.seq.sc ≠ .ready ∧ (inState .dumpBegin).seq.sc = .dumpBegin ∧
    (inState .dump).seq.sc = .dump ∧
    ((inState .dumpEnd).seq.sc ≠ .dumpBegin ∧ (inState .dumpEnd).seq.sc ≠ .dump) := by decide

theorem witness_GetLastArtifactOutcomes :
    ({ s0.seq with lastArtifact := some (['A'], [0xFF]) } : Sequencer).lastArtifact = some (['A'], [0xFF]) ∧
    s0.seq.lastArtifact = none := by decide

theorem witness_StepInIdleStates : s0.seq.sc = .init ∧ (inState .ready).seq.sc = .ready := by decide

/-- DUMP_BEGIN with a strategy, a link and draws. -/
def beginning (k : Strategy) (s : State) : State := { s with seq := { s.seq with sc := .dumpBegin, cfgStrategy := k } }

theorem par_wf : par.Wf := by decide

theorem witness_StepInDumpBegin :
    ((beginning .f6 s0).seq.sc = .dumpBegin ∧ (beginning .f6 s0).seq.cfgStrategy ≠ .none ∧
      (beginning .f6 s0).seq.cfgStrategy ≠ .f8) ∧ (beginning .f6 s0).par.Wf ∧
    ((beginning .none s0).seq.cfgStrategy = .none ∧ (beginning .none s0).link.linkOpen = false) ∧
    ((beginning .f8 (opened [failDraw 3] s0)).seq.cfgStrategy = .f8 ∧
      (beginning .f8 (opened [failDraw 3] s0)).link.linkOpen = true ∧
      (draw (beginning .f8 (opened [failDraw 3] s0)) 0).ok = false) ∧
    ((beginning .f8 (opened [okDraw] s0)).link.linkOpen = true ∧
      (draw (beginning .f8 (opened [okDraw] s0)) 0).ok = true) := by decide

/-- Countdown 0, and the last units of both plans at countdown 1. -/
theorem witness_StepInDump :
    ((dumping .none 0 0 []).seq.sc = .dump ∧ (dumping .none 0 0 []).seq.countdown = 0) ∧
    (0 < (dumping .none 15 1 []).seq.countdown ∧
      (planUnits (dumping .none 15 1 []).seq.cfgStrategy)[(dumping .none 15 1 []).seq.planIdx]? =
        some (.block 0x1F00 3840 256)) ∧
    (0 < (dumping .f8 33 1 []).seq.countdown ∧
      (planUnits (dumping .f8 33 1 []).seq.cfgStrategy)[(dumping .f8 33 1 []).seq.planIdx]? =
        some (.block 0x1F00 7936 256)) := by decide

/-- A NONE dump at its end. -/
def ending : State :=
  let s := inState .dumpEnd
  { s with seq := { s.seq with byteCount := 4096, lock := true } }

theorem witness_StepInDumpEnd : ending.seq.sc = .dumpEnd ∧ HostInv ending :=
  ⟨rfl, by decide, by decide, fun _ => ⟨planNone, rfl, rfl, rfl⟩⟩

theorem witness_StepOnTheWayBack :
    (inState .dumpTimeout).seq.sc = .dumpTimeout ∧ (inState .dumpAbort).seq.sc = .dumpAbort ∧
    (inState .dumpFail).seq.sc = .dumpFail ∧ (inState .reset).seq.sc = .reset := by decide

theorem inv_s0 : Inv s0 where
  params := par_wf
  capacityPower := by decide
  capacityMax := by decide
  dataForm := by decide
  dataBelow := by decide
  lockFree := by decide
  lockHeld := by decide
  cursor := by decide
  countdown := by decide

/-- The invariant in the middle of a dump. -/
theorem inv_dumping : Inv (dumping .none 15 1 [okDraw, readDraw 0 []]) where
  params := par_wf
  capacityPower := by decide
  capacityMax := by decide
  dataForm := by decide
  dataBelow := by decide
  lockFree := by decide
  lockHeld := by decide
  cursor := by decide
  countdown := by decide

theorem inv_beginning : Inv (beginning .f8 (opened [okDraw] s0)) where
  params := par_wf
  capacityPower := by decide
  capacityMax := by decide
  dataForm := by decide
  dataBelow := by decide
  lockFree := by decide
  lockHeld := by decide
  cursor := by decide
  countdown := by decide

theorem witness_StepAlwaysCompletes : Inv s0 ∧ Inv (dumping .none 15 1 [okDraw, readDraw 0 []]) := ⟨inv_s0, inv_dumping⟩

theorem witness_TransitionsFollowTheTable :
    (∃ t, exec .closeLink s0 = .next t) ∧ (∃ t, exec .requestDump (inState .ready) = .next t) ∧
    (∃ t, exec .abort (inState .dump) = .next t) ∧
    (∃ t, exec .step (beginning .f8 (opened [okDraw] s0)) = .next t ∧ t.seq.sc = .dump) ∧
    (∃ t, exec .step (dumping .none 0 1 [okDraw, readDraw 0 []]) = .next t ∧ t.seq.sc = .dumpFail) ∧
    (∃ t, exec .step (dumping .none 0 0 []) = .next t ∧ t.seq.sc = .dumpTimeout) :=
  ⟨⟨_, rfl⟩, ⟨_, rfl⟩, ⟨_, rfl⟩, ⟨_, rfl, rfl⟩, ⟨_, rfl, rfl⟩, ⟨_, rfl, rfl⟩⟩

/-- A hotspot unit that answers Ok: the plan goes on, or its ticks are over; and one that gets no reply on the last tick. -/
theorem witness_TransitionsFollowTheTable_unit :
    (∃ t, exec .step (dumping .f8 0 2 [okDraw, readDraw 11 reply1]) = .next t ∧ t.seq.sc = .dump) ∧
    (∃ t, exec .step (dumping .f8 0 1 [okDraw, readDraw 11 reply1]) = .next t ∧ t.seq.sc = .dumpTimeout) ∧
    unitAnswers (dumping .f8 0 1 [okDraw, readDraw 11 reply1]) (.ok .unit) ∧
    0 + 1 ≠ (planUnits .f8).length ∧
    unitAnswers (dumping .f8 0 1 [okDraw, readDraw 0 []]) (.err .protoNoReply) :=
  ⟨⟨_, rfl, rfl⟩, ⟨_, rfl, rfl⟩, ⟨_, _, rfl, rfl, rfl⟩, by decide, ⟨_, _, rfl, rfl, rfl⟩⟩

theorem witness_InvariantKeptByEveryStep : Inv (scheduled "STEP" s0) ∧ ∃ t, step (scheduled "STEP" s0) = .next t :=
  ⟨⟨par_wf, by decide, by decide, by decide, by decide, by decide, by decide, by decide, by decide⟩, ⟨_, rfl⟩⟩

/-- A dump at its first unit, the next entry a STEP. -/
theorem witness_DumpInvariantKeptByHostSteps :
    let s := scheduled "STEP" (dumping .none 0 100 [okDraw, readDraw 0 []])
    Inv s ∧ HostInv s ∧ hostOnly s ∧ ∃ t, step s = .next t := by
  refine ⟨⟨par_wf, by decide, by decide, by decide, by decide, by decide, by decide, by decide, by decide⟩,
    ⟨by decide, fun _ => ⟨planNone, rfl, rfl, rfl⟩, by decide⟩, fun i h => ?_, ⟨_, rfl⟩⟩
  have hf : fetch (scheduled "STEP" (dumping .none 0 100 [okDraw, readDraw 0 []])) = .instr .step := by decide
  rw [hf] at h
  obtain rfl := Fetched.instr.inj h
  rfl

theorem witness_OnlyCompletionMakesTheImageValid :
    (∃ t, exec .markValid s0 = .next t ∧ s0.img.valid = false ∧ t.img.valid = true) ∧
    (∃ t, exec .step (inState .dumpEnd) = .next t ∧ (inState .dumpEnd).img.valid = false ∧ t.img.valid = true) ∧
    (∃ t, exec (.writeAt 0 [0xAA]) s0 = .next t ∧ t.img.data ≠ s0.img.data) ∧
    (∃ t, exec (.setCapacity 1) s0 = .next t ∧ t.img.capacity ≠ s0.img.capacity) :=
  ⟨⟨_, rfl, rfl, rfl⟩, ⟨_, rfl, rfl, rfl⟩, ⟨_, rfl, by decide⟩, ⟨_, rfl, by decide⟩⟩

theorem witness_LockChangesAreNotifiedOnce :
    Inv (beginning .f8 (opened [okDraw] s0)) ∧ (∀ n, Instr.step ≠ .stepTimes n) ∧
    ∃ t, exec .step (beginning .f8 (opened [okDraw] s0)) = .next t := ⟨inv_beginning, by simp, ⟨_, rfl⟩⟩

theorem witness_BusyStatesKeepConfiguration :
    (inState .dumpEnd).seq.sc ≠ .init ∧ (inState .dumpEnd).seq.sc ≠ .ready ∧
    ∃ t, exec (.selectStrategy .f8) (inState .dumpEnd) = .next t := ⟨by decide, by decide, _, rfl⟩

theorem witness_RejectedOperationsChangeNothing :
    (∃ t, exec .closeLink (inState .dump) = .next t ∧ t.out.result = some (.err .stateBusy)) ∧
    (∃ t, exec (.setCapacity 0) s0 = .next t ∧ t.out.result = some (.err (.boundsCapacity 0))) ∧
    (∃ t, exec (.openLink ['p', '1'] ['t', '1']) (opened [failDraw 0] s0) = .next t ∧
      t.out.result = some (.err (.transportOpen ['p', '1']))) :=
  ⟨⟨_, rfl, rfl⟩, ⟨_, rfl, rfl⟩, ⟨_, rfl, rfl⟩⟩

theorem witness_SequencerRegistersHaveTheirWriters :
    (∃ t, exec .step (beginning .f8 (opened [okDraw] s0)) = .next t ∧ t.seq.countdown ≠ s0.seq.countdown ∧
      t.seq.lock ≠ s0.seq.lock) ∧
    (∃ t, exec .step (dumping .f8 0 2 [okDraw, readDraw 11 reply1]) = .next t ∧ t.seq.planIdx ≠ 0) ∧
    (∃ t, exec (.execUnit (.block 0x1000 4094 2)) (opened [okDraw, readDraw 12 c8] s0) = .next t ∧ t.seq.byteCount ≠ 0) ∧
    (∃ t, exec (.selectStrategy .f8) s0 = .next t ∧ t.seq.cfgStrategy ≠ s0.seq.cfgStrategy) ∧
    (∃ t, exec .step (inState .dumpEnd) = .next t ∧ t.seq.lastArtifact ≠ none) :=
  ⟨⟨_, rfl, by decide, by decide⟩, ⟨_, rfl, by decide⟩, ⟨_, rfl, by decide⟩, ⟨_, rfl, by decide⟩, ⟨_, rfl, by decide⟩⟩

theorem witness_ParametersNeverChange : ∃ t, step (scheduled "STEP" s0) = .next t := ⟨_, rfl⟩

/-- Each clause: an OPEN in INIT and one in DUMP, a READ on an open and a closed link, a hotspot's EXCHANGE with and without
ticks, and a CLOSE. -/
theorem witness_ReceiveBufferLosesOnlyItsFront :
    (∃ t, exec (.openLink ['p'] ['t']) (opened [okDraw] s0) = .next t) ∧
    (∃ t, exec (.openLink ['p'] ['t']) (inState .dump) = .next t) ∧
    (∃ t, exec (.read 11) (opened [readDraw 4 reply1] s0) = .next t) ∧ (∃ t, exec (.read 11) s0 = .next t) ∧
    ((∃ t, exec .step (dumping .f8 0 1 [okDraw, readDraw 11 reply1]) = .next t) ∧
      exchangeAsks .step (dumping .f8 0 1 [okDraw, readDraw 11 reply1]) = some 11) ∧
    ((∃ t, exec .step (dumping .f8 0 0 []) = .next t) ∧ exchangeAsks .step (dumping .f8 0 0 []) = none) ∧
    ((∃ t, exec .closeLink s0 = .next t) ∧ exchangeAsks .closeLink s0 = none ∧ (∀ max, Instr.closeLink ≠ .read max) ∧
      ∀ port tm, Instr.closeLink ≠ .openLink port tm) :=
  ⟨⟨_, rfl⟩, ⟨_, rfl⟩, ⟨_, rfl⟩, ⟨_, rfl⟩, ⟨⟨_, rfl⟩, rfl⟩, ⟨⟨_, rfl⟩, rfl⟩, ⟨⟨_, rfl⟩, rfl, by simp, by simp⟩⟩

/-- R284: a CLOSE leaves stale bytes in `rx`, and a READ of 11 that the drawn count cuts to 4 leaves the other seven. -/
theorem test_rx_keeps_stale_bytes :
    (linkOf (exec .closeLink (setRx [0xAA] s0))).map (·.rx) = some [0xAA] ∧
    (linkOf (exec (.read 11) (opened [readDraw 4 reply1] s0))).map (·.rx) = some [0x01, 0x00, 0xF8, 0x1F, 0x74, 0x01, 0x5A] := by
  decide

theorem witness_StepsTransmitOnlyReadsAndSync :
    (∃ t, exec .step (beginning .f8 (opened [okDraw] s0)) = .next t ∧ .tx (syncBytes par) ∈ t.out.events) ∧
    (∃ t, exec .step (dumping .f8 0 2 [okDraw, readDraw 11 reply1]) = .next t ∧ .tx f1 ∈ t.out.events) :=
  ⟨⟨_, rfl, by decide⟩, ⟨_, rfl, by decide⟩⟩

theorem witness_FailureEntryIsPrecise :
    (dumping .f8 0 1 [okDraw, readDraw 0 []]).seq.sc = .dump ∧
    ∃ t, exec .step (dumping .f8 0 1 [okDraw, readDraw 0 []]) = .next t ∧ t.seq.sc = .dumpFail := ⟨rfl, _, rfl, rfl⟩

theorem witness_EveryDumpReturnsToReady :
    Inv (beginning .f8 (opened [okDraw] s0)) ∧ (beginning .f8 (opened [okDraw] s0)).seq.sc = .dumpBegin :=
  ⟨inv_beginning, rfl⟩

theorem witness_AbortReturnsInThreeSteps :
    ((inState .dumpBegin).seq.sc = .dumpBegin ∧ ∃ t, exec .abort (inState .dumpBegin) = .next t) ∧
    ((dumping .none 5 95 []).seq.sc = .dump ∧ ∃ t, exec .abort (dumping .none 5 95 []) = .next t) :=
  ⟨⟨rfl, _, rfl⟩, ⟨rfl, _, rfl⟩⟩

/-- The reply of 95_test_vectors.md's FW_ALLFF to a block request. -/
def allFf : Packet where
  command := 0x04
  status := 0x00
  requestLength := 256
  replyLength := 256
  address := 0x1000
  checksum := 0
  payload := List.replicate 256 0xFF

/-- A NONE dump at its first unit, every request answered. -/
def cooperating : State :=
  dumping .none 0 16 (List.replicate 16 [okDraw, readDraw 266 (encodeFrame allFf)]).flatten

theorem inv_cooperating : Inv cooperating where
  params := par_wf
  capacityPower := by decide
  capacityMax := by decide
  dataForm := by decide
  dataBelow := by decide
  lockFree := by decide
  lockHeld := by decide
  cursor := by decide
  countdown := by decide

theorem cooperating_draw (i : Nat) (h : i < 16) :
    draw cooperating (0 + 2 * i) = okDraw ∧ draw cooperating (0 + 2 * i + 1) = readDraw 266 (encodeFrame allFf) := by
  interval_cases i <;> exact ⟨rfl, rfl⟩

theorem witness_NoneDumpCollectsThePayloads :
    Inv cooperating ∧ cooperating.seq.sc = .dump ∧ cooperating.seq.cfgStrategy = .none ∧ cooperating.seq.planIdx = 0 ∧
    cooperating.img.capacity = 4096 ∧ 16 ≤ cooperating.seq.countdown ∧ cooperating.link.linkOpen = true ∧
    cooperating.link.rx = [] ∧
    (∀ i, i < 16 → (List.replicate 256 (0xFF : Byte)).length = 256 ∧
      (draw cooperating (cooperating.env.drawIdx + 2 * i)).ok = true ∧
      (draw cooperating (cooperating.env.drawIdx + 2 * i + 1)).ok = true ∧
      266 ≤ (draw cooperating (cooperating.env.drawIdx + 2 * i + 1)).count ∧
      ∃ q : Packet, q.payload = List.replicate 256 0xFF ∧
        (draw cooperating (cooperating.env.drawIdx + 2 * i + 1)).arrives = encodeFrame q) := by
  refine ⟨inv_cooperating, rfl, rfl, rfl, rfl, by decide, rfl, rfl, fun i h => ?_⟩
  have hd := cooperating_draw i h
  rw [show cooperating.env.drawIdx = 0 from rfl, hd.1, hd.2]
  exact ⟨List.length_replicate, rfl, rfl, Nat.le_refl 266, allFf, rfl, rfl⟩

end Sys2Proof.Tests
end

section
/-! SUPPORT. Taking the schedule's next entry (00_scope.md R5, R6; log entry 1), and what every step keeps of the
parameters and of the environment (00_scope.md R7, 41_transport.md R159; log entries 4, 6). -/

namespace Sys2Proof.Machine

variable {s t u : State}

/-! ## The next entry -/

theorem consumeInput_of_inputs {x : Input} {rest : List Input} (h : s.inputs = x :: rest) :
    consumeInput s = { s with inputs := rest } := by
  unfold consumeInput; rw [h]; rfl

theorem fetch_of_decode_instr {e : Encoded} {rest : List Input} {i : Instr} (h : s.inputs = .host e :: rest)
    (hd : decode s.par e = .instr i) : fetch s = .instr i := by
  simp only [fetch, h, hd]

theorem step_of_fetch_instr {i : Instr} (h : fetch s = .instr i) : step s = exec i (consumeInput s) := by
  unfold step; rw [h]

/-- Settles O5: the first entry is fetched as the instruction it decodes to, and consumed. -/
theorem stepExecutesDecodedInstruction : Obligations.StepExecutesDecodedInstruction := by
  intro s e rest i hin hd
  rw [step_of_fetch_instr (fetch_of_decode_instr hin hd), consumeInput_of_inputs hin]

/-- Everything a step that goes on can do: an arrival, a comment, or an instruction. -/
theorem step_cases (h : step s = .next t) :
    (∃ bs, fetch s = .arrival bs ∧ t = arriveBytes bs (consumeInput s)) ∨
    (fetch s = .comment ∧ t = consumeInput s) ∨
    ∃ i, fetch s = .instr i ∧ exec i (consumeInput s) = .next t := by
  unfold step at h
  cases hf : fetch s <;> rw [hf] at h
  case idle | reject => cases h
  case arrival bs => exact .inl ⟨bs, rfl, (Host.Outcome.next.inj h).symm⟩
  case comment => exact .inr (.inl ⟨rfl, (Host.Outcome.next.inj h).symm⟩)
  case instr i => exact .inr (.inr ⟨i, rfl, h⟩)

/-! ## Parameters, script and draws -/

/-- `t` has the parameters and the script of `s`, and no draw of `s` is taken back. -/
structure DrawsForward (s t : State) : Prop where
  par : t.par = s.par
  script : t.env.script = s.env.script
  drawIdx : s.env.drawIdx ≤ t.env.drawIdx

theorem DrawsForward.of_eq (hp : t.par = s.par) (he : t.env = s.env) : DrawsForward s t :=
  ⟨hp, congrArg Env.script he, (congrArg Env.drawIdx he).ge⟩

/-- One draw made (41_transport.md R159). -/
theorem DrawsForward.of_drawn (hp : t.par = s.par) (he : t.env = (drawn s).env) : DrawsForward s t :=
  ⟨hp, by rw [he, drawn_env], by rw [he, drawn_env]; exact Nat.le_succ _⟩

theorem DrawsForward.refl (s : State) : DrawsForward s s := .of_eq rfl rfl

theorem DrawsForward.trans (h : DrawsForward s t) (h' : DrawsForward t u) : DrawsForward s u :=
  ⟨h'.par.trans h.par, h'.script.trans h.script, h.drawIdx.trans h'.drawIdx⟩

/-! ### The shared operations that draw -/

theorem linkWrite_drawsForward (bs : Bytes) (s : State) : DrawsForward s (linkWrite bs s).2 := by
  unfold linkWrite
  split
  · exact .refl s
  · split
    · exact .of_drawn rfl rfl
    · exact .of_drawn rfl rfl

theorem linkRead_drawsForward (max : Nat) (s : State) : DrawsForward s (linkRead max s).2 := by
  unfold linkRead
  split
  · exact .refl s
  · split
    · exact .of_drawn rfl rfl
    · exact .of_drawn rfl rfl

theorem openPort_drawsForward (port : PortId) (timeout : ReadTimeout) (s : State) :
    DrawsForward s (openPort port timeout s).2 := by
  unfold openPort
  split
  · exact .refl s
  · split
    · exact .of_drawn rfl rfl
    · exact .of_drawn rfl rfl

theorem exchangePacket_drawsForward (p : Packet) (s : State) : DrawsForward s (exchangePacket p s).2 :=
  exchangePacket_keeps (DrawsForward s) p s (linkWrite_drawsForward _ s) fun n t h => h.trans (linkRead_drawsForward n t)

theorem runUnit_drawsForward (u : PlanUnit) (s : State) : DrawsForward s (runUnit u s).2 :=
  runUnit_keeps (DrawsForward s) u s (fun p => exchangePacket_drawsForward p s)
    (fun _ _ _ h => h.trans (.of_eq (by simp) (by simp))) fun _ _ h => h.trans (.of_eq rfl rfl)

/-! ### STEP, every instruction, every step -/

/-- DUMP_BEGIN's preparation makes no draw, and the SYNCHRONIZE after it its own (43_sequencer.md R211). -/
theorem synchronizeLink_prepareDump_drawsForward (p : ReadPlan) (s : State) :
    DrawsForward s (synchronizeLink (prepareDump p s)).2 :=
  have hprep : DrawsForward s (prepareDump p s) := .of_eq (by simp) (by simp)
  hprep.trans (linkWrite_drawsForward _ _)

/-- Consuming a tick makes no draw, and the unit after it its own (43_sequencer.md R212). -/
theorem runUnit_consumeTick_drawsForward (u : PlanUnit) (s : State) : DrawsForward s (runUnit u (consumeTick s)).2 :=
  have htick : DrawsForward s (consumeTick s) := .of_eq rfl rfl
  htick.trans (runUnit_drawsForward u _)

/-- Only DUMP_BEGIN and DUMP draw, each in the one operation its step makes. -/
theorem tick_drawsForward (h : tick s = some t) : DrawsForward s t := by
  rcases tick_cases h with ⟨-, rfl⟩ | ⟨-, rfl⟩ | ⟨-, -, rfl⟩ | ⟨-, p, -, hsync⟩ | ⟨-, -, rfl⟩ | ⟨-, -, v, -, hunit⟩ |
    ⟨-, rfl⟩ | ⟨-, rfl⟩ | ⟨-, rfl⟩ | ⟨-, rfl⟩ | ⟨-, rfl⟩
  · exact .of_eq rfl rfl
  · exact .refl t
  · exact .of_eq rfl rfl
  · have hdraw := synchronizeLink_prepareDump_drawsForward p s
    rcases hsync with ⟨-, rfl⟩ | ⟨e, -, rfl⟩
    · exact hdraw.trans (.of_eq rfl rfl)
    · exact hdraw.trans (.of_eq rfl rfl)
  · exact .of_eq rfl rfl
  · have hdraw := runUnit_consumeTick_drawsForward v s
    rcases hunit with ⟨-, rfl⟩ | ⟨e, -, rfl⟩
    · exact hdraw.trans (.of_eq (by simp) (by simp))
    · exact hdraw.trans (.of_eq rfl rfl)
  · exact .of_eq rfl rfl
  · exact .of_eq rfl rfl
  · exact .of_eq rfl rfl
  · exact .of_eq (by simp) (by simp)
  · exact .of_eq (by simp) (by simp)

theorem effect_drawsForward {i : Instr} (h : effect i s = some u) : DrawsForward s u := by
  have hstart : DrawsForward s (start s) := .of_eq rfl rfl
  cases i
  case step => exact hstart.trans (tick_drawsForward h)
  all_goals obtain rfl := Option.some.inj h
  case readSingle | writeSingle | emulateSingle | readBlock | writeBlock | emulateBlock | setReadDelay | getReadDelay
    | getInfo | sync | nop | exchange => exact hstart.trans (exchangePacket_drawsForward _ _)
  case syncSeq | synchronize | write => exact hstart.trans (linkWrite_drawsForward _ _)
  case read => exact hstart.trans (linkRead_drawsForward _ _)
  case execUnit => exact hstart.trans (runUnit_drawsForward _ _)
  case openLink => exact hstart.trans (openPort_drawsForward _ _ _)
  case selectStrategy | requestDump | abort => split <;> exact .of_eq rfl rfl
  case setCapacity | writeAt | closeLink => exact .of_eq (by simp) (by simp)
  case encodePacket | decodeFrame | checksum | mkreq | markValid | getLastArtifact | isValid | snapshot | stepTimes =>
    exact .of_eq rfl rfl

theorem exec_drawsForward {i : Instr} (h : exec i s = .next t) : DrawsForward s t := by
  obtain ⟨u, hu, -, -, -, hpar, henv, -, -⟩ := exec_next h
  exact (effect_drawsForward hu).trans (.of_eq hpar henv)

theorem step_drawsForward (h : step s = .next t) : DrawsForward s t := by
  have htake : DrawsForward s (consumeInput s) := .of_eq rfl rfl
  rcases step_cases h with ⟨bs, -, rfl⟩ | ⟨-, rfl⟩ | ⟨i, -, hi⟩
  · exact htake.trans (.of_eq (by simp) (by simp))
  · exact htake
  · exact htake.trans (exec_drawsForward hi)

/-- Settles O53: every shared operation only counts draws up, so every instruction and every step does. -/
theorem parametersNeverChange : Obligations.ParametersNeverChange := by
  intro s t h
  obtain ⟨hpar, hscript, hidx⟩ := step_drawsForward h
  exact ⟨hpar, hscript, hidx⟩

end Sys2Proof.Machine
end

section
/-! SUPPORT. What each instruction writes in the sequencer and in the image (10_state.md R22–R28, R33–R35), said once for
the statements over all of them. -/

namespace Sys2Proof.Machine

variable {s t u : State} {i : Instr}

theorem SeqState.isIdle_iff {sc : SeqState} : sc.isIdle = true ↔ sc = .init ∨ sc = .ready := by simp [SeqState.isIdle]

theorem SeqState.isAbortable_iff {sc : SeqState} : sc.isAbortable = true ↔ sc = .dumpBegin ∨ sc = .dump := by
  simp [SeqState.isAbortable]

/-- EXEC_UNIT writes the byte count and no other sequencer register (43_sequencer.md R206). -/
theorem runUnit_seq (v : PlanUnit) (s : State) :
    (runUnit v s).2.seq = { s.seq with byteCount := (runUnit v s).2.seq.byteCount } :=
  runUnit_keeps (fun t => t.seq = { s.seq with byteCount := t.seq.byteCount }) v s (fun p => by simp)
    (fun off bs t h => by simpa using h) fun n t h => by rw [h]

/-- The sequencer's writers among the instructions: STEP, EXEC_UNIT, and three operations that write one register each. -/
theorem effect_seq_cases (h : effect i s = some u) :
    (i ≠ .step ∧ u.seq = s.seq) ∨
    (∃ k, i = .selectStrategy k ∧ s.seq.sc.isIdle = true ∧ u.seq = { s.seq with cfgStrategy := k }) ∨
    (i = .requestDump ∧ s.seq.sc = .ready ∧ u.seq = { s.seq with sc := .dumpBegin }) ∨
    (i = .abort ∧ s.seq.sc.isAbortable = true ∧ u.seq = { s.seq with sc := .dumpAbort }) ∨
    (∃ v n, i = .execUnit v ∧ u.seq = { s.seq with byteCount := n }) ∨
    (i = .step ∧ tick (start s) = some u) := by
  cases i
  case step => exact .inr (.inr (.inr (.inr (.inr ⟨rfl, h⟩))))
  all_goals obtain rfl := Option.some.inj h
  case selectStrategy k =>
    by_cases hidle : s.seq.sc.isIdle = true
    · exact .inr (.inl ⟨k, rfl, hidle, by simp [hidle]⟩)
    · exact .inl ⟨by simp, by simp [hidle]⟩
  case requestDump =>
    by_cases hready : s.seq.sc = .ready
    · exact .inr (.inr (.inl ⟨rfl, hready, by simp [hready]⟩))
    · exact .inl ⟨by simp, by simp [hready]⟩
  case abort =>
    by_cases hab : s.seq.sc.isAbortable = true
    · exact .inr (.inr (.inr (.inl ⟨rfl, hab, by simp [hab]⟩)))
    · exact .inl ⟨by simp, by simp [hab]⟩
  case execUnit v => exact .inr (.inr (.inr (.inr (.inl ⟨v, _, rfl, runUnit_seq v (start s)⟩))))
  all_goals exact .inl ⟨by simp, by simp⟩

/-- The image's writers among the instructions: STEP, EXEC_UNIT and the operations of 42_image.md. -/
theorem effect_img_cases (h : effect i s = some u) :
    u.img = s.img ∨
    (∃ n, i = .setCapacity n ∧ u = (imageSetCapacity n (start s)).2) ∨
    (∃ off bs, i = .writeAt off bs ∧ u = (imageWriteAt off bs (start s)).2) ∨
    (i = .markValid ∧ u = imageMarkValid (start s)) ∨
    (∃ v, i = .execUnit v ∧ u = (runUnit v (start s)).2) ∨
    (i = .step ∧ tick (start s) = some u) := by
  cases i
  case step => exact .inr (.inr (.inr (.inr (.inr ⟨rfl, h⟩))))
  all_goals obtain rfl := Option.some.inj h
  case setCapacity n => exact .inr (.inl ⟨n, rfl, rfl⟩)
  case writeAt off bs => exact .inr (.inr (.inl ⟨off, bs, rfl, rfl⟩))
  case markValid => exact .inr (.inr (.inr (.inl ⟨rfl, rfl⟩)))
  case execUnit v => exact .inr (.inr (.inr (.inr (.inl ⟨v, rfl, rfl⟩))))
  case selectStrategy | requestDump | abort => exact .inl (by simp only [start_img]; split <;> rfl)
  all_goals exact .inl (by simp)

/-- No host operation but STEP writes the image (00_scope.md R5, 42_image.md R180). -/
theorem effect_img_of_isHostOp (h : effect i s = some u) (hh : Safety.isHostOp i = true) (hstep : i ≠ .step) :
    u.img = s.img := by
  rcases effect_img_cases h with himg | ⟨n, rfl, -⟩ | ⟨off, bs, rfl, -⟩ | ⟨rfl, -⟩ | ⟨v, rfl, -⟩ | ⟨rfl, -⟩
  · exact himg
  all_goals simp [Safety.isHostOp] at hh hstep

/-- The image DUMP_BEGIN leaves (43_sequencer.md R211). -/
theorem prepareDump_img {p : ReadPlan} (hw : s.par.Wf) (hp : readPlan s.seq.cfgStrategy = some p) :
    (prepareDump p s).img = { capacity := p.size, data := [], valid := false } := by rw [prepareDump_eq hw hp]

/-- A unit that succeeded counts its bytes, keeps the capacity and makes no image valid (43_sequencer.md R206). -/
theorem runUnit_ok {v : PlanUnit} (h : (runUnit v s).1 = .ok ()) :
    (runUnit v s).2.seq = { s.seq with byteCount := s.seq.byteCount + Safety.unitBytes v } ∧
    (s.img.valid = false → (runUnit v s).2.img.valid = false) := by
  cases v with
  | hotspot a =>
    obtain ⟨hseq, himg⟩ := runUnit_hotspot a s
    exact ⟨hseq, fun hv => by rw [himg, hv]⟩
  | block a off n =>
    obtain ⟨bs, -, -, himg, hseq⟩ := runUnit_block_ok (Prod.ext h rfl)
    exact ⟨hseq, fun _ => by rw [himg]⟩

end Sys2Proof.Machine
end

section
/-! SUPPORT. The invariant of 10_state.md R37, in its three independent parts: the parameters, which nothing writes, the
image's form and the sequencer's. -/

namespace Sys2Proof.Safety

open Machine

variable {s t u : State} {i : Instr} {par : Params}

/-- What `Inv` says of the image (R33, R34, R37 (3)). -/
structure ImageForm (par : Params) (img : Image) : Prop where
  capacityPower : isPowerOfTwo img.capacity
  capacityMax : img.capacity ≤ par.imageMax
  dataForm : img.data.wf = true
  dataBelow : img.data.below img.capacity = true

/-- What `Inv` says of the sequencer (R37 (1), (2), (5), (6)). -/
structure SequencerForm (par : Params) (q : Sequencer) : Prop where
  lockFree : q.sc = .init ∨ q.sc = .ready ∨ q.sc = .dumpBegin → q.lock = false
  lockHeld : q.sc = .dump ∨ q.sc = .dumpEnd ∨ q.sc = .dumpTimeout → q.lock = true
  cursor : q.sc = .dump → q.planIdx < (planUnits q.cfgStrategy).length
  countdown : q.countdown ≤ par.timeoutTicks

theorem inv_iff : Inv s ↔ s.par.Wf ∧ ImageForm s.par s.img ∧ SequencerForm s.par s.seq := by
  constructor
  · rintro ⟨hpar, hpow, hmax, hform, hbelow, hfree, hheld, hcursor, hcount⟩
    exact ⟨hpar, ⟨hpow, hmax, hform, hbelow⟩, ⟨hfree, hheld, hcursor, hcount⟩⟩
  · rintro ⟨hpar, ⟨hpow, hmax, hform, hbelow⟩, ⟨hfree, hheld, hcursor, hcount⟩⟩
    exact ⟨hpar, hpow, hmax, hform, hbelow, hfree, hheld, hcursor, hcount⟩

/-! ## The image -/

/-- A fresh image of a capacity that SET_CAPACITY accepts (42_image.md R181). -/
theorem ImageForm.of_capacityOk {n : Nat} (h : capacityOk par.imageMax n = true) :
    ImageForm par { capacity := n, data := [], valid := false } := by
  simp only [capacityOk, Bool.and_eq_true, decide_eq_true_eq] at h
  exact ⟨h.1, h.2, rfl, rfl⟩

/-- The form does not speak of validity (42_image.md R183). -/
theorem ImageForm.setValid {img : Image} (h : ImageForm par img) (b : Bool) : ImageForm par { img with valid := b } :=
  ⟨h.capacityPower, h.capacityMax, h.dataForm, h.dataBelow⟩

theorem imageSetCapacity_imageForm (n : Nat) (h : ImageForm s.par s.img) :
    ImageForm s.par (imageSetCapacity n s).2.img := by
  cases hok : capacityOk s.par.imageMax n
  · rw [imageSetCapacity_bounds hok]; exact h
  · rw [imageSetCapacity_ok hok]; exact .of_capacityOk hok

theorem imageWriteAt_imageForm (off : Nat) (bs : Bytes) (h : ImageForm par s.img) :
    ImageForm par (imageWriteAt off bs s).2.img := by
  by_cases hfit : off + bs.length ≤ s.img.capacity
  · rw [imageWriteAt_ok hfit]
    exact ⟨h.capacityPower, h.capacityMax, Memory.wf_writeBytes off bs h.dataForm,
      Memory.below_writeBytes off bs h.dataBelow hfit⟩
  · rw [imageWriteAt_bounds (by omega)]; exact h

theorem runUnit_imageForm (v : PlanUnit) (h : ImageForm par s.img) : ImageForm par (runUnit v s).2.img :=
  runUnit_keeps (fun t => ImageForm par t.img) v s (fun p => by simpa using h)
    (fun off bs _ ht => imageWriteAt_imageForm off bs ht) fun _ _ ht => ht

/-- Only DUMP_BEGIN, DUMP and DUMP_END write the image: a fresh one, a unit's bytes, validity. -/
theorem tick_imageForm (hw : s.par.Wf) (hi : ImageForm s.par s.img) (h : tick s = some t) : ImageForm s.par t.img := by
  rcases tick_cases h with ⟨-, rfl⟩ | ⟨-, rfl⟩ | ⟨-, -, rfl⟩ | ⟨-, p, hp, hsync⟩ | ⟨-, -, rfl⟩ | ⟨-, -, v, -, hunit⟩ |
    ⟨-, rfl⟩ | ⟨-, rfl⟩ | ⟨-, rfl⟩ | ⟨-, rfl⟩ | ⟨-, rfl⟩
  iterate 3 exact hi
  · have hfresh : ImageForm s.par (prepareDump p s).img := by
      rw [prepareDump_img hw hp]; exact .of_capacityOk (capacityOk_plan hw hp)
    rcases hsync with ⟨-, rfl⟩ | ⟨e, -, rfl⟩ <;> simpa using hfresh
  · exact hi
  · have hdone : ImageForm s.par (runUnit v (consumeTick s)).2.img := runUnit_imageForm v hi
    rcases hunit with ⟨-, rfl⟩ | ⟨e, -, rfl⟩ <;> simpa using hdone
  · exact hi.setValid true
  · exact hi
  · exact hi
  · simpa using hi
  · simpa using hi

theorem effect_imageForm (hw : s.par.Wf) (hi : ImageForm s.par s.img) (h : effect i s = some u) :
    ImageForm s.par u.img := by
  rcases effect_img_cases h with himg | ⟨n, -, rfl⟩ | ⟨off, bs, -, rfl⟩ | ⟨-, rfl⟩ | ⟨v, -, rfl⟩ | ⟨-, htick⟩
  · rw [himg]; exact hi
  · exact imageSetCapacity_imageForm (s := start s) n hi
  · exact imageWriteAt_imageForm off bs hi
  · exact hi.setValid true
  · exact runUnit_imageForm v hi
  · exact tick_imageForm (s := start s) hw hi htick

/-! ## The sequencer -/

/-- On the failure path and in RESET only the countdown is bound. -/
theorem SequencerForm.of_wayBack {q : Sequencer} (hsc : q.sc = .dumpAbort ∨ q.sc = .dumpFail ∨ q.sc = .reset)
    (hc : q.countdown ≤ par.timeoutTicks) : SequencerForm par q := by
  refine ⟨?_, ?_, ?_, hc⟩ <;> rcases hsc with h | h | h <;> simp [h]

/-- A state in which the lock is free. -/
theorem SequencerForm.of_lockFree {q : Sequencer} (hsc : q.sc = .init ∨ q.sc = .ready ∨ q.sc = .dumpBegin)
    (hl : q.lock = false) (hc : q.countdown ≤ par.timeoutTicks) : SequencerForm par q := by
  refine ⟨fun _ => hl, ?_, ?_, hc⟩ <;> rcases hsc with h | h | h <;> simp [h]

/-- No plan is empty (43_sequencer.md R203, R204). -/
theorem planUnits_length_pos {k : Strategy} {p : ReadPlan} (h : readPlan k = some p) : 0 < (planUnits k).length := by
  cases k <;> simp only [readPlan, reduceCtorEq] at h
  case none | f8 => decide

/-- After a unit that succeeded, the cursor is inside the plan or the plan is over (43_sequencer.md R212). -/
theorem advancePlan_sequencerForm (h : SequencerForm par s.seq) (hsc : s.seq.sc = .dump) :
    SequencerForm par (advancePlan s).seq := by
  have hlock : s.seq.lock = true := h.lockHeld (.inl hsc)
  have hcursor := h.cursor hsc
  rw [advancePlan_seq]
  refine ⟨?_, fun _ => hlock, ?_, h.countdown⟩
  · intro hidle
    simp only [hsc] at hidle
    split at hidle
    · simp at hidle
    · split at hidle <;> simp at hidle
  · intro hdump
    simp only at hdump ⊢
    split at hdump
    · simp at hdump
    · omega

theorem tick_sequencerForm (hq : SequencerForm s.par s.seq) (h : tick s = some t) : SequencerForm s.par t.seq := by
  have hc := hq.countdown
  rcases tick_cases h with ⟨hs, rfl⟩ | ⟨-, rfl⟩ | ⟨-, -, rfl⟩ | ⟨-, p, hp, hsync⟩ | ⟨hs, -, rfl⟩ | ⟨hs, -, v, -, hunit⟩ |
    ⟨-, rfl⟩ | ⟨-, rfl⟩ | ⟨-, rfl⟩ | ⟨-, rfl⟩ | ⟨-, rfl⟩
  · exact .of_lockFree (.inr (.inl rfl)) (hq.lockFree (.inl hs)) hc
  · exact hq
  · exact .of_wayBack (.inr (.inl rfl)) hc
  · rcases hsync with ⟨-, rfl⟩ | ⟨e, -, rfl⟩
    · have hpos := planUnits_length_pos hp
      constructor <;> simp [hpos]
    · exact .of_wayBack (.inr (.inl rfl)) (by simp)
  · have hlock := hq.lockHeld (.inl hs)
    constructor <;> simp [hlock, hc]
  · have hticked : SequencerForm s.par (runUnit v (consumeTick s)).2.seq := by
      rw [runUnit_seq]
      exact ⟨hq.lockFree, hq.lockHeld, hq.cursor, (Nat.sub_le _ _).trans hc⟩
    rcases hunit with ⟨-, rfl⟩ | ⟨e, -, rfl⟩
    · exact advancePlan_sequencerForm hticked (by simpa using hs)
    · exact .of_wayBack (.inr (.inl rfl)) hticked.countdown
  · exact .of_wayBack (.inr (.inr rfl)) hc
  · exact .of_wayBack (.inr (.inl rfl)) hc
  · exact .of_wayBack (.inr (.inl rfl)) hc
  · exact .of_wayBack (by simp) (by simpa using hc)
  · exact .of_lockFree (by simp) (by simp) (by simpa using hc)

theorem effect_sequencerForm (hq : SequencerForm s.par s.seq) (h : effect i s = some u) : SequencerForm s.par u.seq := by
  rcases effect_seq_cases h with ⟨-, hseq⟩ | ⟨k, -, hidle, hseq⟩ | ⟨-, hready, hseq⟩ | ⟨-, -, hseq⟩ | ⟨v, n, -, hseq⟩ | ⟨-, htick⟩
  · rw [hseq]; exact hq
  · have hsc := SeqState.isIdle_iff.1 hidle
    rw [hseq]
    exact .of_lockFree (hsc.imp_right .inl) (hq.lockFree (hsc.imp_right .inl)) hq.countdown
  · rw [hseq]
    exact .of_lockFree (.inr (.inr rfl)) (hq.lockFree (.inr (.inl hready))) hq.countdown
  · rw [hseq]; exact .of_wayBack (.inl rfl) hq.countdown
  · rw [hseq]; exact ⟨hq.lockFree, hq.lockHeld, hq.cursor, hq.countdown⟩
  · exact tick_sequencerForm (s := start s) hq htick

/-! ## Every step -/

theorem Inv.of_frame (h : Inv s) (hpar : t.par = s.par) (himg : t.img = s.img) (hseq : t.seq = s.seq) : Inv t := by
  rw [inv_iff] at h ⊢
  rwa [hpar, himg, hseq]

theorem exec_inv (hs : Inv s) (h : exec i s = .next t) : Inv t := by
  obtain ⟨hw, hi, hq⟩ := inv_iff.1 hs
  obtain ⟨u, hu, hseq, -, himg, -, -, -, -⟩ := exec_next h
  rw [inv_iff, (exec_drawsForward h).par, himg, hseq]
  exact ⟨hw, effect_imageForm hw hi hu, effect_sequencerForm hq hu⟩

/-- Settles O46: arrivals and comments touch none of it, and every instruction keeps each of the three parts. -/
theorem invariantKeptByEveryStep : Obligations.InvariantKeptByEveryStep := by
  intro s t hs h
  have htake : Inv (consumeInput s) := hs.of_frame rfl rfl rfl
  rcases step_cases h with ⟨bs, -, rfl⟩ | ⟨-, rfl⟩ | ⟨i, -, hi⟩
  · exact htake.of_frame (by simp) (by simp) (by simp)
  · exact htake
  · exact exec_inv htake hi

end Sys2Proof.Safety
end

section
/-! SUPPORT. R37 (4): what host operations keep of a dump's image and byte count (log entry 16). -/

namespace Sys2Proof.Safety

open Machine

variable {s t u : State} {i : Instr}

/-- The plans' blocks fill their images (43_sequencer.md R203, R204). -/
theorem readPlan_unitBytes_sum {k : Strategy} {p : ReadPlan} (h : readPlan k = some p) :
    (p.units.map unitBytes).sum = p.size := by
  cases k <;> simp only [readPlan, Option.some.injEq, reduceCtorEq] at h <;> subst h <;> decide

theorem planUnits_of_readPlan {k : Strategy} {p : ReadPlan} (h : readPlan k = some p) : planUnits k = p.units := by
  unfold planUnits; rw [h]

/-- One unit more is its bytes more. -/
theorem unitBytes_sum_take_succ {us : List PlanUnit} {n : Nat} {v : PlanUnit} (h : us[n]? = some v) :
    ((us.take (n + 1)).map unitBytes).sum = ((us.take n).map unitBytes).sum + unitBytes v := by
  simp [List.take_add_one, h]

theorem HostInv.of_frame (h : HostInv s) (himg : t.img = s.img) (hseq : t.seq = s.seq) : HostInv t := by
  obtain ⟨hinvalid, hprogress, hcomplete⟩ := h
  constructor <;> rwa [himg, hseq]

/-- Outside a dump it says nothing. -/
theorem HostInv.of_noDump (hsc : t.seq.sc = .init ∨ t.seq.sc = .ready ∨ t.seq.sc = .dumpBegin ∨ t.seq.sc = .reset) :
    HostInv t := by
  constructor <;> rcases hsc with h | h | h | h <;> simp [h]

/-- Where a plan was left unfinished it asks that the image is invalid, on the failure path only while the lock is held. -/
theorem HostInv.of_leftPlan (hsc : t.seq.sc = .dumpTimeout ∨ t.seq.sc = .dumpAbort ∨ t.seq.sc = .dumpFail)
    (hv : t.seq.sc = .dumpTimeout ∨ t.seq.lock = true → t.img.valid = false) : HostInv t := by
  refine ⟨?_, ?_, ?_⟩
  · rcases hsc with h | h | h <;> simpa [h] using hv
  all_goals rcases hsc with h | h | h <;> simp [h]

/-- A unit that succeeded brings the byte count to the next unit's start, and to the plan's size after the last
(43_sequencer.md R212). -/
theorem advancePlan_hostInv {p : ReadPlan} {v : PlanUnit} (hsc : s.seq.sc = .dump)
    (hp : readPlan s.seq.cfgStrategy = some p) (hv : p.units[s.seq.planIdx]? = some v) (hcap : s.img.capacity = p.size)
    (hvalid : s.img.valid = false)
    (hbytes : s.seq.byteCount = ((p.units.take s.seq.planIdx).map unitBytes).sum + unitBytes v) :
    HostInv (advancePlan s) := by
  have hsum : s.seq.byteCount = ((p.units.take (s.seq.planIdx + 1)).map unitBytes).sum := by
    rw [hbytes, unitBytes_sum_take_succ hv]
  refine ⟨fun _ => by simpa using hvalid, ?_, ?_⟩
  · intro _
    exact ⟨p, by simpa [advancePlan_seq] using hp, by simpa using hcap, by simpa [advancePlan_seq] using hsum⟩
  · intro hend
    have hlast : s.seq.planIdx + 1 = p.units.length := by
      simp only [advancePlan_seq, planUnits_of_readPlan hp, hsc] at hend
      by_contra hne
      rw [if_neg hne] at hend
      split at hend <;> simp at hend
    rw [hlast, List.take_length, readPlan_unitBytes_sum hp] at hsum
    exact ⟨p, by simpa [advancePlan_seq] using hp, by simpa using hcap, by simpa [advancePlan_seq] using hsum⟩

theorem stepDumpBegin_hostInv (hs : Inv s) (hsc : s.seq.sc = .dumpBegin) : HostInv (stepDumpBegin s) := by
  rcases stepDumpBegin_cases s with ⟨-, e⟩ | ⟨p, hp, e⟩ <;> rw [e]
  · have hlock := hs.lockFree (.inr (.inr hsc))
    exact .of_leftPlan (.inr (.inr rfl)) (by simp [hlock])
  · have himg := prepareDump_img hs.params hp
    rcases afterSync_cases (synchronizeLink (prepareDump p s)) with ⟨-, e⟩ | ⟨k, -, e⟩ <;> rw [e]
    · refine ⟨fun _ => by simp [himg], fun _ => ⟨p, by simpa using hp, by simp [himg], by simp⟩, fun hend => ?_⟩
      simp at hend
    · exact .of_leftPlan (.inr (.inr rfl)) fun _ => by simp [himg]

theorem stepDump_hostInv (hh : HostInv s) (hsc : s.seq.sc = .dump) (h : stepDump s = some t) : HostInv t := by
  have hvalid : s.img.valid = false := hh.invalid (.inl hsc)
  rcases stepDump_cases h with ⟨-, rfl⟩ | ⟨v, -, hv, rfl⟩
  · exact .of_leftPlan (.inl rfl) fun _ => hvalid
  · rcases afterUnit_cases (runUnit v (consumeTick s)) with ⟨hok, e⟩ | ⟨k, herr, e⟩ <;> rw [e]
    · obtain ⟨p, hp, hcap, hbytes⟩ := hh.progress hsc
      obtain ⟨hseq, hkeep⟩ := runUnit_ok hok
      rw [planUnits_of_readPlan hp] at hv
      apply advancePlan_hostInv (p := p) (v := v)
      · simpa using hsc
      · simpa using hp
      · simpa using hv
      · simpa using hcap
      · exact hkeep hvalid
      · rw [hseq]; simpa using hbytes
    · obtain ⟨-, himg⟩ := runUnit_err (Prod.ext herr rfl)
      exact .of_leftPlan (.inr (.inr rfl)) fun _ => by rw [enterFailure_img, himg]; exact hvalid

theorem tick_hostInv (hs : Inv s) (hh : HostInv s) (h : tick s = some t) : HostInv t := by
  cases hsc : s.seq.sc
  case dump => exact stepDump_hostInv hh hsc (tick_dump hsc ▸ h)
  case init => obtain rfl := Option.some.inj (tick_init hsc ▸ h); exact .of_noDump (.inr (.inl rfl))
  case ready => obtain rfl := Option.some.inj (tick_ready hsc ▸ h); exact hh
  case dumpBegin => obtain rfl := Option.some.inj (tick_dumpBegin hsc ▸ h); exact stepDumpBegin_hostInv hs hsc
  case dumpEnd => obtain rfl := Option.some.inj (tick_dumpEnd hsc ▸ h); exact .of_noDump (.inr (.inr (.inr rfl)))
  case dumpTimeout =>
    obtain rfl := Option.some.inj (tick_dumpTimeout hsc ▸ h)
    exact .of_leftPlan (.inr (.inr rfl)) fun _ => hh.invalid (.inr (.inr (.inl hsc)))
  case dumpAbort =>
    obtain rfl := Option.some.inj (tick_dumpAbort hsc ▸ h)
    refine .of_leftPlan (.inr (.inr rfl)) ?_
    rintro (hto | hlock)
    · cases hto
    · exact hh.invalid (.inr (.inr (.inr ⟨.inl hsc, hlock⟩)))
  case dumpFail => obtain rfl := Option.some.inj (tick_dumpFail hsc ▸ h); exact .of_noDump (by simp [stepDumpFail])
  case reset => obtain rfl := Option.some.inj (tick_reset hsc ▸ h); exact .of_noDump (by simp [stepReset])

/-- An ABORT before the first unit finds the lock free, a later one an invalid image. -/
theorem abort_hostInv (hs : Inv s) (hh : HostInv s) (hab : s.seq.sc.isAbortable = true) (himg : t.img = s.img)
    (hseq : t.seq = { s.seq with sc := .dumpAbort }) : HostInv t := by
  refine .of_leftPlan (.inr (.inl (by rw [hseq]))) ?_
  rw [hseq, himg]
  rintro (hto | hlock)
  · cases hto
  · rcases SeqState.isAbortable_iff.1 hab with hsc | hsc
    · exact absurd hlock (by simp [hs.lockFree (.inr (.inr hsc))])
    · exact hh.invalid (.inl hsc)

theorem exec_hostInv (hs : Inv s) (hh : HostInv s) (hop : isHostOp i = true) (h : exec i s = .next t) : HostInv t := by
  obtain ⟨u, hu, hseq, -, himg, -, -, -, -⟩ := exec_next h
  refine HostInv.of_frame (s := u) ?_ himg hseq
  have hkeep := effect_img_of_isHostOp hu hop
  rcases effect_seq_cases hu with ⟨hstep, hq⟩ | ⟨k, rfl, hidle, hq⟩ | ⟨rfl, -, hq⟩ | ⟨rfl, hab, hq⟩ | ⟨v, n, rfl, -⟩ | ⟨rfl, htick⟩
  · exact hh.of_frame (hkeep hstep) hq
  · have hsc := SeqState.isIdle_iff.1 hidle
    exact .of_noDump (by rw [hq]; exact hsc.imp_right .inl)
  · exact .of_noDump (.inr (.inr (.inl (by rw [hq]))))
  · exact abort_hostInv hs hh hab (hkeep (by simp)) hq
  · simp [isHostOp] at hop
  · exact tick_hostInv (s := start s) (hs.of_frame rfl rfl rfl) (hh.of_frame rfl rfl) htick

/-- Settles O47: STEP keeps it state by state, and no other host operation writes the image. -/
theorem dumpInvariantKeptByHostSteps : Obligations.DumpInvariantKeptByHostSteps := by
  intro s t hs hh honly h
  have htake : HostInv (consumeInput s) := hh.of_frame rfl rfl
  rcases step_cases h with ⟨bs, -, rfl⟩ | ⟨-, rfl⟩ | ⟨i, hfetch, hi⟩
  · exact htake.of_frame (by simp) (by simp)
  · exact htake
  · exact exec_hostInv (s := consumeInput s) (hs.of_frame rfl rfl rfl) htake (honly i hfetch) hi

end Sys2Proof.Safety
end

section
/-! SUPPORT. The writers of the sequencer's registers, the lock's notifications, and what is left in `rx`
(10_state.md R20–R28, R32, R38). -/

namespace Sys2Proof.Machine

variable {s t u : State} {i : Instr}

/-! ## The registers' writers -/

/-- What STEP writes in the sequencer, by its state (43_sequencer.md R209–R217). -/
theorem tick_seq_cases (h : tick s = some t) :
    (s.seq.sc = .dumpBegin ∧ ∃ sc cd bc l pi,
      t.seq = { s.seq with sc := sc, countdown := cd, byteCount := bc, lock := l, planIdx := pi }) ∨
    (s.seq.sc = .dump ∧ ∃ sc cd bc pi, t.seq = { s.seq with sc := sc, countdown := cd, byteCount := bc, planIdx := pi }) ∨
    (s.seq.sc = .dumpEnd ∧ ∃ sc a, t.seq = { s.seq with sc := sc, lastArtifact := a }) ∨
    ((s.seq.sc = .dumpFail ∨ s.seq.sc = .reset) ∧ ∃ sc, t.seq = { s.seq with sc := sc, lock := false }) ∨
    ∃ sc, t.seq = { s.seq with sc := sc } := by
  rcases tick_cases h with ⟨-, rfl⟩ | ⟨-, rfl⟩ | ⟨-, -, rfl⟩ | ⟨hs, p, -, hsync⟩ | ⟨-, -, rfl⟩ | ⟨hs, -, v, -, hunit⟩ |
    ⟨hs, rfl⟩ | ⟨-, rfl⟩ | ⟨-, rfl⟩ | ⟨hs, rfl⟩ | ⟨hs, rfl⟩
  iterate 3 exact .inr (.inr (.inr (.inr ⟨_, rfl⟩)))
  · refine .inl ⟨hs, ?_⟩
    rcases hsync with ⟨-, rfl⟩ | ⟨e, -, rfl⟩
    · rw [setSc_seq, loadCountdown_seq, synchronizeLink_seq, prepareDump_seq]; exact ⟨_, _, _, _, _, rfl⟩
    · rw [enterFailure_seq, loadCountdown_seq, synchronizeLink_seq, prepareDump_seq]; exact ⟨_, _, _, _, _, rfl⟩
  · exact .inr (.inr (.inr (.inr ⟨_, rfl⟩)))
  · refine .inr (.inl ⟨hs, ?_⟩)
    rcases hunit with ⟨-, rfl⟩ | ⟨e, -, rfl⟩
    · rw [advancePlan_seq, runUnit_seq]; exact ⟨_, _, _, _, rfl⟩
    · rw [enterFailure_seq, runUnit_seq]; exact ⟨_, _, _, _, rfl⟩
  · exact .inr (.inr (.inl ⟨hs, _, _, rfl⟩))
  iterate 2 exact .inr (.inr (.inr (.inr ⟨_, rfl⟩)))
  · exact .inr (.inr (.inr (.inl ⟨.inl hs, _, leaveFailure_seq s⟩)))
  · exact .inr (.inr (.inr (.inl ⟨.inr hs, .ready, by simp⟩)))

/-- Settles O52: an instruction other than STEP writes at most one register, and STEP those of its sequencer state. -/
theorem sequencerRegistersHaveTheirWriters : Obligations.SequencerRegistersHaveTheirWriters := by
  intro i s t h
  obtain ⟨u, hu, hseq, -⟩ := exec_next h
  rw [hseq]
  rcases effect_seq_cases hu with ⟨-, hq⟩ | ⟨k, rfl, -, hq⟩ | ⟨rfl, -, hq⟩ | ⟨rfl, -, hq⟩ | ⟨v, n, rfl, hq⟩ | ⟨rfl, htick⟩
  iterate 5 simp [hq]
  · have hcases := tick_seq_cases htick
    simp only [start_seq] at hcases
    rcases hcases with ⟨hs, _, _, _, _, _, hq⟩ | ⟨hs, _, _, _, _, hq⟩ | ⟨hs, _, _, hq⟩ | ⟨hs, _, hq⟩ | ⟨_, hq⟩
    iterate 4 simp [hq, hs]
    simp [hq]

/-! ## The lock's notifications -/

@[simp] theorem lockEvents_append (es fs : List Event) :
    Safety.lockEvents (es ++ fs) = Safety.lockEvents es ++ Safety.lockEvents fs := List.filter_append es fs

/-- The notification of a lock that was `before` and is `after` (10_state.md R25, R38). -/
def lockChange (before after : Bool) : List Event := if before = after then [] else if after = true then [.lock] else [.unlock]

@[simp] theorem lockChange_self (b : Bool) : lockChange b b = [] := if_pos rfl

/-- Between `s` and `t` the lock's events are the notification of its change. -/
def LockNotified (s t : State) : Prop :=
  Safety.lockEvents t.out.events = Safety.lockEvents s.out.events ++ lockChange s.seq.lock t.seq.lock

/-- Between `s` and `t` the lock is left alone. -/
structure LockQuiet (s t : State) : Prop where
  lock : t.seq.lock = s.seq.lock
  events : Safety.lockEvents t.out.events = Safety.lockEvents s.out.events

theorem LockQuiet.of_eq (hl : t.seq.lock = s.seq.lock) (ho : t.out = s.out) : LockQuiet s t := ⟨hl, by rw [ho]⟩

theorem LockQuiet.refl (s : State) : LockQuiet s s := ⟨rfl, rfl⟩

theorem LockQuiet.trans (h : LockQuiet s t) (h' : LockQuiet t u) : LockQuiet s u :=
  ⟨h'.lock.trans h.lock, h'.events.trans h.events⟩

theorem LockQuiet.notified (h : LockQuiet s t) : LockNotified s t := by
  unfold LockNotified; rw [h.events, h.lock, lockChange_self, List.append_nil]

theorem LockNotified.trans_quiet (h : LockNotified s t) (h' : LockQuiet t u) : LockNotified s u := by
  unfold LockNotified; rw [h'.events, h'.lock]; exact h

/-- Any other event leaves the lock alone. -/
theorem emit_lockQuiet (s : State) {e : Event} (h : Safety.lockEvents [e] = []) : LockQuiet s (emit e s) :=
  ⟨rfl, by simp [h]⟩

theorem linkWrite_lockQuiet (bs : Bytes) (s : State) : LockQuiet s (linkWrite bs s).2 := by
  unfold linkWrite
  split
  · exact .refl s
  · split <;> exact ⟨rfl, by simp [Safety.lockEvents]⟩

theorem exchangePacket_lockQuiet (p : Packet) (s : State) : LockQuiet s (exchangePacket p s).2 :=
  exchangePacket_keeps (LockQuiet s) p s (linkWrite_lockQuiet _ s) fun _ _ h => h.trans (.of_eq (by simp) (by simp))

theorem runUnit_lockQuiet (v : PlanUnit) (s : State) : LockQuiet s (runUnit v s).2 :=
  runUnit_keeps (LockQuiet s) v s (fun p => exchangePacket_lockQuiet p s)
    (fun _ _ _ h => h.trans (.of_eq (by simp) (by simp))) fun _ _ h => h.trans (.of_eq rfl rfl)

theorem advancePlan_lockQuiet (s : State) : LockQuiet s (advancePlan s) :=
  .of_eq (by rw [advancePlan_seq]) (by simp)

theorem enterFailure_lockQuiet (k : ErrKind) (s : State) : LockQuiet s (enterFailure k s) :=
  ⟨rfl, by simp [Safety.lockEvents]⟩

theorem prepareDump_lockNotified (p : ReadPlan) (h : s.seq.lock = false) : LockNotified s (prepareDump p s) := by
  simp [LockNotified, h, lockChange, Safety.lockEvents]

theorem releaseLock_lockNotified (s : State) : LockNotified s (releaseLock s) := by
  cases hl : s.seq.lock
  · rw [show releaseLock s = s by simp [releaseLock, hl]]; exact (LockQuiet.refl s).notified
  · simp [LockNotified, hl, releaseLock, lockChange, Safety.lockEvents]

/-- STEP takes the lock in DUMP_BEGIN only and gives it back in DUMP_FAIL and RESET (43_sequencer.md R211, R216, R217). -/
theorem tick_lockNotified (hfree : s.seq.sc = .dumpBegin → s.seq.lock = false) (h : tick s = some t) :
    LockNotified s t := by
  rcases tick_cases h with ⟨-, rfl⟩ | ⟨-, rfl⟩ | ⟨-, -, rfl⟩ | ⟨hs, p, -, hsync⟩ | ⟨-, -, rfl⟩ | ⟨-, -, v, -, hunit⟩ |
    ⟨-, rfl⟩ | ⟨-, rfl⟩ | ⟨-, rfl⟩ | ⟨-, rfl⟩ | ⟨-, rfl⟩
  · exact (LockQuiet.of_eq rfl rfl).notified
  · exact (LockQuiet.refl t).notified
  · exact (enterFailure_lockQuiet _ s).notified
  · have hsynced : LockNotified s (synchronizeLink (prepareDump p s)).2 :=
      (prepareDump_lockNotified p (hfree hs)).trans_quiet (linkWrite_lockQuiet _ _)
    rcases hsync with ⟨-, rfl⟩ | ⟨e, -, rfl⟩
    · exact hsynced.trans_quiet (.of_eq rfl rfl)
    · exact hsynced.trans_quiet ⟨rfl, by simp [Safety.lockEvents]⟩
  · exact (LockQuiet.of_eq rfl rfl).notified
  · have hticked : LockQuiet s (consumeTick s) := .of_eq rfl rfl
    have hrun := hticked.trans (runUnit_lockQuiet v _)
    rcases hunit with ⟨-, rfl⟩ | ⟨e, -, rfl⟩
    · exact (hrun.trans (advancePlan_lockQuiet _)).notified
    · exact (hrun.trans (enterFailure_lockQuiet _ _)).notified
  · have hends : LockQuiet s (stepDumpEnd s) := ⟨rfl, by simp [stepDumpEnd, Safety.lockEvents]⟩
    exact hends.notified
  · exact (emit_lockQuiet s rfl).notified.trans_quiet (.of_eq rfl rfl)
  · exact (emit_lockQuiet s rfl).notified.trans_quiet (.of_eq rfl rfl)
  · exact ((releaseLock_lockNotified s).trans_quiet (emit_lockQuiet _ rfl)).trans_quiet (.of_eq rfl rfl)
  · exact (releaseLock_lockNotified s).trans_quiet (.of_eq rfl rfl)

/-- No other operation touches the lock. -/
theorem effect_lockQuiet (hstep : i ≠ .step) (htimes : ∀ n, i ≠ .stepTimes n) (h : effect i s = some u) :
    LockQuiet (start s) u := by
  cases i
  case step => exact absurd rfl hstep
  case stepTimes n => exact absurd rfl (htimes n)
  all_goals obtain rfl := Option.some.inj h
  case readSingle | writeSingle | emulateSingle | readBlock | writeBlock | emulateBlock | setReadDelay | getReadDelay
    | getInfo | sync | nop | exchange => exact exchangePacket_lockQuiet _ _
  case syncSeq | synchronize | write => exact linkWrite_lockQuiet _ _
  case execUnit => exact runUnit_lockQuiet _ _
  case selectStrategy | requestDump | abort => split <;> exact .of_eq rfl rfl
  case read | setCapacity | writeAt | openLink | closeLink => exact .of_eq (by simp) (by simp)
  case encodePacket | decodeFrame | checksum | mkreq | markValid | getLastArtifact | isValid | snapshot =>
    exact .of_eq rfl rfl

theorem effect_lockNotified (hs : Safety.Inv s) (htimes : ∀ n, i ≠ .stepTimes n) (h : effect i s = some u) :
    LockNotified (start s) u := by
  by_cases hstep : i = .step
  · subst hstep; exact tick_lockNotified (fun hsc => hs.lockFree (.inr (.inr hsc))) h
  · exact (effect_lockQuiet hstep htimes h).notified

/-- Settles O49: an operation begins with no event, and each of its parts notifies exactly the lock's change. -/
theorem lockChangesAreNotifiedOnce : Obligations.LockChangesAreNotifiedOnce := by
  intro i s t hs htimes h
  obtain ⟨u, hu, hseq, -, -, -, -, hevents, -⟩ := exec_next h
  rw [hseq, hevents]
  exact effect_lockNotified hs htimes hu

/-! ## The receive buffer -/

/-- What OPEN leaves in `rx` (41_transport.md R151). -/
theorem openPort_rx (port : PortId) (timeout : ReadTimeout) (s : State) : (openPort port timeout s).2.link.rx =
    if (s.seq.sc = .init ∨ s.seq.sc = .ready) ∧ (Safety.draw s s.env.drawIdx).ok = true then [] else s.link.rx := by
  simp only [← SeqState.isIdle_iff, ← nextDraw_eq_draw]
  unfold openPort
  cases s.seq.sc.isIdle
  · rfl
  · cases (nextDraw s).ok <;> rfl

@[simp] theorem closePort_rx (s : State) : (closePort s).2.link.rx = s.link.rx := by
  unfold closePort; split <;> rfl

/-- What a STEP leaves in `rx`: only the unit of a DUMP step with ticks left reads (43_sequencer.md R212). -/
theorem tick_rx (h : tick s = some t) :
    t.link.rx = (Safety.stepAsks s).elim s.link.rx (Safety.rxAfterExchange · s) := by
  rcases tick_cases h with ⟨hs, rfl⟩ | ⟨hs, rfl⟩ | ⟨hs, -, rfl⟩ | ⟨hs, p, -, hsync⟩ | ⟨-, h0, rfl⟩ | ⟨hs, h0, v, hv, hunit⟩ |
    ⟨hs, rfl⟩ | ⟨hs, rfl⟩ | ⟨hs, rfl⟩ | ⟨hs, rfl⟩ | ⟨hs, rfl⟩
  iterate 3 simp [Safety.stepAsks, hs]
  · rcases hsync with ⟨-, rfl⟩ | ⟨e, -, rfl⟩ <;> simp [Safety.stepAsks, hs]
  · simp [Safety.stepAsks, h0]
  · have hasks : Safety.stepAsks s = some (Safety.unitAsks v) := by
      simp [Safety.stepAsks, hs, Nat.pos_of_ne_zero h0, hv]
    rw [hasks]
    rcases hunit with ⟨-, rfl⟩ | ⟨e, -, rfl⟩
    · rw [advancePlan_link]; exact runUnit_rx v (consumeTick s)
    · rw [enterFailure_link]; exact runUnit_rx v (consumeTick s)
  all_goals simp [Safety.stepAsks, hs, stepDumpEnd, stepDumpTimeout, stepDumpAbort]

/-- What an instruction other than READ and OPEN leaves in `rx` (10_state.md R32). -/
theorem effect_rx (h : effect i s = some u) (hread : ∀ max, i ≠ .read max) (hopen : ∀ port tm, i ≠ .openLink port tm) :
    u.link.rx = (Safety.exchangeAsks i s).elim s.link.rx (Safety.rxAfterExchange · s) := by
  cases i
  case step => exact tick_rx (s := start s) h
  case read max => exact absurd rfl (hread max)
  case openLink port tm => exact absurd rfl (hopen port tm)
  all_goals obtain rfl := Option.some.inj h
  case readSingle | writeSingle | emulateSingle | readBlock | writeBlock | emulateBlock | setReadDelay | getReadDelay
    | getInfo | sync | nop | exchange => exact exchangePacket_rx _ (start s)
  case execUnit v => exact runUnit_rx v (start s)
  case selectStrategy | requestDump | abort => simp only [start_link]; split <;> rfl
  all_goals simp [Safety.exchangeAsks]

/-- Settles O54: OPEN and READ each by its own rule, and every other instruction by the EXCHANGE it makes or does not make. -/
theorem receiveBufferLosesOnlyItsFront : Obligations.ReceiveBufferLosesOnlyItsFront := by
  intro i s t h
  obtain ⟨u, hu, -, hlink, -⟩ := exec_next h
  rw [hlink]
  refine ⟨?_, ?_, ?_, ?_⟩
  · rintro port tm rfl
    obtain rfl := Option.some.inj hu
    exact openPort_rx port tm (start s)
  · rintro max rfl
    obtain rfl := Option.some.inj hu
    exact linkRead_rx max (start s)
  · intro max hasks
    rw [effect_rx hu (by rintro _ rfl; cases hasks) (by rintro _ _ rfl; cases hasks), hasks]
    rfl
  · intro hasks hread hopen
    rw [effect_rx hu hread hopen, hasks]
    rfl

end Sys2Proof.Machine
end

section
/-! SUPPORT. The state after reset (70_reset_and_hazards.md R280). -/

namespace Sys2Proof.Safety

open Machine

/-- The reset parameters obey the laws of 00_scope.md R7, whatever the uninterpreted constants are (log entry 4). -/
theorem configParams_wf : Config.params.Wf := by
  refine ⟨?_, ?_, ?_⟩
  · have himage : Command.all.map Config.params.opc.byte =
        ([0, 1, 2, 3, 4, 5, 6, 7, 8, 9, 10] : List Byte).map Config.opcPerm := rfl
    rw [Opcodes.Distinct, himage]
    exact List.Nodup.map Config.opcPerm.injective (by decide)
  · change 2 ^ (13 + Config.imageMaxExponent) = 2 ^ (2 ^ (13 + Config.imageMaxExponent)).log2
    rw [Nat.log2_two_pow]
  · exact Nat.pow_le_pow_right (n := 2) (by decide) (Nat.le_add_right 13 Config.imageMaxExponent)

/-- Settles O45: the reset image is an empty 4096-byte one, and the sequencer is in INIT with the lock free. -/
theorem invariantHoldsAtReset : Obligations.InvariantHoldsAtReset := by
  have hcap : capacityOk Config.params.imageMax Config.defaultCapacity = true :=
    capacityOk_plan (st := .none) configParams_wf rfl
  exact ⟨inv_iff.2 ⟨configParams_wf, .of_capacityOk hcap, .of_lockFree (.inl rfl) rfl (Nat.zero_le _)⟩,
    .of_noDump (.inl rfl)⟩

end Sys2Proof.Safety
end

section
/-! SUPPORT. The decoder and the encoder against each other: operands read back as they were written, and what a line or
a byte string that decodes must be (30_encoding.md R80–R95; log entries 2, 3). -/

namespace Sys2Proof

open Machine

variable {par : Params} {i : Instr}

/-! ## Encode, then decode -/

theorem bytesThen_bytesToks_nil (bs : Bytes) : bytesThen [] (bytesToks bs) = .ok bs := by
  simpa using bytesThen_bytesToks bs []

theorem unitOperand_toks (u : PlanUnit) : unitOperand (unitToks u) = .ok u := by
  cases u with
  | hotspot a => simp only [unitToks, unitOperand, if_true, halfNumber_addressText]; rfl
  | block a off n =>
    simp only [unitToks, unitOperand, if_true, halfNumber_addressText, natNumber_natText, halfNumber_natText]; rfl

theorem mkreqOperands_toks (c : Command) (a n : Half) : mkreqOperands (mkreqToks c a n) = .ok (c, a, n) := by
  simp only [mkreqToks, mkreqOperands, commandWord_text, halfNumber_addressText, halfNumber_natText]; rfl

theorem decode_requestOf (hd : par.opc.Distinct) (c : Command) (a n : Half) (hn : n = replyLen c n) :
    decode par (requestOf par c a n) = .instr (Instr.ofCommand c a n) := decodeWire_request par hd c a n hn

theorem decode_syncBytes (par : Params) : decode par (.wire (syncBytes par)) = .instr .syncSeq := by
  have hlen : (syncBytes par).length = 14 := by simp [syncBytes]
  rw [decode, decodeWire, if_pos hlen, if_pos rfl]

/-- A keyword that takes no operand. -/
theorem decode_bare (par : Params) (k : Keyword) (h : decodeArgs par k [] = .ok i) :
    decode par (lineOf k []) = .instr i := decode_lineOf par k rfl h

theorem decode_encode_stepTimes (par : Params) (n : Nat) :
    decode par (encode par (.stepTimes n)) = .instr (.stepTimes n) :=
  decode_lineOf par .kStep (Laws.Surface.times_ok n) (by simp only [decodeArgs, natNumber_natText]; rfl)

/-- Settles O2: a request frame carries its command's lengths, and a line's operands read back one by one. -/
theorem decodeOfEncodeIsIdentity : Obligations.DecodeOfEncodeIsIdentity := by
  intro par i hd hw
  cases i
  case readSingle a => exact decode_requestOf hd .readSingle a 1 rfl
  case readBlock a n => exact decode_requestOf hd .readBlock a n rfl
  case writeSingle a | emulateSingle a | writeBlock a | emulateBlock a | setReadDelay a | getReadDelay a | getInfo a
    | sync a | nop a => exact decode_requestOf hd _ a 0 rfl
  case syncSeq => exact decode_syncBytes par
  case encodePacket p | exchange p =>
    exact decode_lineOf par _ (packetToks_ok p) (by rw [decodeArgs, packetOperand_toks]; rfl)
  case decodeFrame bs | write bs =>
    exact decode_lineOf par _ (bytesToks_ok bs) (by rw [decodeArgs, bytesThen_bytesToks_nil]; rfl)
  case checksum bs =>
    exact decode_callOf (args := bytesToks bs ++ [.rpar]) par .kCk (Laws.Surface.checksum_ok bs)
      (by simp only [decodeArgs, bytesThen_bytesToks]; rfl)
  case mkreq c a n =>
    have hargs : decodeArgs par .kMkreq (mkreqToks c a n) = .ok (.mkreq c a n) := by
      rw [decodeArgs, mkreqOperands_toks]; rfl
    exact decode_callOf par .kMkreq (Laws.Surface.mkreq_ok c a n) hargs
  case read n | setCapacity n =>
    exact decode_lineOf par _ (Laws.Surface.nat_ok n) (by simp only [decodeArgs, natNumber_natText]; rfl)
  case writeAt off bs =>
    exact decode_lineOf par .kWriteAt (Laws.Surface.writeAt_ok off bs)
      (by simp only [decodeArgs, natNumber_natText, bytesThen_bytesToks_nil]; rfl)
  case execUnit u =>
    exact decode_lineOf par .kExecUnit (Laws.Surface.unit_ok u) (by rw [decodeArgs, unitOperand_toks]; rfl)
  case openLink port timeout => exact decode_lineOf par .kOpen (Laws.Surface.open_ok hw) (if_pos hw)
  case selectStrategy k =>
    exact decode_lineOf par .kSelectStrategy (Laws.Surface.strategy_ok k)
      (by simp only [decodeArgs, strategyWord_text]; rfl)
  case stepTimes n => exact decode_encode_stepTimes par n
  all_goals exact decode_bare par _ rfl

/-! ## Decode, then encode -/

/-- Where an operand is read and given to `f`, the answer is `f` of an operand. -/
theorem ok_of_bind_pure {α β : Type} {x : Except DecodeError α} {f : α → β} {b : β}
    (h : (do let a ← x; return f a) = .ok b) : ∃ a, x = .ok a ∧ b = f a := by
  cases x with
  | error e => cases h
  | ok a => exact ⟨a, rfl, (Except.ok.inj h).symm⟩

theorem bare_ok {j : Instr} {args : List Tok} (h : bare i args = .ok j) : j = i := by
  unfold bare at h
  split at h
  · exact (Except.ok.inj h).symm
  · cases h

/-- OPEN's words are checked as they are read, and no other operation has an operand to check. -/
theorem decodeArgs_wellFormed {k : Keyword} {args : List Tok} (h : decodeArgs par k args = .ok i) :
    WellFormed i = true := by
  cases k <;> simp only [decodeArgs] at h
  case kOpen =>
    split at h
    · split at h
      · rename_i hwords
        obtain rfl := Except.ok.inj h
        exact hwords
      · cases h
    · cases h
  case kClose | kRequestDump | kAbort | kGetLastArtifact | kIsValid | kSnapshot | kSynchronize | kMarkValid =>
    obtain rfl := bare_ok h; rfl
  case kEncode | kDecode | kMkreq | kWrite | kExchange | kExecUnit =>
    obtain ⟨a, -, rfl⟩ := ok_of_bind_pure h; rfl
  case kSelectStrategy | kCk | kRead | kSetCapacity =>
    split at h
    · obtain ⟨a, -, rfl⟩ := ok_of_bind_pure h; rfl
    · cases h
  case kStep =>
    split at h
    · obtain rfl := Except.ok.inj h; rfl
    · obtain ⟨n, -, rfl⟩ := ok_of_bind_pure h; rfl
    · cases h
  case kWriteAt =>
    split at h
    · rename_i w rest
      cases hoff : natNumber w <;> rw [hoff] at h
      · cases h
      · obtain ⟨bs, -, rfl⟩ := ok_of_bind_pure h; rfl
    · cases h

/-- A line that decodes is a keyword and operands that decode. -/
theorem decodeLine_instr {cs : Text} (h : decodeLine par cs = .instr i) : ∃ k args, decodeArgs par k args = .ok i := by
  unfold decodeLine at h
  split at h
  · cases h
  · rename_i args _
    split at h
    · rename_i k _
      unfold Decoded.ofExcept at h
      split at h
      · rename_i j hj
        exact ⟨k, args, by rw [hj, Decoded.instr.inj h]⟩
      · cases h
    · cases h
  · cases h

/-- A byte string that decodes is SYNC_SEQ, or the frame MKREQ builds for a command with the command's own length
(R85–R91). -/
theorem decodeWire_instr {bs : Bytes} (h : decodeWire par bs = .instr i) :
    (bs = syncBytes par ∧ i = .syncSeq) ∨
    ∃ c a n, n = replyLen c n ∧ bs = encodeFrame (mkreq par c a n) ∧ i = Instr.ofCommand c a n := by
  unfold decodeWire at h
  split at h
  · split at h
    · exact .inl ⟨‹_›, (Decoded.instr.inj h).symm⟩
    · cases h
  split at h
  · cases h
  rename_i hlen
  split at h
  · cases h
  rename_i c hc
  simp only at h
  split at h
  · cases h
  rename_i hstatus
  split at h
  · cases h
  rename_i hlens
  split at h
  · cases h
  rename_i hck
  simp only [ne_eq, not_or, not_not] at hlen hstatus hlens hck
  obtain ⟨hreply, hreq⟩ := hlens
  have hfields : frameFields bs = { mkreq par c (halfAt bs 6) (halfAt bs 4) with checksum := frameCk bs } := by
    simp only [frameFields, mkreq, byte_of_commandOf hc, ← hreply, hstatus, hreq, hck, List.drop_of_length_le hlen.le]
  exact .inr ⟨c, _, _, hreply, (encodeFrame_fields hlen rfl hfields).symm, (Decoded.instr.inj h).symm⟩

theorem ofCommand_wellFormed (c : Command) (a n : Half) : WellFormed (Instr.ofCommand c a n) = true := by
  cases c <;> rfl

/-- Settles O3: a line through its operands, a byte string as a command or SYNC_SEQ. -/
theorem decodedInstructionsAreWellFormed : Obligations.DecodedInstructionsAreWellFormed := by
  intro par e i h
  cases e with
  | line cs =>
    obtain ⟨k, args, hargs⟩ := decodeLine_instr h
    exact decodeArgs_wellFormed hargs
  | wire bs =>
    rcases decodeWire_instr h with ⟨-, rfl⟩ | ⟨c, a, n, -, -, rfl⟩
    · rfl
    · exact ofCommand_wellFormed c a n

/-- A command's instruction is encoded as the command's request, where `n` is the command's length (R86). -/
theorem encode_ofCommand (par : Params) {c : Command} (a : Half) {n : Half} (hn : n = replyLen c n) :
    encode par (Instr.ofCommand c a n) = requestOf par c a n := by
  cases c
  case readBlock => rfl
  case readSingle => obtain rfl : n = 1 := hn; rfl
  all_goals obtain rfl : n = 0 := hn; rfl

/-- Settles O4: the decoder has checked every field of the frame against MKREQ's. -/
theorem wireStringsDecodeToOneInstruction : Obligations.WireStringsDecodeToOneInstruction := by
  intro par bs i h
  rcases decodeWire_instr h with ⟨rfl, rfl⟩ | ⟨c, a, n, hn, rfl, rfl⟩
  · rfl
  · exact encode_ofCommand par a hn

/-! ## Written-out lines and frames -/

/-- Settles O1: the lines by running the decoder, the frames C1 and C2 as the requests they are. -/
theorem knownEncodingsDecode : Obligations.KnownEncodingsDecode := by
  intro par
  refine ⟨rfl, rfl, rfl, rfl, rfl, rfl, rfl, fun hd hop hst => ?_, fun hd hop hst => ?_⟩
  · have hc1 : encodeFrame (mkreq par .readBlock 0x1000 256) =
        [0x04, 0x00, 0x00, 0x01, 0x00, 0x01, 0x00, 0x10, 0x16, 0x00] := by
      simp only [mkreq, Opcodes.byte, hop, hst]; decide
    rw [← hc1]
    exact decode_requestOf hd .readBlock 0x1000 256 rfl
  · have hc2 : encodeFrame (mkreq par .readSingle 0x1FF8 1) =
        [0x01, 0x00, 0x01, 0x00, 0x01, 0x00, 0xF8, 0x1F, 0x1A, 0x01] := by
      simp only [mkreq, Opcodes.byte, hop, hst]; decide
    rw [← hc2]
    exact decode_requestOf hd .readSingle 0x1FF8 1 rfl

end Sys2Proof
end

section
/-! SUPPORT. `STEP ×n` as n STEPs (30_encoding.md R95; log entry 11), and what one STEP transmits (30_encoding.md R92,
20_memory.md R60). -/

namespace Sys2Proof.Machine

variable {s t u : State}

/-! ## STEP ×n -/

/-- A scheduled STEP line. -/
def stepLine : Input := .host (.line "STEP".toList)

theorem decode_step (par : Params) : decode par (.line "STEP".toList) = .instr .step := rfl

theorem step_issue {e : Encoded} {i : Instr} (h : decode s.par e = .instr i) : step (issue e s) = exec i s :=
  step_of_fetch_instr (fetch_of_decode_instr (s := issue e s) rfl h)

theorem tick_inputs (h : tick s = some t) : t.inputs = s.inputs := by
  have hmap := tick_withInputs s.inputs s
  rw [show withInputs s.inputs s = s from rfl, h, Option.map_some] at hmap
  rw [Option.some.inj hmap]; rfl

theorem exec_step_inputs (h : exec .step s = .next t) : t.inputs = s.inputs := by
  obtain ⟨u, hu, rfl⟩ := exec_step_next h
  have hinputs : u.inputs = (start s).inputs := tick_inputs hu
  exact hinputs

/-- Running the machine over `n` scheduled STEP lines is `n` STEPs, whatever is scheduled behind them. -/
theorem run_stepLines (n : Nat) (s : State) :
    Host.Core.run core n (withInputs (List.replicate n stepLine ++ s.inputs) s) = Safety.steps n s := by
  induction n generalizing s with
  | zero => rfl
  | succ n ih =>
    have hstep : step (withInputs (List.replicate (n + 1) stepLine ++ s.inputs) s) =
        exec .step (withInputs (List.replicate n stepLine ++ s.inputs) s) :=
      step_issue (s := withInputs (List.replicate n stepLine ++ s.inputs) s) (decode_step s.par)
    rw [exec_step_withInputs] at hstep
    rw [Safety.steps]
    cases he : exec .step s <;> rw [he] at hstep
    case next t => rw [run_next hstep, ← exec_step_inputs he]; exact ih t
    case fault f => exact run_fault hstep
    case refused r => exact run_refused hstep

/-- Settles O41: the first transition schedules the STEP lines, and each of the others is one STEP. -/
theorem stepTimesRunsSteps : Obligations.StepTimesRunsSteps := by
  intro n s
  refine ⟨rfl, ?_⟩
  have hfirst : step (issue (encode s.par (.stepTimes n)) s) =
      .next (withInputs (List.replicate n stepLine ++ s.inputs) s) :=
    step_issue (decode_encode_stepTimes s.par n)
  exact (run_next hfirst).trans (run_stepLines n s)

/-! ## What a STEP transmits -/

/-- The bytes an event transmits (10_state.md R38). -/
def txOf (e : Event) : Option Bytes :=
  match e with
  | .tx bs => some bs
  | .lock | .unlock | .log _ | .aborted | .persist _ _ => none

theorem txOf_eq_some {e : Event} {bs : Bytes} : txOf e = some bs ↔ e = .tx bs := by cases e <;> simp [txOf]

/-- The byte strings a list of events transmits. -/
def txBytes (es : List Event) : List Bytes := es.filterMap txOf

@[simp] theorem txBytes_append (es fs : List Event) : txBytes (es ++ fs) = txBytes es ++ txBytes fs :=
  List.filterMap_append

theorem mem_txBytes {es : List Event} {bs : Bytes} : bs ∈ txBytes es ↔ .tx bs ∈ es := by
  simp [txBytes, txOf_eq_some]

/-- A test for Tx events finds one per byte string transmitted. -/
theorem length_filter_tx (es : List Event) {p : Event → Bool} (hp : ∀ e, p e = (txOf e).isSome) :
    (es.filter p).length = (txBytes es).length := by
  rw [txBytes, List.length_filterMap_eq_countP, ← List.countP_eq_length_filter, funext hp]

/-- Between `s` and `t` nothing is transmitted, or once, and then `whole` or a beginning of it (41_transport.md R153). -/
def Sends (whole : Bytes) (s t : State) : Prop :=
  txBytes t.out.events = txBytes s.out.events ∨
  ∃ bs, bs <+: whole ∧ txBytes t.out.events = txBytes s.out.events ++ [bs]

/-- Between `s` and `t` nothing is transmitted. -/
def TxQuiet (s t : State) : Prop := txBytes t.out.events = txBytes s.out.events

theorem TxQuiet.of_out (h : t.out = s.out) : TxQuiet s t := by unfold TxQuiet; rw [h]

theorem TxQuiet.sends (h : TxQuiet s t) (whole : Bytes) : Sends whole s t := .inl h

theorem Sends.trans_quiet {whole : Bytes} (h : Sends whole s t) (hq : TxQuiet t u) : Sends whole s u := by
  unfold Sends; rw [hq]; exact h

theorem TxQuiet.trans_sends {whole : Bytes} (hq : TxQuiet s t) (h : Sends whole t u) : Sends whole s u := by
  unfold Sends; rw [← hq]; exact h

theorem emit_txQuiet (s : State) {e : Event} (h : txOf e = none) : TxQuiet s (emit e s) := by
  simp [TxQuiet, txBytes, h]

theorem enterFailure_txQuiet (k : ErrKind) (s : State) : TxQuiet s (enterFailure k s) := emit_txQuiet s rfl

theorem releaseLock_txQuiet (s : State) : TxQuiet s (releaseLock s) := by
  unfold releaseLock
  split
  · exact emit_txQuiet s rfl
  · exact .of_out rfl

theorem prepareDump_txQuiet (p : ReadPlan) (s : State) : TxQuiet s (prepareDump p s) := by
  simp [TxQuiet, txBytes, txOf]

/-- WRITE transmits its bytes, or as many of them as left before it failed (41_transport.md R153). -/
theorem linkWrite_sends (bs : Bytes) (s : State) : Sends bs s (linkWrite bs s).2 := by
  unfold linkWrite
  split
  · exact .inl rfl
  · split
    · exact .inr ⟨bs, List.prefix_rfl, txBytes_append _ _⟩
    · exact .inr ⟨_, List.take_prefix _ _, txBytes_append _ _⟩

theorem synchronizeLink_sends (s : State) : Sends (syncBytes s.par) s (synchronizeLink s).2 := linkWrite_sends _ s

theorem exchangePacket_sends (p : Packet) (s : State) : Sends (encodeFrame p) s (exchangePacket p s).2 :=
  exchangePacket_keeps (Sends (encodeFrame p) s) p s (linkWrite_sends _ s) fun n t h =>
    h.trans_quiet (.of_out (linkRead_out n t))

/-- The request of a plan unit (43_sequencer.md R206). -/
def unitRequest (par : Params) (v : PlanUnit) : Packet :=
  match v with
  | .hotspot a => mkreq par .readSingle a 1
  | .block a _ n => mkreq par .readBlock a n

/-- EXEC_UNIT transmits in its EXCHANGE only. -/
theorem runUnit_sends (v : PlanUnit) (s : State) : Sends (encodeFrame (unitRequest s.par v)) s (runUnit v s).2 := by
  cases v with
  | hotspot a => exact bindOp_keeps (Sends _ s) _ _ (exchangePacket_sends _ s) fun _ _ h => h
  | block a off n =>
    refine bindOp_keeps (Sends _ s) _ _ (exchangePacket_sends _ s) fun p t h => ?_
    exact bindOp_keeps (Sends _ s) _ _ (h.trans_quiet (.of_out (imageWriteAt_out off p.payload t))) fun _ _ h => h

/-- A STEP transmits the synchronize sequence in DUMP_BEGIN, the request of the cursor's unit in DUMP, and nothing else
(43_sequencer.md R208–R217). -/
theorem tick_sends (h : tick s = some t) :
    Sends (syncBytes s.par) s t ∨
    ∃ v ∈ planUnits s.seq.cfgStrategy, Sends (encodeFrame (unitRequest s.par v)) s t := by
  rcases tick_cases h with ⟨-, rfl⟩ | ⟨-, rfl⟩ | ⟨-, -, rfl⟩ | ⟨-, p, -, hsync⟩ | ⟨-, -, rfl⟩ | ⟨-, -, v, hv, hunit⟩ |
    ⟨-, rfl⟩ | ⟨-, rfl⟩ | ⟨-, rfl⟩ | ⟨-, rfl⟩ | ⟨-, rfl⟩
  · exact .inl (.inl rfl)
  · exact .inl (.inl rfl)
  · exact .inl ((enterFailure_txQuiet _ s).sends _)
  · have hsent : Sends (syncBytes s.par) s (synchronizeLink (prepareDump p s)).2 := by
      have hsync := synchronizeLink_sends (prepareDump p s)
      rw [prepareDump_par] at hsync
      exact (prepareDump_txQuiet p s).trans_sends hsync
    rcases hsync with ⟨-, rfl⟩ | ⟨e, -, rfl⟩
    · exact .inl (hsent.trans_quiet (.of_out rfl))
    · exact .inl (hsent.trans_quiet (enterFailure_txQuiet _ (loadCountdown _)))
  · exact .inl (.inl rfl)
  · have hsent : Sends (encodeFrame (unitRequest s.par v)) s (runUnit v (consumeTick s)).2 :=
      runUnit_sends v (consumeTick s)
    refine .inr ⟨v, List.mem_of_getElem? hv, ?_⟩
    rcases hunit with ⟨-, rfl⟩ | ⟨e, -, rfl⟩
    · exact hsent.trans_quiet (.of_out (advancePlan_out _))
    · exact hsent.trans_quiet (enterFailure_txQuiet _ _)
  · exact .inl ((emit_txQuiet s (e := .persist _ _) rfl).sends _)
  · exact .inl ((emit_txQuiet s (e := .log .timeout) rfl).sends _)
  · exact .inl ((emit_txQuiet s (e := .log .abortRequested) rfl).sends _)
  · exact .inl ((releaseLock_txQuiet s).trans_sends ((emit_txQuiet _ (e := .aborted) rfl).sends _))
  · exact .inl ((releaseLock_txQuiet s).sends _)

theorem length_of_block_mem_planBank {base off : Nat} {a n : Half} (h : .block a off n ∈ planBank base) : n = 256 := by
  obtain ⟨_, -, hblock⟩ := List.mem_map.1 h
  cases hblock
  rfl

/-- The blocks of the plans are 256 bytes long (43_sequencer.md R203, R204). -/
theorem length_of_block_mem_planUnits {k : Strategy} {off : Nat} {a n : Half} (h : .block a off n ∈ planUnits k) :
    n = 256 := by
  cases k
  case none => exact length_of_block_mem_planBank h
  case f8 =>
    have hbank : .block a off n ∈ planBank 0 ∨ .block a off n ∈ planBank 0x1000 := by
      simpa [planUnits, readPlan, planF8] using h
    exact hbank.elim length_of_block_mem_planBank length_of_block_mem_planBank
  all_goals cases h

/-- What an operation transmitted, where it transmitted once at most: its events start empty. -/
theorem Sends.of_start {whole : Bytes} (h : Sends whole (start s) t) :
    (txBytes t.out.events).length ≤ 1 ∧ ∀ bs, .tx bs ∈ t.out.events → bs <+: whole := by
  simp only [← mem_txBytes]
  have hnone : txBytes (start s).out.events = [] := rfl
  rcases h with h | ⟨bs, hbs, h⟩ <;> rw [h, hnone]
  · simp
  · simpa using hbs

/-- Settles O55: a STEP is DUMP_BEGIN's SYNCHRONIZE, or one unit's EXCHANGE, or transmits nothing. -/
theorem stepsTransmitOnlyReadsAndSync : Obligations.StepsTransmitOnlyReadsAndSync := by
  intro s t h
  obtain ⟨u, hu, rfl⟩ := exec_step_next h
  rcases tick_sends hu with hs | ⟨v, hv, hs⟩
  all_goals
    obtain ⟨hlen, hmem⟩ := hs.of_start
    refine ⟨(length_filter_tx _ fun e => by cases e <;> rfl).trans_le hlen, fun bs hbs => ?_⟩
  · exact .inl (hmem bs hbs)
  · cases v with
    | hotspot a => exact .inr (.inl ⟨a, hmem bs hbs⟩)
    | block a off n =>
      obtain rfl := length_of_block_mem_planUnits hv
      exact .inr (.inr ⟨a, hmem bs hbs⟩)

end Sys2Proof.Machine
end

section
/-! SUPPORT. The Packet Codec: what each of its operations answers, how a checksum moves with the bytes it covers, and
which frames decode (40_framer.md R110–R118, 30_encoding.md R80–R90). -/

namespace Sys2Proof.Machine

variable {f g bs : Bytes} {i : Nat} {v : Byte}

/-! ## The codec's operations answer and write nothing -/

theorem exec_checksum (bs : Bytes) (s : State) :
    exec (.checksum bs) s = .next (Safety.withOut (.ok (.half (ck bs))) [] s) := rfl

theorem exec_encodePacket (p : Packet) (s : State) :
    exec (.encodePacket p) s = .next (Safety.withOut (.ok (.bytes (encodeFrame p))) [] s) := rfl

theorem exec_decodeFrame (bs : Bytes) (s : State) :
    exec (.decodeFrame bs) s = .next (Safety.withOut ((decodePacket bs).toValue .packet) [] s) := rfl

theorem exec_mkreq (c : Command) (a n : Half) (s : State) :
    exec (.mkreq c a n) s = .next (Safety.withOut (.ok (.packet (mkreq s.par c a n))) [] s) := rfl

/-- The lengths of MKREQ's packet, command by command (30_encoding.md R86, R87). -/
theorem mkreq_eq (par : Params) (c : Command) (a n : Half) : mkreq par c a n =
    { command := par.opc.byte c
      status := par.reqStatus
      requestLength := if c = .readSingle then 1 else if c = .readBlock then n else 0
      replyLength := if c = .readSingle then 1 else if c = .readBlock then n else 0
      address := a
      checksum := 0
      payload := [] } := by
  cases c <;> rfl

/-- Settles O14: MKREQ's packet, its lengths spelled out by the command. -/
theorem requestFieldsFollowTheCommand : Obligations.RequestFieldsFollowTheCommand := by
  intro c a n s
  rw [exec_mkreq, mkreq_eq]

/-! ## Checksums -/

/-- `frameCK` on naturals (R110). -/
theorem toNat_frameCk (f : Bytes) : (frameCk f).toNat = ((f.take 8 ++ f.drop 10).map BitVec.toNat).sum % 65536 :=
  toNat_ck _

/-- Reducing at each addition gives the same sum (R110, corner case (1)). -/
theorem foldl_add_mod (bs : Bytes) (acc : Nat) :
    bs.foldl (fun a b => (a + b.toNat) % 65536) (acc % 65536) = (acc + (bs.map BitVec.toNat).sum) % 65536 := by
  induction bs generalizing acc with
  | nil => rfl
  | cons b bs ih => rw [List.foldl_cons, Nat.mod_add_mod, ih, List.map_cons, List.sum_cons, Nat.add_assoc]

/-- Settles O7: CHECKSUM is `ck`, whose value is the reduced sum however it is split, folded or ordered. -/
theorem checksumIsTheByteSum : Obligations.ChecksumIsTheByteSum := by
  refine ⟨fun bs s => ?_, fun f => ?_, fun bs => ?_, fun _ _ => ck_perm⟩
  · rw [exec_checksum, ← toNat_ck, BitVec.ofNat_toNat, BitVec.setWidth_eq]
  · rw [toNat_frameCk, List.map_append, List.sum_append]
  · rw [toNat_ck]
    simpa using (foldl_add_mod bs 0).symm

/-- Zero bytes add nothing (R117 (2)). -/
theorem ck_replicate_zero (k : Nat) : ck (List.replicate k 0x00) = 0 := by simp [ck]

theorem ck_singleton_inj {a b : Byte} (h : ck [a] = ck [b]) : a = b := by
  have hnat := congrArg BitVec.toNat h
  simp only [toNat_ck, List.map_cons, List.map_nil, List.sum_singleton] at hnat
  exact BitVec.eq_of_toNat_eq (by omega)

/-- Two byte values differ by less than 65536, so no single change keeps a sum mod 65536 (R117 (1)). -/
theorem ck_set_ne (hi : i < bs.length) (hv : v ≠ bs.getD i 0) : ck (bs.set i v) ≠ ck bs := by
  rw [List.getD_eq_getElem _ _ hi] at hv
  intro h
  have hold : bs = bs.take i ++ ([bs[i]] ++ bs.drop (i + 1)) := by simp
  have hnew : bs.set i v = bs.take i ++ ([v] ++ bs.drop (i + 1)) := by
    rw [List.set_eq_take_append_cons_drop, if_pos hi]; rfl
  rw [hnew] at h
  conv at h => rhs; rw [hold]
  simp only [ck_append, add_right_inj, add_left_inj] at h
  exact hv (ck_singleton_inj h)

/-! ## The checksum field -/

theorem u16_eq_ofNat (lo hi : Byte) : u16 lo hi = BitVec.ofNat 16 (lo.toNat + 256 * hi.toNat) := by
  rw [← toNat_u16, BitVec.ofNat_toNat, BitVec.setWidth_eq]

theorem toNat_halfAt (f : Bytes) (j : Nat) : (halfAt f j).toNat = (byteAt f j).toNat + 256 * (byteAt f (j + 1)).toNat :=
  toNat_u16 _ _

/-- A 16-bit field is stored low byte first (20_memory.md R51). -/
theorem bytes_of_halfAt {j : Nat} {h : Half} (hf : halfAt f j = h) :
    (byteAt f j).toNat = h.toNat % 256 ∧ (byteAt f (j + 1)).toNat = h.toNat / 256 := by
  have hlow := (byteAt f j).isLt
  rw [← hf, toNat_halfAt]
  omega

theorem halfAt_eq_iff {j k : Nat} :
    halfAt g j = halfAt f k ↔ byteAt g j = byteAt f k ∧ byteAt g (j + 1) = byteAt f (k + 1) := by
  refine ⟨fun h => ?_, fun ⟨hlo, hhi⟩ => congrArg₂ u16 hlo hhi⟩
  have hle := congrArg le16 h
  simpa only [halfAt, le16_u16, List.cons.injEq, and_true] using hle

/-- A frame's checksum matches its field, on naturals (R113). -/
theorem frameCk_eq_halfAt_iff : frameCk f = halfAt f 8 ↔
    ((f.take 8 ++ f.drop 10).map BitVec.toNat).sum % 65536 = (byteAt f 8).toNat + 256 * (byteAt f 9).toNat := by
  rw [← BitVec.toNat_inj, toNat_frameCk, toNat_halfAt]

/-! ## ENCODE -/

/-- Settles O8: the encoded frame's 16-bit fields are the packet's and the checksum, each low byte first. -/
theorem encodeLaysOutTheFrame : Obligations.EncodeLaysOutTheFrame := by
  intro p s
  obtain ⟨h2, h3⟩ := bytes_of_halfAt (halfAt_encodeFrame_requestLength p)
  obtain ⟨h4, h5⟩ := bytes_of_halfAt (halfAt_encodeFrame_replyLength p)
  obtain ⟨h6, h7⟩ := bytes_of_halfAt (halfAt_encodeFrame_address p)
  obtain ⟨h8, h9⟩ := bytes_of_halfAt (halfAt_encodeFrame_checksum p)
  rw [toNat_ck, ← take_encodeFrame] at h8 h9
  exact ⟨encodeFrame p, exec_encodePacket p s, length_encodeFrame p, byteAt_encodeFrame_command p,
    byteAt_encodeFrame_status p, h2, h3, h4, h5, h6, h7, h8, h9, drop_encodeFrame p⟩

/-- The zero bytes that hold the checksum's place are not summed (R111, R112). -/
theorem frameCk_zeroFilled (p : Packet) :
    frameCk (headerFields p ++ [0x00, 0x00] ++ p.payload) = ck (headerFields p ++ p.payload) := rfl

/-- An encoded frame holds its own checksum (R112). -/
theorem frameCk_encodeFrame_eq_halfAt (p : Packet) : frameCk (encodeFrame p) = halfAt (encodeFrame p) 8 := by
  rw [frameCk_encodeFrame, halfAt_encodeFrame_checksum]

/-- Settles O9: both frames carry the checksum of the field bytes and the payload. -/
theorem encodeInOnePass : Obligations.EncodeInOnePass := by
  intro p
  refine ⟨?_, frameCk_encodeFrame_eq_halfAt p⟩
  rw [frameCk_zeroFilled, encodeFrame_eq]
  rfl

/-! ## DECODE -/

/-- DECODE's three outcomes (R113). -/
theorem decodePacket_short (h : f.length < 10) : decodePacket f = .err (.protoMalformed f.length) := if_pos h

theorem decodePacket_mismatch (hlen : 10 ≤ f.length) (hck : frameCk f ≠ halfAt f 8) :
    decodePacket f = .err (.protoChecksum (frameCk f) (halfAt f 8)) := by
  unfold decodePacket
  rw [if_neg (by omega), if_pos hck]

theorem decodePacket_match (hlen : 10 ≤ f.length) (hck : frameCk f = halfAt f 8) :
    decodePacket f = .ok (frameFields f) := by
  unfold decodePacket
  rw [if_neg (by omega), if_neg (by simp [hck])]

/-- Settles O10: the three outcomes, their 16-bit fields written as naturals. -/
theorem decodeChecksLengthThenChecksum : Obligations.DecodeChecksLengthThenChecksum := by
  intro bs s
  rw [exec_decodeFrame]
  by_cases hlen : bs.length < 10
  · rw [decodePacket_short hlen, if_pos hlen]; rfl
  · rw [if_neg hlen]
    by_cases hck : frameCk bs = halfAt bs 8
    · rw [decodePacket_match (by omega) hck, if_neg (by simpa using frameCk_eq_halfAt_iff.1 hck)]
      simp only [← u16_eq_ofNat]; rfl
    · rw [decodePacket_mismatch (by omega) hck, if_pos (mt frameCk_eq_halfAt_iff.2 hck)]
      simp only [← u16_eq_ofNat]; rfl

/-- Settles O11: an encoded frame holds its own checksum, so DECODE answers its fields. -/
theorem decodeOfEncodedPacket : Obligations.DecodeOfEncodedPacket := by
  intro p
  rw [decodePacket_match (by simp) (frameCk_encodeFrame_eq_halfAt p), frameFields_encodeFrame, take_encodeFrame]

/-! ## Which changes of a frame are detected -/

theorem byteAt_set_of_ne {j : Nat} (h : i ≠ j) : byteAt (f.set i v) j = byteAt f j := by
  simp only [byteAt, List.getD_eq_getElem?_getD, List.getElem?_set_ne h]

theorem byteAt_set_self (hi : i < f.length) : byteAt (f.set i v) i = v := by
  simp only [byteAt, List.getD_eq_getElem?_getD, List.getElem?_set_self hi, Option.getD_some]

/-- The checksum does not cover bytes 8 and 9 (R110). -/
theorem frameCk_set_field (h : i = 8 ∨ i = 9) : frameCk (f.set i v) = frameCk f := by
  unfold frameCk
  rw [List.take_set_of_le (by omega), List.drop_set_of_lt (by omega)]

/-- It covers every other byte. -/
theorem frameCk_set_ne (hi : i < f.length) (h8 : i ≠ 8) (h9 : i ≠ 9) (hv : v ≠ byteAt f i) :
    frameCk (f.set i v) ≠ frameCk f := by
  unfold frameCk
  rcases Nat.lt_or_ge i 8 with hlow | hhigh
  · rw [List.drop_set_of_lt (by omega), List.take_set, ck_append, ck_append, Ne, add_left_inj]
    exact ck_set_ne (by simp; omega) (by simpa [byteAt, hlow] using hv)
  · rw [List.take_set_of_le hhigh, List.drop_set, if_neg (by omega), ck_append, ck_append, Ne, add_right_inj]
    exact ck_set_ne (by simp; omega) (by simpa [byteAt, show 10 + (i - 10) = i by omega] using hv)

/-- Changing one byte moves the checksum or its field, and never both. -/
theorem frameCk_set_ne_halfAt_set (hck : frameCk f = halfAt f 8) (hi : i < f.length) (hv : v ≠ byteAt f i) :
    frameCk (f.set i v) ≠ halfAt (f.set i v) 8 := by
  by_cases hfield : i = 8 ∨ i = 9
  · rw [frameCk_set_field hfield, hck, Ne, eq_comm, halfAt_eq_iff]
    rintro ⟨h8, h9⟩
    rcases hfield with rfl | rfl
    · exact hv ((byteAt_set_self hi).symm.trans h8)
    · exact hv ((byteAt_set_self hi).symm.trans h9)
  · obtain ⟨h8, h9⟩ := not_or.1 hfield
    rw [halfAt_eq_iff.2 ⟨byteAt_set_of_ne h8, byteAt_set_of_ne h9⟩, ← hck]
    exact frameCk_set_ne hi h8 h9 hv

/-- Settles O12: an encoded frame's checksum matches its field, and after the change it does not. -/
theorem singleByteChangeIsDetected : Obligations.SingleByteChangeIsDetected := by
  intro p i v hi hv
  have hne := frameCk_set_ne_halfAt_set (frameCk_encodeFrame_eq_halfAt p) hi hv
  exact ⟨_, _, hne, decodePacket_mismatch (by simp) hne⟩

/-- Appended zero bytes leave the checksum and its field as they were (R117 (2)). -/
theorem frameCk_append_zeros (hlen : 10 ≤ f.length) (k : Nat) : frameCk (f ++ List.replicate k 0x00) = frameCk f := by
  unfold frameCk
  rw [List.take_append_of_le_length (by omega), List.drop_append_of_le_length hlen, ← List.append_assoc, ck_append,
    ck_replicate_zero]
  exact BitVec.add_zero _

theorem byteAt_append {j : Nat} (h : j < f.length) (g : Bytes) : byteAt (f ++ g) j = byteAt f j :=
  List.getD_append f g 0 j h

/-- Settles O13: both changes keep the sum over the covered bytes and bytes 8 and 9, so DECODE still sees a match. -/
theorem sumPreservingChangesAreAccepted : Obligations.SumPreservingChangesAreAccepted := by
  intro f p h
  obtain ⟨hlen, hck, rfl⟩ := decodePacket_ok h
  refine ⟨fun g hg hperm h8 h9 => ?_, fun k => ?_⟩
  · have hmatch : frameCk g = halfAt g 8 := by
      rw [halfAt_eq_iff.2 ⟨h8, h9⟩, ← hck]
      exact ck_perm hperm
    exact ⟨_, decodePacket_match hg hmatch, rfl⟩
  · have hmatch : frameCk (f ++ List.replicate k 0x00) = halfAt (f ++ List.replicate k 0x00) 8 := by
      rw [frameCk_append_zeros hlen, hck, eq_comm, halfAt_eq_iff]
      exact ⟨byteAt_append (by omega) _, byteAt_append (by omega) _⟩
    exact ⟨_, decodePacket_match (by simp; omega) hmatch, List.drop_append_of_le_length hlen⟩

end Sys2Proof.Machine
end

section
/-! SUPPORT. EXCHANGE outcome by outcome (41_transport.md R156), and the wire commands as EXCHANGEs of their requests
(40_framer.md R118, R120–R130; log entry 2). -/

namespace Sys2Proof.Machine

variable {s : State}

/-! ## EXCHANGE's outcomes -/

theorem exchangePacket_closed (p : Packet) (h : s.link.linkOpen = false) :
    exchangePacket p s = (.err (.transportWrite .closed), s) := by
  unfold exchangePacket
  rw [linkWrite_closed _ h, bindOp_err]

theorem exchangePacket_writeFailed (p : Packet) (h : s.link.linkOpen = true) (hw : (nextDraw s).ok = false) :
    exchangePacket p s =
      (.err (.transportWrite .io), emit (.tx ((encodeFrame p).take (nextDraw s).count)) (drawn s)) := by
  unfold exchangePacket
  rw [linkWrite_failed _ h hw, bindOp_err]

theorem exchangePacket_readFailed (p : Packet) (h : s.link.linkOpen = true) (hw : (nextDraw s).ok = true)
    (hr : (nextDraw (drawn s)).ok = false) : exchangePacket p s =
      (.err (.transportRead .io), afterRead (expectedSize p) (emit (.tx (encodeFrame p)) (drawn s))) := by
  unfold exchangePacket
  rw [linkWrite_done _ h hw, bindOp_ok, linkRead_failed (s := emit (.tx (encodeFrame p)) (drawn s)) _ h hr,
    bindOp_err]

theorem exchangePacket_replied (p : Packet) (h : s.link.linkOpen = true) (hw : (nextDraw s).ok = true)
    (hr : (nextDraw (drawn s)).ok = true) : exchangePacket p s =
      (checkReply (expectedSize p) ((readBuffer (drawn s)).take (readCount (expectedSize p) (drawn s))),
        afterRead (expectedSize p) (emit (.tx (encodeFrame p)) (drawn s))) := by
  unfold exchangePacket
  rw [linkWrite_done _ h hw, bindOp_ok, linkRead_done (s := emit (.tx (encodeFrame p)) (drawn s)) _ h hr, bindOp_ok]
  rfl

/-- Of the request, EXCHANGE's answer depends on `replyLength` alone; the other fields show in what is transmitted, and
nowhere else (R115). -/
theorem exchangePacket_of_replyLength_eq {p p' : Packet} (h : p.replyLength = p'.replyLength) (s : State) :
    (exchangePacket p' s).1 = (exchangePacket p s).1 ∧ (exchangePacket p' s).2.link = (exchangePacket p s).2.link ∧
      (exchangePacket p' s).2.env = (exchangePacket p s).2.env := by
  have hsize : expectedSize p' = expectedSize p := by unfold expectedSize; rw [h]
  cases ho : s.link.linkOpen
  · rw [exchangePacket_closed p ho, exchangePacket_closed p' ho]
    exact ⟨rfl, rfl, rfl⟩
  cases hw : (nextDraw s).ok
  · rw [exchangePacket_writeFailed p ho hw, exchangePacket_writeFailed p' ho hw]
    exact ⟨rfl, rfl, rfl⟩
  cases hr : (nextDraw (drawn s)).ok
  · rw [exchangePacket_readFailed p ho hw hr, exchangePacket_readFailed p' ho hw hr, hsize]
    exact ⟨rfl, rfl, rfl⟩
  · rw [exchangePacket_replied p ho hw hr, exchangePacket_replied p' ho hw hr, hsize]
    exact ⟨rfl, rfl, rfl⟩

theorem exec_exchange (p : Packet) (s : State) : exec (.exchange p) s =
    .next (finish ((exchangePacket p (start s)).1.toValue .packet) (exchangePacket p (start s)).2) := rfl

/-- Settles O21: equal `replyLength`s give equal answers, and EXCHANGE never writes the sequencer or the image. -/
theorem replyHeaderIsNotCompared : Obligations.ReplyHeaderIsNotCompared := by
  intro p p' s t h ht
  rw [exec_exchange] at ht
  obtain rfl := Host.Outcome.next.inj ht
  obtain ⟨hres, hlink, henv⟩ := exchangePacket_of_replyLength_eq h (start s)
  exact ⟨_, exec_exchange p' s, by simp [hres], hlink, by simp, by simp, henv⟩

/-! ## The wire commands -/

/-- Each wire command is the EXCHANGE of its request (log entry 2). -/
theorem exec_ofCommand (c : Command) (a n : Half) (s : State) :
    exec (Instr.ofCommand c a n) s = exec (.exchange (mkreq s.par c a n)) s := by
  cases c <;> rfl

theorem exec_syncSeq (s : State) : exec .syncSeq s = exec (.write (syncBytes s.par)) s := rfl

/-- WRITE on an open link whose draw is ok (41_transport.md R153). -/
theorem exec_write_done (bs : Bytes) (h : s.link.linkOpen = true) (hd : (nextDraw s).ok = true) :
    exec (.write bs) s = .next (Safety.withOut (.ok .unit) [.tx bs] (Safety.withDraws 1 s)) := by
  change answer _ (linkWrite bs (start s)) = _
  rw [linkWrite_done (s := start s) bs h hd]
  rfl

/-- Settles O22: the request is MKREQ's packet, and SYNC_SEQ's bytes are those of 30_encoding.md R91. -/
theorem wireCommandsExchangeTheirRequests : Obligations.WireCommandsExchangeTheirRequests := by
  intro a n s
  refine ⟨fun c => ?_, rfl, rfl, rfl, rfl, rfl, rfl, rfl, rfl, rfl, rfl, rfl, exec_syncSeq s, fun ho hd => ?_⟩
  · rw [exec_ofCommand, mkreq_eq]
  · rw [exec_syncSeq]
    exact exec_write_done _ ho hd

/-- An EXCHANGE leaves `rx` as it was, or an end of what it held and what arrived (41_transport.md R154, R156). -/
theorem exchangePacket_rx_suffix (p : Packet) (s : State) : (exchangePacket p s).2.link.rx = s.link.rx ∨
    ∃ k, (exchangePacket p s).2.link.rx = (s.link.rx ++ (Safety.draw s (s.env.drawIdx + 1)).arrives).drop k := by
  rw [exchangePacket_rx]
  unfold Safety.rxAfterExchange
  split
  · exact .inr ⟨_, rfl⟩
  · exact .inl rfl

/-- Settles O23: a wire command is an EXCHANGE, which writes nothing but `rx`, the draw count and the outputs. -/
theorem wireCommandsCompleteWithFrame : Obligations.WireCommandsCompleteWithFrame := by
  intro c a n s
  rw [exec_ofCommand, exec_exchange]
  exact ⟨_, rfl, exchangePacket_seq _ (start s), exchangePacket_img _ (start s), exchangePacket_par _ (start s),
    exchangePacket_inputs _ (start s), exchangePacket_script _ (start s), exchangePacket_linkOpen _ (start s),
    exchangePacket_cfgPort _ (start s), exchangePacket_cfgReadTimeout _ (start s), exchangePacket_rx_suffix _ (start s)⟩

/-! ## A framed reply -/

/-- The reply's size that a command's EXCHANGE expects (30_encoding.md R86, 41_transport.md R157). -/
theorem expectedSize_mkreq (par : Params) (c : Command) (a n : Half) : expectedSize (mkreq par c a n) =
    10 + (if c = .readSingle then 1 else if c = .readBlock then n.toNat else 0) := by
  cases c <;> rfl

/-- A READ that may take a whole reply takes that reply, and leaves what follows it (41_transport.md R154). -/
theorem readCount_of_framed {reply rest : Bytes} {max : Nat} (hbuf : readBuffer s = reply ++ rest)
    (hlen : reply.length = max) (hcount : reply.length ≤ (nextDraw s).count) : readCount max s = reply.length := by
  unfold readCount
  rw [hbuf, List.length_append]
  omega

/-- An EXCHANGE answered by a whole frame whose checksum matches (R156). -/
theorem exchangePacket_framed {p : Packet} {reply rest : Bytes} (ho : s.link.linkOpen = true)
    (hw : (nextDraw s).ok = true) (hr : (nextDraw (drawn s)).ok = true) (hbuf : readBuffer (drawn s) = reply ++ rest)
    (hlen : reply.length = expectedSize p) (hcount : reply.length ≤ (nextDraw (drawn s)).count)
    (hck : frameCk reply = halfAt reply 8) : exchangePacket p s =
      (.ok (frameFields reply), setRx rest (drawn (emit (.tx (encodeFrame p)) (drawn s)))) := by
  have h10 : 10 ≤ expectedSize p := Nat.le_add_right Config.hdr _
  have hread : readCount (expectedSize p) (drawn s) = reply.length := readCount_of_framed hbuf hlen hcount
  have hstate : afterRead (expectedSize p) (emit (.tx (encodeFrame p)) (drawn s)) =
      setRx ((readBuffer (drawn s)).drop (readCount (expectedSize p) (drawn s)))
        (drawn (emit (.tx (encodeFrame p)) (drawn s))) := rfl
  rw [exchangePacket_replied p ho hw hr, hstate, hread, hbuf, List.take_left, List.drop_left, checkReply_full hlen h10,
    decodePacket_match (by omega) hck]

/-- Settles O24: the EXCHANGE of the command's request reads exactly the reply, which decodes. -/
theorem wireCommandsReturnAFramedReply : Obligations.WireCommandsReturnAFramedReply := by
  intro c a n s reply rest ho hw hr hbuf hlen hcount hsum
  rw [← expectedSize_mkreq s.par c a n] at hlen
  rw [exec_ofCommand, exec_exchange,
    exchangePacket_framed (s := start s) ho hw hr hbuf hlen hcount (frameCk_eq_halfAt_iff.2 hsum)]
  rfl

end Sys2Proof.Machine
end

section
/-! SUPPORT. The transport's operations outcome by outcome (41_transport.md R151–R156), and the schedule's entries that
are no operation (R159 (1), 30_encoding.md R94, 93_implementation_defined.md I32; log entries 7, 9). -/

namespace Sys2Proof.Machine

variable {s : State}

/-! ## EXCHANGE -/

/-- A reply that EXCHANGE does not find incomplete has a whole header (R157). -/
theorem ten_le_expectedSize (p : Packet) : 10 ≤ expectedSize p := Nat.le_add_right Config.hdr _

/-- EXCHANGE's verdict on the bytes its READ returned, the errors in their order (R156, 60_exceptions.md R257 (2)): a
reply of the expected length is never too short to decode. -/
theorem checkReply_toValue {expected : Nat} (h : 10 ≤ expected) (r : Bytes) (f : Packet → Value) :
    (checkReply expected r).toValue f =
      if r.length = 0 then .err .protoNoReply
      else if r.length < expected then .err (.protoIncomplete r.length expected)
      else if frameCk r ≠ halfAt r 8 then .err (.protoChecksum (frameCk r) (halfAt r 8))
      else .ok (f (frameFields r)) := by
  unfold checkReply
  split
  · rfl
  split
  · rfl
  split
  · rw [decodePacket_mismatch (by omega) ‹_›]; rfl
  · rw [decodePacket_match (by omega) (not_not.1 ‹_›)]; rfl

/-- Settles O20: the four outcomes of EXCHANGE's WRITE and READ, and the verdict on what READ returned. -/
theorem exchangeOutcomes : Obligations.ExchangeOutcomes := by
  intro p s
  simp only [exec_exchange]
  refine ⟨fun ho => ?_, fun ho hw => ?_, fun ho hw => ⟨_, _, _, rfl, rfl, rfl, ?_⟩⟩
  · rw [exchangePacket_closed (s := start s) p ho]; rfl
  · rw [exchangePacket_writeFailed (s := start s) p ho hw]; rfl
  · cases hr : (Safety.draw s (s.env.drawIdx + 1)).ok
    · rw [exchangePacket_readFailed (s := start s) p ho hw hr, if_pos rfl]; rfl
    · rw [exchangePacket_replied (s := start s) p ho hw hr, checkReply_toValue (ten_le_expectedSize p),
        if_neg (show ¬true = false by decide)]
      rfl

/-! ## WRITE and SYNCHRONIZE -/

theorem exec_write (bs : Bytes) (s : State) : exec (.write bs) s =
    .next (finish ((linkWrite bs (start s)).1.toValue fun _ => .unit) (linkWrite bs (start s)).2) := rfl

theorem exec_write_closed (bs : Bytes) (h : s.link.linkOpen = false) :
    exec (.write bs) s = .next (Safety.withOut (.err (.transportWrite .closed)) [] s) := by
  rw [exec_write, linkWrite_closed (s := start s) bs h]
  rfl

theorem exec_write_failed (bs : Bytes) (h : s.link.linkOpen = true) (hd : (nextDraw s).ok = false) :
    exec (.write bs) s = .next (Safety.withOut (.err (.transportWrite .io)) [.tx (bs.take (nextDraw s).count)]
      (Safety.withDraws 1 s)) := by
  rw [exec_write, linkWrite_failed (s := start s) bs h hd]
  rfl

/-- Settles O17: WRITE's outcomes, and taking more bytes than there are is taking all of them. -/
theorem writeOutcomes : Obligations.WriteOutcomes := by
  intro bs s
  refine ⟨exec_write_closed bs, exec_write_done bs, fun ho hd => ⟨_, Nat.min_le_right _ _, rfl, ?_⟩⟩
  rw [← List.take_eq_take_min]
  exact exec_write_failed bs ho hd

theorem exec_synchronize (s : State) : exec .synchronize s = exec (.write (syncBytes s.par)) s := rfl

/-- Settles O19: SYNCHRONIZE is the WRITE of the synchronize sequence. -/
theorem synchronizeSendsTheSequence : Obligations.SynchronizeSendsTheSequence := by
  intro s
  simp only [exec_synchronize]
  exact ⟨syncBytes s.par, rfl, rfl, exec_write_closed _, exec_write_done _, exec_write_failed _⟩

/-! ## READ -/

theorem exec_read (max : Nat) (s : State) : exec (.read max) s =
    .next (finish ((linkRead max (start s)).1.toValue .bytes) (linkRead max (start s)).2) := rfl

/-- Settles O18: READ's outcomes; on an open link both leave the same buffer. -/
theorem readOutcomes : Obligations.ReadOutcomes := by
  intro max s
  simp only [exec_read]
  refine ⟨fun ho => ?_, fun ho => ⟨_, _, rfl, rfl, ?_⟩⟩
  · rw [linkRead_closed (s := start s) max ho]; rfl
  · cases hd : (Safety.draw s s.env.drawIdx).ok
    · rw [linkRead_failed (s := start s) max ho hd]; rfl
    · rw [linkRead_done (s := start s) max ho hd]; rfl

/-! ## OPEN and CLOSE -/

theorem SeqState.isIdle_eq_false {sc : SeqState} (hi : sc ≠ .init) (hr : sc ≠ .ready) : sc.isIdle = false :=
  Bool.eq_false_iff.2 (mt isIdle_iff.1 (not_or.2 ⟨hi, hr⟩))

/-- OPEN's outcomes (R151). -/
theorem openPort_busy (port : PortId) (t : ReadTimeout) (h : s.seq.sc.isIdle = false) :
    openPort port t s = (.err .stateBusy, s) := if_pos h

theorem openPort_done (port : PortId) (t : ReadTimeout) (h : s.seq.sc.isIdle = true) (hd : (nextDraw s).ok = true) :
    openPort port t s = (.ok (), drawn { s with
      link := { linkOpen := true, cfgPort := some port, cfgReadTimeout := t, rx := [] } }) := by
  simp [openPort, h, hd]

theorem openPort_failed (port : PortId) (t : ReadTimeout) (h : s.seq.sc.isIdle = true) (hd : (nextDraw s).ok = false) :
    openPort port t s = (.err (.transportOpen port), drawn (setLinkOpen false s)) := by
  simp [openPort, h, hd]

theorem exec_openLink (port : PortId) (t : ReadTimeout) (s : State) : exec (.openLink port t) s =
    .next (finish ((openPort port t (start s)).1.toValue fun _ => .unit) (openPort port t (start s)).2) := rfl

/-- Settles O15: OPEN's outcomes, its gate written as the two idle states. -/
theorem openOutcomes : Obligations.OpenOutcomes := by
  intro port t s
  simp only [exec_openLink]
  refine ⟨fun hi hr => ?_, fun hidle hd => ?_, fun hidle hd => ?_⟩
  · rw [openPort_busy (s := start s) port t (SeqState.isIdle_eq_false hi hr)]; rfl
  · rw [openPort_done (s := start s) port t (SeqState.isIdle_iff.2 hidle) hd]; rfl
  · rw [openPort_failed (s := start s) port t (SeqState.isIdle_iff.2 hidle) hd]; rfl

/-- CLOSE's outcomes (R152). -/
theorem closePort_busy (h : s.seq.sc.isIdle = false) : closePort s = (.err .stateBusy, s) := if_pos h

theorem closePort_done (h : s.seq.sc.isIdle = true) : closePort s = (.ok (), setLinkOpen false s) := by
  simp [closePort, h]

theorem exec_closeLink (s : State) : exec .closeLink s =
    .next (finish ((closePort (start s)).1.toValue fun _ => .unit) (closePort (start s)).2) := rfl

theorem exec_closeLink_done (h : s.seq.sc.isIdle = true) : exec .closeLink s =
    .next (Safety.withOut (.ok .unit) [] { s with link := { s.link with linkOpen := false } }) := by
  rw [exec_closeLink, closePort_done (s := start s) h]
  rfl

/-- Settles O16: CLOSE's outcomes; closing a closed link writes the value it has. -/
theorem closeOutcomes : Obligations.CloseOutcomes := by
  intro s
  refine ⟨fun hi hr => ?_, fun hidle => exec_closeLink_done (SeqState.isIdle_iff.2 hidle), fun hidle ho => ?_⟩
  · rw [exec_closeLink, closePort_busy (s := start s) (SeqState.isIdle_eq_false hi hr)]; rfl
  · rw [exec_closeLink_done (SeqState.isIdle_iff.2 hidle), ← ho]

/-! ## Entries that are no operation -/

theorem step_of_inputs_nil (h : s.inputs = []) : step s = .fault .hostIdle := by
  simp only [step, fetch, h]

theorem step_of_arrive {bs : Bytes} {rest : List Input} (h : s.inputs = .arrive bs :: rest) :
    step s = .next (arriveBytes bs { s with inputs := rest }) := by
  rw [← consumeInput_of_inputs h]
  simp only [step, fetch, h]

theorem step_of_decode_comment {e : Encoded} {rest : List Input} (h : s.inputs = .host e :: rest)
    (hd : decode s.par e = .comment) : step s = .next { s with inputs := rest } := by
  rw [← consumeInput_of_inputs h]
  simp only [step, fetch, h, hd]

theorem step_of_decode_reject {e : Encoded} {r : DecodeError} {rest : List Input} (h : s.inputs = .host e :: rest)
    (hd : decode s.par e = .reject r) : step s = .refused (.undecodable r) := by
  simp only [step, fetch, h, hd]

/-- An arrival on an open and on a closed link (R159 (1); log entry 7). -/
theorem arriveBytes_open (bs : Bytes) (h : s.link.linkOpen = true) : arriveBytes bs s = setRx (s.link.rx ++ bs) s :=
  if_pos h

theorem arriveBytes_closed (bs : Bytes) (h : s.link.linkOpen = false) : arriveBytes bs s = s := if_neg (by simp [h])

/-- Settles O6: one kind of entry at a time. -/
theorem stepOnEntriesThatAreNoOperation : Obligations.StepOnEntriesThatAreNoOperation := by
  intro s rest
  refine ⟨step_of_inputs_nil, fun bs hin ho => ?_, fun bs hin ho => ?_, fun _ => step_of_decode_comment,
    fun _ _ => step_of_decode_reject⟩
  · rw [step_of_arrive hin, arriveBytes_open (s := { s with inputs := rest }) bs ho]; rfl
  · rw [step_of_arrive hin, arriveBytes_closed (s := { s with inputs := rest }) bs ho]

end Sys2Proof.Machine
end

section
/-! SUPPORT. The Memory Image's operations outcome by outcome (42_image.md R181–R185), and who makes an image valid
(R186, 10_state.md R35). -/

namespace Sys2Proof.Machine

variable {s t u : State} {i : Instr}

/-! ## SET_CAPACITY -/

theorem isPowerOfTwo_iff {n : Nat} : isPowerOfTwo n ↔ ∃ k, n = 2 ^ k := by
  constructor
  · exact fun h => ⟨n.log2, h⟩
  · rintro ⟨k, rfl⟩
    rw [isPowerOfTwo, Nat.log2_two_pow]

theorem capacityOk_iff {imageMax n : Nat} : capacityOk imageMax n = true ↔ (∃ k, n = 2 ^ k) ∧ n ≤ imageMax := by
  rw [capacityOk, Bool.and_eq_true, decide_eq_true_eq, decide_eq_true_eq, isPowerOfTwo_iff]

/-- An image without cells reads zero everywhere (10_state.md R34). -/
theorem Memory.readBytes_nil (off n : Nat) : Memory.readBytes [] off n = List.replicate n 0x00 := by
  induction n generalizing off with
  | zero => rfl
  | succ n ih => rw [Memory.readBytes, ih, List.replicate_succ]; rfl

theorem exec_setCapacity (n : Nat) (s : State) : exec (.setCapacity n) s =
    .next (finish ((imageSetCapacity n (start s)).1.toValue fun _ => .unit) (imageSetCapacity n (start s)).2) := rfl

/-- Settles O25: SET_CAPACITY's check is that of its two outcomes, and a fresh image's bytes are all zero. -/
theorem setCapacityOutcomes : Obligations.SetCapacityOutcomes := by
  intro n s
  rw [exec_setCapacity]
  constructor
  · intro hpow hmax
    rw [imageSetCapacity_ok (s := start s) (capacityOk_iff.2 ⟨hpow, hmax⟩)]
    exact ⟨{ capacity := n, data := [], valid := false }, rfl, Memory.readBytes_nil 0 n, rfl, rfl⟩
  · intro hbad
    have hno : ¬((∃ k, n = 2 ^ k) ∧ n ≤ s.par.imageMax) := by rwa [not_and_or, Nat.not_le]
    rw [imageSetCapacity_bounds (s := start s) (Bool.eq_false_iff.2 (mt capacityOk_iff.1 hno))]
    rfl

/-! ## WRITE_AT -/

/-- The two halves of reading after `MemWrite` (R182): byte `i` of what was written, and a byte outside the range. -/
theorem Memory.read_writeBytes_inside {m : Memory} {off j : Nat} {bs : Bytes} (h : m.wf = true) (hj : j < bs.length) :
    (m.writeBytes off bs).read (off + j) = bs.getD j 0x00 := by
  rw [Memory.read_writeBytes off _ bs h, if_pos (by omega), Nat.add_sub_cancel_left]

theorem Memory.read_writeBytes_outside {m : Memory} {off x : Nat} {bs : Bytes} (h : m.wf = true)
    (hx : x < off ∨ off + bs.length ≤ x) : (m.writeBytes off bs).read x = m.read x := by
  rw [Memory.read_writeBytes off x bs h, if_neg (by omega)]

theorem exec_writeAt (off : Nat) (bs : Bytes) (s : State) : exec (.writeAt off bs) s =
    .next (finish ((imageWriteAt off bs (start s)).1.toValue fun _ => .unit) (imageWriteAt off bs (start s)).2) := rfl

/-- Settles O26: WRITE_AT's two outcomes, and what a write leaves of a canonical image byte by byte. -/
theorem writeAtOutcomes : Obligations.WriteAtOutcomes := by
  intro off bs s hwf
  rw [exec_writeAt]
  constructor
  · intro hfit
    rw [imageWriteAt_ok (s := start s) hfit]
    exact ⟨s.img.data.writeBytes off bs, rfl, Memory.wf_writeBytes off bs hwf,
      fun _ => Memory.read_writeBytes_inside hwf, fun _ => Memory.read_writeBytes_outside hwf⟩
  · intro hpast
    rw [imageWriteAt_bounds (s := start s) hpast]
    rfl

/-! ## MARK_VALID, IS_VALID and SNAPSHOT -/

theorem exec_markValid (s : State) : exec .markValid s =
    .next (Safety.withOut (.ok .unit) [] { s with img := { s.img with valid := true } }) := rfl

theorem exec_isValid (s : State) : exec .isValid s = .next (Safety.withOut (.ok (.flag s.img.valid)) [] s) := rfl

theorem exec_snapshot (s : State) : exec .snapshot s =
    .next (Safety.withOut ((imageSnapshot s).toValue .bytes) [] s) := rfl

/-- SNAPSHOT's two outcomes (R185). -/
theorem imageSnapshot_valid (h : s.img.valid = true) : imageSnapshot s = .ok s.img.bytes := if_pos h

theorem imageSnapshot_notValid (h : s.img.valid = false) : imageSnapshot s = .err .stateNotValid :=
  if_neg (Bool.eq_false_iff.1 h)

/-- Settles O27: a valid image's snapshot is its bytes in offset order. -/
theorem validityOperations : Obligations.ValidityOperations := by
  intro s
  refine ⟨exec_markValid s, exec_isValid s, fun hvalid => ?_, fun hinvalid => ?_⟩
  · refine ⟨s.img.bytes, ?_, Image.length_bytes s.img, Image.getElem?_bytes s.img⟩
    rw [exec_snapshot, imageSnapshot_valid hvalid]
    rfl
  · rw [exec_snapshot, imageSnapshot_notValid hinvalid]
    rfl

/-! ## Who makes an image valid -/

/-- The image is as it was in `s`, or it is invalid. -/
def KeepsOrInvalidates (s t : State) : Prop := t.img = s.img ∨ t.img.valid = false

theorem KeepsOrInvalidates.of_img (h : KeepsOrInvalidates s t) (himg : u.img = t.img) : KeepsOrInvalidates s u := by
  unfold KeepsOrInvalidates; rwa [himg]

theorem imageSetCapacity_keepsOrInvalidates (n : Nat) (s : State) : KeepsOrInvalidates s (imageSetCapacity n s).2 := by
  cases hok : capacityOk s.par.imageMax n
  · rw [imageSetCapacity_bounds hok]; exact .inl rfl
  · rw [imageSetCapacity_ok hok]; exact .inr rfl

theorem imageWriteAt_keepsOrInvalidates (off : Nat) (bs : Bytes) (h : KeepsOrInvalidates s t) :
    KeepsOrInvalidates s (imageWriteAt off bs t).2 := by
  by_cases hfit : off + bs.length ≤ t.img.capacity
  · rw [imageWriteAt_ok hfit]; exact .inr rfl
  · rw [imageWriteAt_bounds (by omega)]; exact h

theorem runUnit_keepsOrInvalidates (v : PlanUnit) (s : State) : KeepsOrInvalidates s (runUnit v s).2 :=
  runUnit_keeps (KeepsOrInvalidates s) v s (fun p => .inl (exchangePacket_img p s))
    (fun off bs _ h => imageWriteAt_keepsOrInvalidates off bs h) fun _ _ h => h

theorem prepareDump_keepsOrInvalidates (p : ReadPlan) (s : State) : KeepsOrInvalidates s (prepareDump p s) :=
  imageSetCapacity_keepsOrInvalidates p.size (setByteCount 0 (takeLock s))

/-- STEP writes the image in DUMP_BEGIN and DUMP, which leave a changed one invalid, and in DUMP_END, which makes it
valid (43_sequencer.md R211–R213). -/
theorem tick_img_cases (h : tick s = some t) :
    KeepsOrInvalidates s t ∨ (s.seq.sc = .dumpEnd ∧ t.img = { s.img with valid := true }) := by
  rcases tick_cases h with ⟨-, rfl⟩ | ⟨-, rfl⟩ | ⟨-, -, rfl⟩ | ⟨-, p, -, hsync⟩ | ⟨-, -, rfl⟩ | ⟨-, -, v, -, hunit⟩ |
    ⟨hs, rfl⟩ | ⟨-, rfl⟩ | ⟨-, rfl⟩ | ⟨-, rfl⟩ | ⟨-, rfl⟩
  iterate 3 exact .inl (.inl rfl)
  · refine .inl ((prepareDump_keepsOrInvalidates p s).of_img ?_)
    rcases hsync with ⟨-, rfl⟩ | ⟨e, -, rfl⟩ <;> simp
  · exact .inl (.inl rfl)
  · refine .inl (KeepsOrInvalidates.of_img (t := (runUnit v (consumeTick s)).2) (runUnit_keepsOrInvalidates v _) ?_)
    rcases hunit with ⟨-, rfl⟩ | ⟨e, -, rfl⟩ <;> simp
  · exact .inr ⟨hs, rfl⟩
  iterate 2 exact .inl (.inl rfl)
  iterate 2 exact .inl (.inl (by simp))

/-- Everything an instruction can do to the image: leave it, leave it invalid, or mark it valid as it is. -/
theorem exec_img_cases (h : exec i s = .next t) :
    KeepsOrInvalidates s t ∨
    ((i = .markValid ∨ i = .step ∧ s.seq.sc = .dumpEnd) ∧ t.img = { s.img with valid := true }) := by
  obtain ⟨u, hu, -, -, himg, -⟩ := exec_next h
  rw [himg]
  rcases effect_img_cases hu with hkeep | ⟨n, -, rfl⟩ | ⟨off, bs, -, rfl⟩ | ⟨rfl, rfl⟩ | ⟨v, -, rfl⟩ | ⟨rfl, htick⟩
  · exact .inl (.inl (himg.trans hkeep))
  · exact .inl ((imageSetCapacity_keepsOrInvalidates n (start s)).of_img himg)
  · exact .inl ((imageWriteAt_keepsOrInvalidates (s := start s) off bs (.inl rfl)).of_img himg)
  · exact .inr ⟨.inl rfl, rfl⟩
  · exact .inl ((runUnit_keepsOrInvalidates v (start s)).of_img himg)
  · rcases tick_img_cases htick with hkeep | ⟨hsc, hmark⟩
    · exact .inl (hkeep.of_img himg)
    · exact .inr ⟨.inr ⟨rfl, hsc⟩, hmark⟩

/-- Settles O48: marking an image valid changes none of its contents, and no other change of it leaves it valid. -/
theorem onlyCompletionMakesTheImageValid : Obligations.OnlyCompletionMakesTheImageValid := by
  intro i s t h
  rcases exec_img_cases h with (hsame | hinvalid) | ⟨hwho, hmark⟩
  · rw [hsame]
    exact ⟨fun hf ht => absurd (hf.symm.trans ht) Bool.false_ne_true, fun hc => by simp at hc⟩
  · exact ⟨fun _ ht => absurd (hinvalid.symm.trans ht) Bool.false_ne_true, fun _ => hinvalid⟩
  · rw [hmark]
    exact ⟨fun _ _ => hwho, fun hc => by simp at hc⟩

end Sys2Proof.Machine
end

section
/-! SUPPORT. The read plans, unit by unit, and which offset each of their blocks covers (43_sequencer.md R202–R205). -/

namespace Sys2Proof.Machine

variable {us vs : List PlanUnit} {base x j : Nat}

theorem getElem?_planBank (h : j < 16) : (planBank base)[j]? =
    some (.block (BitVec.ofNat 16 (0x1000 + j * 256)) (base + j * 256) 256) := by
  unfold planBank
  rw [List.getElem?_map, List.getElem?_range h]
  rfl

@[simp] theorem length_planBank (base : Nat) : (planBank base).length = 16 := rfl

theorem planNone_units : planNone.units = planBank 0 := rfl

theorem planF8_units : planF8.units = [.hotspot 0x1FF8] ++ planBank 0 ++ [.hotspot 0x1FF9] ++ planBank 0x1000 := rfl

/-- Unit `j` of `us` is a block whose bytes include offset `x`. -/
def CoversAt (us : List PlanUnit) (x j : Nat) : Prop :=
  ∃ a off n, us[j]? = some (.block a off n) ∧ off ≤ x ∧ x < off + n.toNat

/-- Block `j` of a bank covers the 256 offsets from `base + j·256` on. -/
theorem coversAt_planBank : CoversAt (planBank base) x j ↔ j < 16 ∧ base + j * 256 ≤ x ∧ x < base + j * 256 + 256 := by
  constructor
  · rintro ⟨a, off, n, hu, hlow, hhigh⟩
    have hj : j < 16 := (List.getElem?_eq_some_iff.1 hu).1
    rw [getElem?_planBank hj] at hu
    cases hu
    exact ⟨hj, hlow, hhigh⟩
  · rintro ⟨hj, hlow, hhigh⟩
    exact ⟨_, _, _, getElem?_planBank hj, hlow, hhigh⟩

theorem coversAt_append : CoversAt (us ++ vs) x j ↔ CoversAt us x j ∨ us.length ≤ j ∧ CoversAt vs x (j - us.length) := by
  rcases Nat.lt_or_ge j us.length with h | h
  · simp [CoversAt, List.getElem?_append_left h, Nat.not_le.2 h]
  · simp [CoversAt, List.getElem?_append_right h, h]

theorem not_coversAt_hotspot (a : Half) : ¬ CoversAt [.hotspot a] x j := by
  rintro ⟨_, _, _, hu, -⟩
  cases List.mem_of_getElem? hu with
  | tail _ h => cases h

theorem coversAt_planNone : CoversAt planNone.units x j ↔ j < 16 ∧ j * 256 ≤ x ∧ x < j * 256 + 256 := by
  simpa [planNone_units] using coversAt_planBank (base := 0)

/-- F8's banks stand behind one hotspot each, so their blocks begin at units 1 and 18. -/
theorem coversAt_planF8 : CoversAt planF8.units x j ↔
    (1 ≤ j ∧ j < 17 ∧ (j - 1) * 256 ≤ x ∧ x < (j - 1) * 256 + 256) ∨
    (18 ≤ j ∧ j < 34 ∧ 4096 + (j - 18) * 256 ≤ x ∧ x < 4096 + (j - 18) * 256 + 256) := by
  simp only [planF8_units, coversAt_append, coversAt_planBank, not_coversAt_hotspot, List.length_append, List.length_singleton,
    length_planBank, false_or, and_false, or_false]
  omega

/-- Each offset of a plan's image lies in one block (which the spec derives from R203 and R204). -/
theorem existsUnique_coversAt {k : Strategy} {p : ReadPlan} (hp : readPlan k = some p) (hx : x < p.size) :
    ∃ i, i < p.units.length ∧ ∀ j, CoversAt p.units x j ↔ j = i := by
  cases k <;> cases hp
  case none =>
    change x < 4096 at hx
    refine ⟨x / 256, ?_, fun j => coversAt_planNone.trans (by omega)⟩
    change x / 256 < 16
    omega
  case f8 =>
    change x < 8192 at hx
    by_cases hbank : x < 4096
    · refine ⟨1 + x / 256, ?_, fun j => coversAt_planF8.trans (by omega)⟩
      change 1 + x / 256 < 34
      omega
    · refine ⟨18 + (x - 4096) / 256, ?_, fun j => coversAt_planF8.trans (by omega)⟩
      change 18 + (x - 4096) / 256 < 34
      omega

/-- Settles O28: the plans are banks of blocks, F8's with a hotspot before each. -/
theorem readPlansUnitByUnit : Obligations.ReadPlansUnitByUnit := by
  refine ⟨fun k hnone hf8 => ?_, ⟨planNone, rfl, rfl, rfl, fun i hi => ?_⟩,
    ⟨planF8, rfl, rfl, rfl, rfl, rfl, by decide, by decide⟩, fun _ _ hp _ hx => existsUnique_coversAt hp hx⟩
  · cases k
    case none => exact absurd rfl hnone
    case f8 => exact absurd rfl hf8
    all_goals rfl
  · simpa [planNone_units] using getElem?_planBank (base := 0) hi

end Sys2Proof.Machine
end

section
/-! SUPPORT. EXEC_UNIT outcome by outcome (43_sequencer.md R206): the EXCHANGE of the unit's request, and for a block the
WRITE_AT of its payload. -/

namespace Sys2Proof.Machine

variable {s t : State} {a n : Half} {off : Nat} {q : Packet} {e : Err}

/-! ## The outcomes -/

theorem runUnit_hotspot_of_ok (h : exchangePacket (mkreq s.par .readSingle a 1) s = (.ok q, t)) :
    runUnit (.hotspot a) s = (.ok (), t) := by
  simp only [runUnit, h, bindOp_ok]

theorem runUnit_hotspot_of_err (h : exchangePacket (mkreq s.par .readSingle a 1) s = (.err e, t)) :
    runUnit (.hotspot a) s = (.err e, t) := by
  simp only [runUnit, h, bindOp_err]

/-- What a block writes once its packet is there (42_image.md R182): the payload at `off`, and its length to the byte
count. -/
def storeBlock (off : Nat) (bs : Bytes) (t : State) : State :=
  { t with
    img := { capacity := t.img.capacity, data := t.img.data.writeBytes off bs, valid := false }
    seq := { t.seq with byteCount := t.seq.byteCount + bs.length } }

theorem runUnit_block_stored (h : exchangePacket (mkreq s.par .readBlock a n) s = (.ok q, t))
    (hfit : off + q.payload.length ≤ t.img.capacity) :
    runUnit (.block a off n) s = (.ok (), storeBlock off q.payload t) := by
  simp only [runUnit, h, bindOp_ok, imageWriteAt_ok hfit]
  rfl

theorem runUnit_block_bounds (h : exchangePacket (mkreq s.par .readBlock a n) s = (.ok q, t))
    (hpast : t.img.capacity < off + q.payload.length) :
    runUnit (.block a off n) s = (.err (.boundsWrite off q.payload.length), t) := by
  simp only [runUnit, h, bindOp_ok, imageWriteAt_bounds hpast, bindOp_err]

theorem runUnit_block_of_err (h : exchangePacket (mkreq s.par .readBlock a n) s = (.err e, t)) :
    runUnit (.block a off n) s = (.err e, t) := by
  simp only [runUnit, h, bindOp_err]

theorem exec_execUnit (v : PlanUnit) (s : State) : exec (.execUnit v) s =
    .next (finish ((runUnit v (start s)).1.toValue fun _ => .unit) (runUnit v (start s)).2) := rfl

theorem exec_execUnit_of_runUnit {v : PlanUnit} {r : Res Unit} (h : runUnit v (start s) = (r, t)) :
    exec (.execUnit v) s = .next (finish (r.toValue fun _ => .unit) t) := by
  rw [exec_execUnit, h]

/-! ## Against the EXCHANGE of the request -/

/-- Settles O29: the hotspot ends where its EXCHANGE does, an error with the EXCHANGE's own result. -/
theorem hotspotUnitOutcomes : Obligations.HotspotUnitOutcomes := by
  intro a s
  rw [exec_exchange]
  refine ⟨_, rfl, ?_⟩
  rcases hx : exchangePacket (mkreq s.par .readSingle a 1) (start s) with ⟨q | e, t⟩
  · exact .inl ⟨q, rfl, exec_execUnit_of_runUnit (runUnit_hotspot_of_ok hx)⟩
  · exact .inr ⟨e, rfl, exec_execUnit_of_runUnit (runUnit_hotspot_of_err hx)⟩

/-- Settles O30: the EXCHANGE leaves image and byte count, and the payload has the length asked for. -/
theorem blockUnitOutcomes : Obligations.BlockUnitOutcomes := by
  intro a off n s
  rw [exec_exchange]
  refine ⟨_, rfl, ?_⟩
  rcases hx : exchangePacket (mkreq s.par .readBlock a n) (start s) with ⟨q | e, t⟩
  · have hlen : q.payload.length = n.toNat := exchangePacket_payload hx
    have hseq : t.seq = s.seq := by simpa [hx] using exchangePacket_seq (mkreq s.par .readBlock a n) (start s)
    have himg : t.img = s.img := by simpa [hx] using exchangePacket_img (mkreq s.par .readBlock a n) (start s)
    refine .inl ⟨q, rfl, hlen, ?_⟩
    rw [← himg, ← hseq, ← hlen]
    rcases Nat.lt_or_ge t.img.capacity (off + q.payload.length) with hpast | hfit
    · exact .inr ⟨hpast, exec_execUnit_of_runUnit (runUnit_block_bounds hx hpast)⟩
    · exact .inl ⟨hfit, exec_execUnit_of_runUnit (runUnit_block_stored hx hfit)⟩
  · exact .inr ⟨e, rfl, exec_execUnit_of_runUnit (runUnit_block_of_err hx)⟩

/-! ## A whole reply -/

/-- The state an EXCHANGE answered by a whole frame leaves: its request sent, two draws made, the reply taken from `rx`. -/
def afterExchange (p : Packet) (rest : Bytes) (s : State) : State :=
  setRx rest (drawn (emit (.tx (encodeFrame p)) (drawn s)))

section
variable {reply rest : Bytes} (ho : s.link.linkOpen = true) (hw : (nextDraw s).ok = true)
  (hr : (nextDraw (drawn s)).ok = true) (hbuf : readBuffer (drawn s) = reply ++ rest)
  (hcount : reply.length ≤ (nextDraw (drawn s)).count) (hck : frameCk reply = halfAt reply 8)
include ho hw hr hbuf hcount hck

theorem runUnit_hotspot_framed (hlen : reply.length = 11) :
    runUnit (.hotspot a) s = (.ok (), afterExchange (mkreq s.par .readSingle a 1) rest s) :=
  runUnit_hotspot_of_ok (exchangePacket_framed ho hw hr hbuf hlen hcount hck)

theorem runUnit_block_framed (hlen : reply.length = 10 + n.toNat) (hfit : off + n.toNat ≤ s.img.capacity) :
    runUnit (.block a off n) s =
      (.ok (), storeBlock off (reply.drop 10) (afterExchange (mkreq s.par .readBlock a n) rest s)) := by
  refine runUnit_block_stored
    (exchangePacket_framed (p := mkreq s.par .readBlock a n) ho hw hr hbuf hlen hcount hck) ?_
  change off + (reply.drop 10).length ≤ s.img.capacity
  rwa [List.length_drop, hlen, Nat.add_sub_cancel_left]

end

/-- Byte `i` of a frame's payload (30_encoding.md R83). -/
theorem getD_drop_ten (f : Bytes) (i : Nat) : (f.drop 10).getD i 0x00 = byteAt f (10 + i) := by
  simp [byteAt, List.getD_eq_getElem?_getD]

/-- Settles O31: both units after an EXCHANGE that took the reply whole, the block's write read back byte by byte. -/
theorem unitsCompleteOnAFramedReply : Obligations.UnitsCompleteOnAFramedReply := by
  intro a n off s reply rest ho hw hr hbuf hcount hsum
  have hck : frameCk reply = halfAt reply 8 := frameCk_eq_halfAt_iff.2 hsum
  refine ⟨fun hlen => ?_, fun hlen hfit hwf => ?_⟩
  · exact exec_execUnit_of_runUnit (runUnit_hotspot_framed (s := start s) ho hw hr hbuf hcount hck hlen)
  · have hpay : (reply.drop 10).length = n.toNat := by rw [List.length_drop, hlen, Nat.add_sub_cancel_left]
    refine ⟨s.img.data.writeBytes off (reply.drop 10), Memory.wf_writeBytes off _ hwf, fun i hi => ?_, fun x hx => ?_, ?_⟩
    · rw [Memory.read_writeBytes_inside hwf (hpay ▸ hi), getD_drop_ten]
    · exact Memory.read_writeBytes_outside hwf (by rwa [hpay])
    · rw [← hpay]
      exact exec_execUnit_of_runUnit (runUnit_block_framed (s := start s) ho hw hr hbuf hcount hck hlen hfit)

end Sys2Proof.Machine
end

section
/-! SUPPORT. The sequencer's operations outcome by outcome (43_sequencer.md R207, R218–R220), and STEP state by state
(R208–R217). -/

namespace Sys2Proof.Machine

variable {s t : State}

/-! ## SELECT_STRATEGY, REQUEST_DUMP, ABORT, GET_LAST_ARTIFACT -/

theorem exec_selectStrategy_busy (k : Strategy) (h : s.seq.sc.isIdle = false) :
    exec (.selectStrategy k) s = .next (Safety.withOut (.err .stateBusy) [] s) := if_pos h

theorem exec_selectStrategy_done (k : Strategy) (h : s.seq.sc.isIdle = true) : exec (.selectStrategy k) s =
    .next (Safety.withOut (.ok .unit) [] { s with seq := { s.seq with cfgStrategy := k } }) := if_neg (by simp [h])

/-- Settles O32: the gate is the two idle states. -/
theorem selectStrategyOutcomes : Obligations.SelectStrategyOutcomes := fun k _ =>
  ⟨fun hidle => exec_selectStrategy_done k (SeqState.isIdle_iff.2 hidle),
    fun hi hr => exec_selectStrategy_busy k (SeqState.isIdle_eq_false hi hr)⟩

theorem exec_requestDump_started (h : s.seq.sc = .ready) : exec .requestDump s =
    .next (Safety.withOut (.ok .started) [] { s with seq := { s.seq with sc := .dumpBegin } }) := if_neg (by simp [h])

theorem exec_requestDump_busy (h : s.seq.sc ≠ .ready) :
    exec .requestDump s = .next (Safety.withOut (.err .stateBusy) [] s) := if_pos h

theorem exec_abort_accepted (h : s.seq.sc.isAbortable = true) : exec .abort s =
    .next (Safety.withOut (.ok .accepted) [] { s with seq := { s.seq with sc := .dumpAbort } }) := if_pos h

theorem exec_abort_ignored (h : s.seq.sc.isAbortable = false) :
    exec .abort s = .next (Safety.withOut (.ok .ignored) [] s) := if_neg (by simp [h])

theorem SeqState.isAbortable_eq_false {sc : SeqState} (hb : sc ≠ .dumpBegin) (hd : sc ≠ .dump) :
    sc.isAbortable = false :=
  Bool.eq_false_iff.2 (mt isAbortable_iff.1 (not_or.2 ⟨hb, hd⟩))

/-- Settles O33: REQUEST_DUMP's gate is READY, ABORT's the two states in which a dump is under way. -/
theorem requestAndAbortOutcomes : Obligations.RequestAndAbortOutcomes := fun _ =>
  ⟨exec_requestDump_started, exec_requestDump_busy, fun hab => exec_abort_accepted (SeqState.isAbortable_iff.2 hab),
    fun hb hd => exec_abort_ignored (SeqState.isAbortable_eq_false hb hd)⟩

/-- Settles O34: GET_LAST_ARTIFACT by what the register holds. -/
theorem getLastArtifactOutcomes : Obligations.GetLastArtifactOutcomes := by
  intro s
  change (∀ name bs, _ → execGetLastArtifact s = _) ∧ (_ → execGetLastArtifact s = _)
  unfold execGetLastArtifact
  exact ⟨fun name bs h => by rw [h]; rfl, fun h => by rw [h]; rfl⟩

/-! ## STEP in INIT, READY, DUMP_END and on the way back -/

theorem exec_step_init (h : s.seq.sc = .init) : exec .step s =
    .next (Safety.withOut (.ok .unit) [] { s with seq := { s.seq with sc := .ready } }) :=
  exec_step_of_tick (tick_init (s := start s) h)

theorem exec_step_ready (h : s.seq.sc = .ready) : exec .step s = .next (Safety.withOut (.ok .unit) [] s) :=
  exec_step_of_tick (tick_ready (s := start s) h)

/-- Settles O35: INIT's work is the state change alone, READY has none. -/
theorem stepInIdleStates : Obligations.StepInIdleStates := fun _ => ⟨exec_step_init, exec_step_ready⟩

theorem exec_step_dumpEnd (h : s.seq.sc = .dumpEnd) : exec .step s =
    .next (Safety.withOut (.ok .unit) [.persist s.par.artifactName s.img.bytes] { s with
      img := { s.img with valid := true }
      seq := { s.seq with lastArtifact := some (s.par.artifactName, s.img.bytes), sc := .reset } }) :=
  exec_step_of_tick (tick_dumpEnd (s := start s) h)

/-- Settles O38: the artifact is the image's bytes, and `HostInv` gives the image the plan's size. -/
theorem stepInDumpEnd : Obligations.StepInDumpEnd := by
  intro s hsc
  refine ⟨s.img.bytes, s.img.length_bytes, s.img.getElem?_bytes, fun hh => ?_, exec_step_dumpEnd hsc⟩
  obtain ⟨p, hp, hcap, -⟩ := hh.complete hsc
  exact ⟨p, hp, s.img.length_bytes.trans hcap⟩

theorem exec_step_dumpTimeout (h : s.seq.sc = .dumpTimeout) : exec .step s =
    .next (Safety.withOut (.ok .unit) [.log .timeout] { s with seq := { s.seq with sc := .dumpFail } }) :=
  exec_step_of_tick (tick_dumpTimeout (s := start s) h)

theorem exec_step_dumpAbort (h : s.seq.sc = .dumpAbort) : exec .step s =
    .next (Safety.withOut (.ok .unit) [.log .abortRequested] { s with seq := { s.seq with sc := .dumpFail } }) :=
  exec_step_of_tick (tick_dumpAbort (s := start s) h)

/-- Releasing the lock: the register, and the notification where it was held (10_state.md R25). -/
theorem releaseLock_eq (s : State) : releaseLock s = { s with
    seq := { s.seq with lock := false }
    out := { result := s.out.result, events := s.out.events ++ if s.seq.lock then [.unlock] else [] } } := by
  rw [← releaseLock_seq s]
  cases hl : s.seq.lock <;> simp [releaseLock, hl, emit]

theorem exec_step_dumpFail (h : s.seq.sc = .dumpFail) : exec .step s =
    .next (Safety.withOut (.ok .unit) (if s.seq.lock then [.unlock, .aborted] else [.aborted])
      { s with seq := { s.seq with lock := false, sc := .reset } }) := by
  rw [exec_step_of_tick (tick_dumpFail (s := start s) h), stepDumpFail, leaveFailure, releaseLock_eq, start_seq]
  cases s.seq.lock <;> rfl

theorem exec_step_reset (h : s.seq.sc = .reset) : exec .step s =
    .next (Safety.withOut (.ok .unit) (if s.seq.lock then [.unlock] else [])
      { s with seq := { s.seq with lock := false, sc := .ready } }) := by
  rw [exec_step_of_tick (tick_reset (s := start s) h), stepReset, releaseLock_eq]
  rfl

/-- Settles O39: one state at a time. -/
theorem stepOnTheWayBack : Obligations.StepOnTheWayBack := fun _ =>
  ⟨exec_step_dumpTimeout, exec_step_dumpAbort, exec_step_dumpFail, exec_step_reset⟩

/-! ## STEP in DUMP_BEGIN -/

theorem exec_step_unsupported (hsc : s.seq.sc = .dumpBegin) (hp : readPlan s.seq.cfgStrategy = none) : exec .step s =
    .next (Safety.withOut (.ok .unit) [.log (.error .notSupported)] { s with seq := { s.seq with sc := .dumpFail } }) := by
  rw [exec_step_of_tick (tick_dumpBegin (s := start s) hsc), stepDumpBegin_unsupported (s := start s) hp]
  rfl

/-- The state of a supported dump's first step, past its preparation and its countdown (R211). -/
def dumpPrepared (size : Nat) (s : State) (sc : SeqState) : State :=
  { s with
    seq := { s.seq with sc := sc, lock := true, byteCount := 0, planIdx := 0, countdown := s.par.timeoutTicks }
    img := { capacity := size, data := [], valid := false } }

section
variable {p : ReadPlan} (hw : s.par.Wf) (hsc : s.seq.sc = .dumpBegin) (hp : readPlan s.seq.cfgStrategy = some p)
include hw hsc hp

/-- With a plan it is the WRITE of the synchronize sequence on the prepared state. -/
theorem exec_step_supported : exec .step s = .next (finish (.ok .unit) (afterSync (linkWrite (syncBytes s.par)
    { s with
      seq := { s.seq with lock := true, byteCount := 0, planIdx := 0 }
      img := { capacity := p.size, data := [], valid := false }
      out := { result := none, events := [.lock] } }))) := by
  rw [exec_step_of_tick (tick_dumpBegin (s := start s) hsc), stepDumpBegin_supported (s := start s) hp,
    prepareDump_eq (s := start s) hw hp]
  rfl

theorem exec_step_sync_closed (ho : s.link.linkOpen = false) : exec .step s = .next (Safety.withOut (.ok .unit)
    [.lock, .log (.error .transportWrite)] (dumpPrepared p.size s .dumpFail)) := by
  rw [exec_step_supported hw hsc hp, linkWrite_closed _ (by exact ho)]
  rfl

theorem exec_step_sync_failed (ho : s.link.linkOpen = true) (hd : (nextDraw s).ok = false) : exec .step s =
    .next (Safety.withOut (.ok .unit)
      [.lock, .tx ((syncBytes s.par).take (nextDraw s).count), .log (.error .transportWrite)]
      (Safety.withDraws 1 (dumpPrepared p.size s .dumpFail))) := by
  rw [exec_step_supported hw hsc hp, linkWrite_failed _ (by exact ho) (by exact hd)]
  rfl

theorem exec_step_sync_done (ho : s.link.linkOpen = true) (hd : (nextDraw s).ok = true) : exec .step s =
    .next (Safety.withOut (.ok .unit) [.lock, .tx (syncBytes s.par)]
      (Safety.withDraws 1 (dumpPrepared p.size s .dump))) := by
  rw [exec_step_supported hw hsc hp, linkWrite_done _ (by exact ho) (by exact hd)]
  rfl

end

theorem readPlan_eq_none {k : Strategy} (hnone : k ≠ .none) (hf8 : k ≠ .f8) : readPlan k = none :=
  readPlansUnitByUnit.1 k hnone hf8

/-- Settles O36: no plan, or the three outcomes of the synchronize sequence's WRITE. -/
theorem stepInDumpBegin : Obligations.StepInDumpBegin := by
  intro s hsc hw
  refine ⟨fun hnone hf8 => exec_step_unsupported hsc (readPlan_eq_none hnone hf8), fun size hsize => ?_⟩
  obtain ⟨p, hp, rfl⟩ : ∃ p, readPlan s.seq.cfgStrategy = some p ∧ p.size = size := by
    rcases hsize with ⟨hk, rfl⟩ | ⟨hk, rfl⟩ <;> rw [hk] <;> exact ⟨_, rfl, rfl⟩
  exact ⟨dumpPrepared p.size s, fun _ => rfl, exec_step_sync_closed hw hsc hp, exec_step_sync_failed hw hsc hp,
    exec_step_sync_done hw hsc hp⟩

/-! ## STEP in DUMP -/

theorem exec_step_noTicks (hsc : s.seq.sc = .dump) (h0 : s.seq.countdown = 0) : exec .step s =
    .next (Safety.withOut (.ok .unit) [] { s with seq := { s.seq with sc := .dumpTimeout } }) :=
  exec_step_of_tick ((tick_dump (s := start s) hsc).trans (stepDump_timeout (s := start s) h0))

/-- The state a unit that succeeded leads to: the plan's end wins over the last tick (R212). -/
def stateAfterUnit (s : State) : SeqState :=
  if s.seq.planIdx + 1 = (planUnits s.seq.cfgStrategy).length then .dumpEnd
  else if s.seq.countdown = 1 then .dumpTimeout else .dump

section
variable {v : PlanUnit} {e : Err} (hsc : s.seq.sc = .dump) (hc : 0 < s.seq.countdown)
  (hv : (planUnits s.seq.cfgStrategy)[s.seq.planIdx]? = some v)
include hsc hc

/-- Advancing the plan after a unit of `s` that left `t`. -/
theorem advancePlan_ticked
    (hseq : t.seq = { s.seq with countdown := s.seq.countdown - 1, byteCount := t.seq.byteCount }) :
    advancePlan t = { t with seq := { t.seq with planIdx := s.seq.planIdx + 1, sc := stateAfterUnit s } } := by
  have hlast : s.seq.countdown - 1 = 0 ↔ s.seq.countdown = 1 := by omega
  rw [advancePlan_eq, advancePlan_seq, hseq]
  simp only [hlast, hsc]
  rfl

include hv

/-- With ticks left STEP is the cursor's unit, once its tick is taken. -/
theorem exec_step_unit :
    exec .step s = .next (finish (.ok .unit) (afterUnit (runUnit v (consumeTick (start s))))) :=
  exec_step_of_tick ((tick_dump (s := start s) hsc).trans (stepDump_unit (s := start s) hc.ne' hv))

theorem exec_step_unit_ok (hr : runUnit v (consumeTick (start s)) = (.ok (), t)) :
    exec .step s = .next (Safety.withOut (.ok .unit) t.out.events
      { t with seq := { t.seq with planIdx := s.seq.planIdx + 1, sc := stateAfterUnit s } }) := by
  have hseq : t.seq = { s.seq with countdown := s.seq.countdown - 1, byteCount := t.seq.byteCount } := by
    simpa [hr] using runUnit_seq v (consumeTick (start s))
  rw [exec_step_unit hsc hc hv, hr, afterUnit, advancePlan_ticked hsc hc hseq]
  rfl

theorem exec_step_unit_err (hr : runUnit v (consumeTick (start s)) = (.err e, t)) :
    exec .step s = .next (Safety.withOut (.ok .unit) (t.out.events ++ [.log (.error e.kind)])
      { t with seq := { t.seq with sc := .dumpFail } }) := by
  rw [exec_step_unit hsc hc hv, hr]
  rfl

end

/-- Settles O37: EXEC_UNIT on the ticked state, then the cursor or the failure path. -/
theorem stepInDump : Obligations.StepInDump := by
  intro s hsc
  refine ⟨exec_step_noTicks hsc, fun v hc hv => ?_⟩
  rcases hr : runUnit v (consumeTick (start s)) with ⟨_ | e, t⟩
  · exact ⟨_, exec_execUnit_of_runUnit hr, .inl ⟨rfl, exec_step_unit_ok (t := t) hsc hc hv hr⟩⟩
  · exact ⟨_, exec_execUnit_of_runUnit hr, .inr ⟨e, rfl, exec_step_unit_err (t := t) hsc hc hv hr⟩⟩

/-! ## STEP never stops the machine -/

/-- Settles O40: only DUMP's step can fail to go on, and the invariant's cursor names a unit. -/
theorem stepAlwaysCompletes : Obligations.StepAlwaysCompletes := by
  intro s hs
  obtain ⟨t, ht⟩ : ∃ t, tick (start s) = some t := by
    cases hsc : s.seq.sc
    case dump =>
      rw [tick_dump (s := start s) hsc]
      by_cases h0 : s.seq.countdown = 0
      · exact ⟨_, stepDump_timeout (s := start s) h0⟩
      · exact ⟨_, stepDump_unit (s := start s) h0 (List.getElem?_eq_getElem (hs.cursor hsc))⟩
    all_goals simp [tick, hsc]
  exact ⟨_, exec_step_of_tick ht, rfl⟩

end Sys2Proof.Machine
end

section
/-! SUPPORT. The transition table (43_sequencer.md R201): which arc a STEP takes, and on what it depends. -/

namespace Sys2Proof.Machine

variable {s t : State} {i : Instr}

/-! ## The arcs of a STEP -/

theorem tick_mem_stepArcs (h : tick s = some t) : t.seq.sc ∈ Safety.stepArcs s.seq.sc := by
  rcases tick_cases h with ⟨hs, rfl⟩ | ⟨hs, rfl⟩ | ⟨hs, -, rfl⟩ | ⟨hs, p, -, hsync⟩ | ⟨hs, -, rfl⟩ | ⟨hs, -, v, -, hunit⟩ |
    ⟨hs, rfl⟩ | ⟨hs, rfl⟩ | ⟨hs, rfl⟩ | ⟨hs, rfl⟩ | ⟨hs, rfl⟩
  iterate 3 simp [hs, Safety.stepArcs]
  · rcases hsync with ⟨-, rfl⟩ | ⟨e, -, rfl⟩ <;> simp [hs, Safety.stepArcs]
  · simp [hs, Safety.stepArcs]
  · rcases hunit with ⟨-, rfl⟩ | ⟨e, -, rfl⟩
    · rw [advancePlan_seq]
      simp only [hs, Safety.stepArcs, runUnit_sc, consumeTick_seq]
      split
      · simp
      · split <;> simp
    · simp [hs, Safety.stepArcs]
  all_goals simp [hs, Safety.stepArcs, stepDumpEnd, stepDumpTimeout, stepDumpAbort]

/-- Every state has its arcs (R209–R217). -/
theorem exec_step_mem_stepArcs (h : exec .step s = .next t) : t.seq.sc ∈ Safety.stepArcs s.seq.sc := by
  obtain ⟨u, hu, rfl⟩ := exec_step_next h
  exact tick_mem_stepArcs (s := start s) (t := u) hu

/-- WRITE goes through where the link is open and the draw is ok (41_transport.md R153). -/
theorem linkWrite_ok_iff {bs : Bytes} :
    (linkWrite bs s).1 = .ok () ↔ s.link.linkOpen = true ∧ (nextDraw s).ok = true := by
  cases ho : s.link.linkOpen
  · simp [linkWrite_closed bs ho]
  · cases hd : (nextDraw s).ok
    · simp [linkWrite_failed bs ho hd]
    · simp [linkWrite_done bs ho hd]

theorem synchronizeLink_ok_iff :
    (synchronizeLink s).1 = .ok () ↔ s.link.linkOpen = true ∧ (nextDraw s).ok = true := linkWrite_ok_iff

/-- DUMP_BEGIN leads to DUMP where there is a plan and the synchronize sequence is written (R211). -/
theorem stepDumpBegin_eq_dump_iff (s : State) : (stepDumpBegin s).seq.sc = .dump ↔
    readPlan s.seq.cfgStrategy ≠ none ∧ s.link.linkOpen = true ∧ (nextDraw s).ok = true := by
  rcases stepDumpBegin_cases s with ⟨hp, e⟩ | ⟨p, hp, e⟩ <;> rw [e]
  · simp [hp]
  · have hsync : (synchronizeLink (prepareDump p s)).1 = .ok () ↔ s.link.linkOpen = true ∧ (nextDraw s).ok = true := by
      simpa using synchronizeLink_ok_iff (s := prepareDump p s)
    rw [← hsync]
    rcases afterSync_cases (synchronizeLink (prepareDump p s)) with ⟨hok, e⟩ | ⟨k, herr, e⟩ <;> rw [e]
    · simp [hp, hok]
    · simp [herr]

theorem exec_step_dumpBegin_eq_dump_iff (hsc : s.seq.sc = .dumpBegin) (h : exec .step s = .next t) :
    t.seq.sc = .dump ↔ readPlan s.seq.cfgStrategy ≠ none ∧ s.link.linkOpen = true ∧ (nextDraw s).ok = true := by
  obtain rfl := Host.Outcome.next.inj ((exec_step_of_tick (tick_dumpBegin (s := start s) hsc)).symm.trans h)
  exact stepDumpBegin_eq_dump_iff (start s)

/-! ## The arcs of DUMP -/

theorem stateAfterUnit_eq_dumpEnd_iff :
    stateAfterUnit s = .dumpEnd ↔ s.seq.planIdx + 1 = (planUnits s.seq.cfgStrategy).length := by
  unfold stateAfterUnit; split <;> [simp [*]; split <;> simp [*]]

theorem stateAfterUnit_eq_dumpTimeout_iff : stateAfterUnit s = .dumpTimeout ↔
    s.seq.countdown = 1 ∧ s.seq.planIdx + 1 ≠ (planUnits s.seq.cfgStrategy).length := by
  unfold stateAfterUnit; split <;> [simp [*]; split <;> simp [*]]

theorem stateAfterUnit_eq_dump_iff : stateAfterUnit s = .dump ↔
    s.seq.countdown ≠ 1 ∧ s.seq.planIdx + 1 ≠ (planUnits s.seq.cfgStrategy).length := by
  unfold stateAfterUnit; split <;> [simp [*]; split <;> simp [*]]

theorem stateAfterUnit_ne_dumpFail : stateAfterUnit s ≠ .dumpFail := by
  unfold stateAfterUnit; split <;> [simp; split <;> simp]

/-- The cursor's unit has one answer. -/
theorem unitAnswers_unique {r r' : Res Value} (h : Safety.unitAnswers s r) (h' : Safety.unitAnswers s r') : r = r' := by
  obtain ⟨v, -, hv, -⟩ := id h
  exact ((unitAnswers_iff hv).1 h).symm.trans ((unitAnswers_iff hv).1 h')

/-- What DUMP's step does to the sequencer (R212): no tick is left, or the cursor's unit answers Ok, or an error. -/
theorem exec_step_dump_cases (hsc : s.seq.sc = .dump) (h : exec .step s = .next t) :
    (s.seq.countdown = 0 ∧ t.seq = { s.seq with sc := .dumpTimeout }) ∨
    (0 < s.seq.countdown ∧ Safety.unitAnswers s (.ok .unit) ∧ ∃ n, t.seq = { s.seq with
      sc := stateAfterUnit s
      countdown := s.seq.countdown - 1
      byteCount := n
      planIdx := s.seq.planIdx + 1 }) ∨
    (0 < s.seq.countdown ∧ ∃ e, Safety.unitAnswers s (.err e) ∧
      t.seq = { s.seq with sc := .dumpFail, countdown := s.seq.countdown - 1 } ∧
      t.out.events.getLast? = some (.log (.error e.kind))) := by
  rcases Nat.eq_zero_or_pos s.seq.countdown with h0 | hc
  · obtain rfl := Host.Outcome.next.inj ((exec_step_noTicks hsc h0).symm.trans h)
    exact .inl ⟨h0, rfl⟩
  obtain ⟨u, hu, -⟩ := exec_step_next h
  rw [tick_dump (s := start s) hsc] at hu
  rcases stepDump_cases hu with ⟨h0, -⟩ | ⟨v, -, hv, -⟩
  · exact absurd h0 hc.ne'
  refine .inr ?_
  rcases hr : runUnit v (consumeTick (start s)) with ⟨_ | e, w⟩
  · have hseq := runUnit_seq v (consumeTick (start s))
    obtain rfl := Host.Outcome.next.inj ((exec_step_unit_ok hsc hc hv hr).symm.trans h)
    refine .inl ⟨hc, (unitAnswers_iff (s := s) hv).2 (by rw [hr]; rfl), w.seq.byteCount, ?_⟩
    rw [hr] at hseq
    change { w.seq with sc := stateAfterUnit s, planIdx := s.seq.planIdx + 1 } = _
    rw [hseq]
    rfl
  · obtain rfl := Host.Outcome.next.inj ((exec_step_unit_err hsc hc hv hr).symm.trans h)
    obtain ⟨hseq, -⟩ := runUnit_err hr
    refine .inr ⟨hc, e, (unitAnswers_iff (s := s) hv).2 (by rw [hr]; rfl), ?_, List.getLast?_concat⟩
    simp [Safety.withOut, hseq]

/-! ## Every instruction -/

/-- Only STEP, REQUEST_DUMP and ABORT write the sequencer's state (10_state.md R22). -/
theorem exec_sc_eq (h : exec i s = .next t) (hstep : i ≠ .step) (hreq : i ≠ .requestDump) (hab : i ≠ .abort) :
    t.seq.sc = s.seq.sc := by
  obtain ⟨u, hu, hseq, -⟩ := exec_next h
  rw [hseq]
  rcases effect_seq_cases hu with ⟨-, hq⟩ | ⟨k, -, -, hq⟩ | ⟨rfl, -⟩ | ⟨rfl, -⟩ | ⟨v, n, -, hq⟩ | ⟨rfl, -⟩
  · rw [hq]
  · rw [hq]
  · exact absurd rfl hreq
  · exact absurd rfl hab
  · rw [hq]
  · exact absurd rfl hstep

theorem exec_requestDump_sc (h : exec .requestDump s = .next t) :
    t.seq.sc = if s.seq.sc = .ready then .dumpBegin else s.seq.sc := by
  by_cases hr : s.seq.sc = .ready
  · obtain rfl := Host.Outcome.next.inj ((exec_requestDump_started hr).symm.trans h)
    exact (if_pos hr).symm
  · obtain rfl := Host.Outcome.next.inj ((exec_requestDump_busy hr).symm.trans h)
    exact (if_neg hr).symm

theorem exec_abort_sc (h : exec .abort s = .next t) :
    t.seq.sc = if s.seq.sc = .dumpBegin ∨ s.seq.sc = .dump then .dumpAbort else s.seq.sc := by
  simp only [← SeqState.isAbortable_iff]
  cases hab : s.seq.sc.isAbortable
  · obtain rfl := Host.Outcome.next.inj ((exec_abort_ignored hab).symm.trans h)
    rfl
  · obtain rfl := Host.Outcome.next.inj ((exec_abort_accepted hab).symm.trans h)
    rfl

/-- Settles O42: STEP's arcs by its work, those of DUMP by what the cursor's unit answers. -/
theorem transitionsFollowTheTable : Obligations.TransitionsFollowTheTable := by
  intro i s t h
  refine ⟨exec_sc_eq h, ?_, ?_, ?_⟩
  · rintro rfl; exact exec_requestDump_sc h
  · rintro rfl; exact exec_abort_sc h
  · rintro rfl
    refine ⟨exec_step_mem_stepArcs h, fun hsc => exec_step_dumpBegin_eq_dump_iff hsc h, fun hsc => ?_⟩
    rcases exec_step_dump_cases hsc h with ⟨h0, hseq⟩ | ⟨hc, hok, n, hseq⟩ | ⟨hc, e, herr, hseq, hlog⟩
    · simp [hseq, h0]
    · have hno : ∀ e, ¬ Safety.unitAnswers s (.err e) := fun e he => by cases unitAnswers_unique hok he
      simp only [hseq, stateAfterUnit_eq_dumpEnd_iff, stateAfterUnit_eq_dumpTimeout_iff, stateAfterUnit_eq_dump_iff,
        stateAfterUnit_ne_dumpFail, hok, hno, exists_false, and_false, false_implies, implies_true, true_and, and_true]
      omega
    · have hno : ¬ Safety.unitAnswers s (.ok .unit) := fun hok => by cases unitAnswers_unique hok herr
      have hlogged : ∃ e, Safety.unitAnswers s (.err e) ∧ t.out.events.getLast? = some (.log (.error e.kind)) :=
        ⟨e, herr, hlog⟩
      have hanswer : ∃ e, Safety.unitAnswers s (.err e) := ⟨e, herr⟩
      simp [hseq, hno, hc, hc.ne', hanswer, hlogged]

end Sys2Proof.Machine
end

section
/-! SUPPORT. Runs of STEPs: how a dump and an abort come back to READY (43_sequencer.md R222, 70_reset_and_hazards.md R289). -/

namespace Sys2Proof.Machine

variable {s t u : State} {n : Nat}

/-! ## The way back -/

theorem steps_succ (h : exec .step s = .next t) (n : Nat) : Safety.steps (n + 1) s = Safety.steps n t := by
  rw [Safety.steps, h]

/-- From `s`, at most `n` STEPs lead to READY with the lock free. -/
def ReturnsWithin (n : Nat) (s : State) : Prop :=
  ∃ k t, k ≤ n ∧ Safety.steps k s = .next t ∧ t.seq.sc = .ready ∧ t.seq.lock = false

theorem ReturnsWithin.mono {m : Nat} (h : ReturnsWithin n s) (hm : n ≤ m) : ReturnsWithin m s := by
  obtain ⟨k, t, hk, ht⟩ := h
  exact ⟨k, t, hk.trans hm, ht⟩

theorem ReturnsWithin.step (hstep : exec .step s = .next t) (h : ReturnsWithin n t) : ReturnsWithin (n + 1) s := by
  obtain ⟨k, u, hk, hsteps, hu⟩ := h
  exact ⟨k + 1, u, Nat.succ_le_succ hk, (steps_succ hstep k).trans hsteps, hu⟩

theorem returnsWithin_reset (h : s.seq.sc = .reset) : ReturnsWithin 1 s :=
  .step (exec_step_reset h) ⟨0, _, Nat.le_refl 0, rfl, rfl, rfl⟩

theorem returnsWithin_dumpFail (h : s.seq.sc = .dumpFail) : ReturnsWithin 2 s :=
  .step (exec_step_dumpFail h) (returnsWithin_reset rfl)

theorem returnsWithin_dumpTimeout (h : s.seq.sc = .dumpTimeout) : ReturnsWithin 3 s :=
  .step (exec_step_dumpTimeout h) (returnsWithin_dumpFail rfl)

theorem returnsWithin_dumpEnd (h : s.seq.sc = .dumpEnd) : ReturnsWithin 2 s :=
  .step (exec_step_dumpEnd h) (returnsWithin_reset rfl)

/-! ## From DUMP -/

/-- Units of the plan that are left. -/
def unitsLeft (s : State) : Nat := (planUnits s.seq.cfgStrategy).length - s.seq.planIdx

theorem exec_step_dump (hsc : s.seq.sc = .dump) (hcur : 0 < unitsLeft s) : ∃ t, exec .step s = .next t := by
  rcases Nat.eq_zero_or_pos s.seq.countdown with h0 | hc
  · exact ⟨_, exec_step_noTicks hsc h0⟩
  · exact ⟨_, exec_step_unit hsc hc (List.getElem?_eq_getElem (Nat.lt_of_sub_pos hcur))⟩

theorem stateAfterUnit_cases (s : State) : stateAfterUnit s = .dumpEnd ∨ stateAfterUnit s = .dumpTimeout ∨
    (stateAfterUnit s = .dump ∧ s.seq.countdown ≠ 1 ∧ s.seq.planIdx + 1 ≠ (planUnits s.seq.cfgStrategy).length) := by
  rw [stateAfterUnit_eq_dumpEnd_iff, stateAfterUnit_eq_dumpTimeout_iff, stateAfterUnit_eq_dump_iff]
  omega

/-- A DUMP step leaves DUMP, or takes a tick and a unit and leaves some of both. -/
theorem exec_step_dump_progress (hsc : s.seq.sc = .dump) (hleft : 0 < unitsLeft s) (h : exec .step s = .next t) :
    t.seq.sc = .dumpTimeout ∨ t.seq.sc = .dumpEnd ∨ t.seq.sc = .dumpFail ∨
    (t.seq.sc = .dump ∧ 0 < t.seq.countdown ∧ t.seq.countdown + 1 = s.seq.countdown ∧
      0 < unitsLeft t ∧ unitsLeft t + 1 = unitsLeft s) := by
  rcases exec_step_dump_cases hsc h with ⟨-, hseq⟩ | ⟨hc, -, n, hseq⟩ | ⟨-, e, -, hseq, -⟩
  · exact .inl (by rw [hseq])
  · unfold unitsLeft at hleft ⊢
    rw [hseq]
    rcases stateAfterUnit_cases s with hend | hto | ⟨hdump, hc1, hlast⟩
    · exact .inr (.inl hend)
    · exact .inl hto
    · refine .inr (.inr (.inr ⟨hdump, ?_⟩))
      simp only
      omega
  · exact .inr (.inr (.inl (by rw [hseq])))

/-- In DUMP each step but the last takes a tick and a unit (R222). -/
theorem returnsWithin_dump (hsc : s.seq.sc = .dump) (hleft : 0 < unitsLeft s) :
    ReturnsWithin (max 1 (min (unitsLeft s) s.seq.countdown) + 3) s := by
  induction hn : s.seq.countdown using Nat.strong_induction_on generalizing s with
  | h n ih =>
    obtain ⟨t, ht⟩ := exec_step_dump hsc hleft
    rcases exec_step_dump_progress hsc hleft ht with hto | hend | hfail | ⟨hdump, hpos, hcount, hleft', hunits⟩
    · exact ((returnsWithin_dumpTimeout hto).step ht).mono (by omega)
    · exact ((returnsWithin_dumpEnd hend).step ht).mono (by omega)
    · exact ((returnsWithin_dumpFail hfail).step ht).mono (by omega)
    · exact ((ih _ (by omega) hdump hleft' rfl).step ht).mono (by omega)

/-- Settles O57: the first step fails, or begins a plan none of whose units is done, with all the ticks. -/
theorem everyDumpReturnsToReady : Obligations.EveryDumpReturnsToReady := by
  intro s hs hsc
  change ReturnsWithin _ s
  have hfails {t : State} (ht : exec .step s = .next t) (hfail : t.seq.sc = .dumpFail) :
      ReturnsWithin (1 + max 1 (min (planUnits s.seq.cfgStrategy).length s.par.timeoutTicks) + 3) s :=
    ((returnsWithin_dumpFail hfail).step ht).mono (by omega)
  rcases hp : readPlan s.seq.cfgStrategy with _ | p
  · exact hfails (exec_step_unsupported hsc hp) rfl
  cases ho : s.link.linkOpen
  · exact hfails (exec_step_sync_closed hs.params hsc hp ho) rfl
  cases hd : (nextDraw s).ok
  · exact hfails (exec_step_sync_failed hs.params hsc hp ho hd) rfl
  · have hback := returnsWithin_dump (s := Safety.withOut (.ok .unit) [.lock, .tx (syncBytes s.par)]
      (Safety.withDraws 1 (dumpPrepared p.size s .dump))) rfl (Safety.planUnits_length_pos hp)
    refine (hback.step (exec_step_sync_done hs.params hsc hp ho hd)).mono ?_
    change max 1 (min (planUnits s.seq.cfgStrategy).length s.par.timeoutTicks) + 3 + 1 ≤ _
    omega

/-- Settles O58: DUMP_ABORT, DUMP_FAIL and RESET, none of which touches image or link. -/
theorem abortReturnsInThreeSteps : Obligations.AbortReturnsInThreeSteps := by
  intro s t hab h
  obtain rfl := Host.Outcome.next.inj ((exec_abort_accepted (SeqState.isAbortable_iff.2 hab)).symm.trans h)
  rw [steps_succ (exec_step_dumpAbort rfl) 2, steps_succ (exec_step_dumpFail rfl) 1, steps_succ (exec_step_reset rfl) 0]
  exact ⟨_, rfl, rfl, rfl, rfl⟩

end Sys2Proof.Machine
end

section
/-! SUPPORT. A NONE dump with a cooperating firmware (43_sequencer.md R203, R206, R212; 95_test_vectors.md E5, P1). -/

namespace Sys2Proof.Machine

/-! ## What a block write leaves of the image's bytes -/

theorem Memory.readBytes_add (m : Memory) (off n k : Nat) :
    m.readBytes off (n + k) = m.readBytes off n ++ m.readBytes (off + n) k := by
  induction n generalizing off with
  | zero => rw [Nat.zero_add]; rfl
  | succ n ih =>
    rw [Nat.succ_add, Memory.readBytes, Memory.readBytes, ih, List.cons_append, Nat.add_assoc off 1 n, Nat.add_comm 1 n]

/-- The bytes before the range are as they were. -/
theorem Memory.readBytes_writeBytes_before {m : Memory} {lo n off : Nat} {bs : Bytes} (h : m.wf = true)
    (hn : lo + n ≤ off) : (m.writeBytes off bs).readBytes lo n = m.readBytes lo n := by
  induction n generalizing lo with
  | zero => rfl
  | succ n ih =>
    rw [Memory.readBytes, Memory.readBytes, ih (by omega), Memory.read_writeBytes_outside h (.inl (by omega))]

/-- The range holds what was written. -/
theorem Memory.readBytes_writeBytes_same {m : Memory} (off : Nat) (bs : Bytes) (h : m.wf = true) :
    (m.writeBytes off bs).readBytes off bs.length = bs := by
  refine List.ext_getElem (Memory.length_readBytes _ _ _) fun i _ hi => ?_
  have hread := Memory.getElem?_readBytes (m.writeBytes off bs) off bs.length i hi
  rw [Memory.read_writeBytes_inside h hi, List.getD_eq_getElem _ _ hi] at hread
  exact (List.getElem?_eq_some_iff.1 hread).2

/-- A block written behind what has been read extends it. -/
theorem Memory.readBytes_writeBytes_append {m : Memory} (n : Nat) (bs : Bytes) (h : m.wf = true) :
    (m.writeBytes n bs).readBytes 0 (n + bs.length) = m.readBytes 0 n ++ bs := by
  rw [Memory.readBytes_add, Memory.readBytes_writeBytes_before h (Nat.zero_add n).le, Nat.zero_add,
    Memory.readBytes_writeBytes_same n bs h]

/-! ## One block of the dump -/

variable {s t : State} {pay : Nat → Bytes} {k : Nat}

/-- The environment answers the block request whose WRITE is draw `d` of `s` with a whole frame around `bs`, which the
READ takes whole (41_transport.md R157, R159). -/
def BlockAnswered (s : State) (d : Nat) (bs : Bytes) : Prop :=
  bs.length = 256 ∧ (Safety.draw s d).ok = true ∧ (Safety.draw s (d + 1)).ok = true ∧
    266 ≤ (Safety.draw s (d + 1)).count ∧
    ∃ q : Packet, q.payload = bs ∧ (Safety.draw s (d + 1)).arrives = encodeFrame q

/-- EXEC_UNIT of a block so answered, on an open link with an empty buffer. -/
theorem runUnit_block_answered (a : Half) {off : Nat} {bs : Bytes} (ho : s.link.linkOpen = true) (hrx : s.link.rx = [])
    (hfit : off + 256 ≤ s.img.capacity) (h : BlockAnswered s s.env.drawIdx bs) :
    runUnit (.block a off 256) s = (.ok (), storeBlock off bs (afterExchange (mkreq s.par .readBlock a 256) [] s)) := by
  obtain ⟨hlen, hw, hr, hcount, q, rfl, harr⟩ := h
  have hframe : (encodeFrame q).length = 266 := by rw [length_encodeFrame, hlen]
  have hbuf : readBuffer (drawn s) = encodeFrame q ++ [] := by
    rw [readBuffer, drawn_link, hrx, nextDraw_drawn, harr, List.nil_append, List.append_nil]
  rw [← drop_encodeFrame q]
  exact runUnit_block_framed ho hw hr hbuf (hframe.trans_le hcount) (frameCk_encodeFrame_eq_halfAt q) hframe hfit

theorem getElem?_planUnits_none (h : k < 16) : (planUnits .none)[k]? =
    some (.block (BitVec.ofNat 16 (0x1000 + k * 256)) (k * 256) 256) := by
  change (planBank 0)[k]? = _
  simpa using getElem?_planBank (base := 0) h

/-! ## The whole dump -/

/-- `t` is where `k` units of a NONE dump lead from `s`, its image beginning with their payloads. -/
structure Collected (s : State) (pay : Nat → Bytes) (k : Nat) (t : State) : Prop where
  seq : t.seq = { s.seq with
    sc := if k = 16 then .dumpEnd else .dump
    countdown := s.seq.countdown - k
    byteCount := s.seq.byteCount + k * 256
    planIdx := k }
  link : t.link = s.link
  env : t.env = (Safety.withDraws (2 * k) s).env
  capacity : t.img.capacity = 4096
  dataForm : t.img.data.wf = true
  bytes : t.img.data.readBytes 0 (k * 256) = ((List.range k).map pay).flatten

/-- The environment of `t` is that of `s`, `2 * k` draws on. -/
theorem Collected.answered (h : Collected s pay k t) (hreply : BlockAnswered s (s.env.drawIdx + 2 * k) (pay k)) :
    BlockAnswered t t.env.drawIdx (pay k) := by
  have hdraw : Safety.draw t = Safety.draw s := by unfold Safety.draw; rw [h.env]; rfl
  rw [BlockAnswered, hdraw, h.env]
  exact hreply

/-- With ticks for the whole plan, only its end leaves DUMP. -/
theorem Collected.stateAfterUnit_eq (h : Collected s pay k t) (hnone : s.seq.cfgStrategy = .none)
    (hticks : 16 ≤ s.seq.countdown) (hk : k < 16) : stateAfterUnit t = if k + 1 = 16 then .dumpEnd else .dump := by
  have hplan : (planUnits s.seq.cfgStrategy).length = 16 := by rw [hnone]; rfl
  have htick : k + 1 ≠ 16 → s.seq.countdown - k ≠ 1 := by omega
  unfold stateAfterUnit
  simp only [h.seq, hplan]
  split
  · rfl
  · exact if_neg (htick ‹_›)

section
variable (hnone : s.seq.cfgStrategy = .none) (hticks : 16 ≤ s.seq.countdown) (ho : s.link.linkOpen = true)
  (hrx : s.link.rx = []) (hreply : ∀ i, i < 16 → BlockAnswered s (s.env.drawIdx + 2 * i) (pay i))
include hnone hticks ho hrx hreply

/-- One STEP collects one more payload. -/
theorem Collected.step (hk : k < 16) (h : Collected s pay k t) :
    ∃ t', exec .step t = .next t' ∧ Collected s pay (k + 1) t' := by
  have hstate := h.stateAfterUnit_eq hnone hticks hk
  have hanswer : BlockAnswered (consumeTick (start t)) t.env.drawIdx (pay k) := h.answered (hreply k hk)
  have hlen : (pay k).length = 256 := hanswer.1
  obtain ⟨hseq, hlink, henv, hcap, hwf, hbytes⟩ := h
  have hsc : t.seq.sc = .dump := by rw [hseq]; exact if_neg hk.ne
  have hc : 0 < t.seq.countdown := by rw [hseq]; exact Nat.sub_pos_of_lt (hk.trans_le hticks)
  have hv : (planUnits t.seq.cfgStrategy)[t.seq.planIdx]? =
      some (.block (BitVec.ofNat 16 (0x1000 + k * 256)) (k * 256) 256) := by
    simp only [hseq, hnone]
    exact getElem?_planUnits_none hk
  have hfit : k * 256 + 256 ≤ t.img.capacity := by omega
  have hr := runUnit_block_answered (s := consumeTick (start t)) (BitVec.ofNat 16 (0x1000 + k * 256))
    (hlink ▸ ho) (hlink ▸ hrx) hfit hanswer
  refine ⟨_, exec_step_unit_ok hsc hc hv hr, ?_, ?_, ?_, hcap, Memory.wf_writeBytes _ _ hwf, ?_⟩
  · change { t.seq with
      sc := stateAfterUnit t
      countdown := t.seq.countdown - 1
      byteCount := t.seq.byteCount + (pay k).length
      planIdx := t.seq.planIdx + 1 } = _
    simp only [hstate, hlen, hseq, Nat.succ_mul, Nat.add_assoc, Nat.sub_sub]
  · change { t.link with rx := [] } = s.link
    rw [hlink, ← hrx]
  · change { t.env with drawIdx := t.env.drawIdx + 1 + 1 } = _
    rw [henv]
    rfl
  · change (t.img.data.writeBytes (k * 256) (pay k)).readBytes 0 ((k + 1) * 256) = _
    have happend := Memory.readBytes_writeBytes_append (k * 256) (pay k) hwf
    rw [hlen, hbytes] at happend
    rw [Nat.succ_mul, happend, List.range_succ, List.map_append, List.flatten_append, List.map_singleton,
      List.flatten_singleton]

theorem steps_collected (h0 : Collected s pay 0 s) (hk : k ≤ 16) :
    ∃ t, Safety.steps k s = .next t ∧ Collected s pay k t := by
  induction k with
  | zero => exact ⟨s, rfl, h0⟩
  | succ k ih =>
    obtain ⟨t, hsteps, ht⟩ := ih (by omega)
    obtain ⟨t', hstep, ht'⟩ := ht.step hnone hticks ho hrx hreply hk
    exact ⟨t', (steps_add hsteps).trans (steps_succ hstep 0), ht'⟩

end

/-- Settles O59: sixteen STEPs, each of which appends one payload to the image's beginning. -/
theorem noneDumpCollectsThePayloads : Obligations.NoneDumpCollectsThePayloads := by
  intro s pay hs hsc hnone hidx hcap hticks ho hrx hreply
  have hseq0 : s.seq = { s.seq with sc := .dump, planIdx := 0 } := by rw [← hsc, ← hidx]
  have h0 : Collected s pay 0 s := ⟨hseq0, rfl, rfl, hcap, hs.dataForm, rfl⟩
  obtain ⟨t, hsteps, hseq, hlink, -, htcap, -, hbytes⟩ := steps_collected hnone hticks ho hrx hreply h0 le_rfl
  refine ⟨t, hsteps, by rw [hseq]; rfl, by rw [hseq], by rw [hseq], by rw [hlink, hrx], htcap, ?_⟩
  rw [Image.bytes, htcap]
  exact hbytes

end Sys2Proof.Machine
end

section
/-! SUPPORT. The error table (60_exceptions.md R250), what an operation that answers an error leaves (R251), the
configuration outside the idle states (R258, 10_state.md R28), and the failure path's entry in DUMP (R252). -/

namespace Sys2Proof.Machine

variable {s t u : State} {i : Instr} {e : Err}

/-! ## The error table -/

/-- Settles O44: the rows of the table, read off `Err.kind`, `ErrKind.code`, `ErrKind.errClass` and `LogKind.code`. -/
theorem errorCodesAndClasses : Obligations.ErrorCodesAndClasses :=
  ⟨fun _ => ⟨rfl, rfl⟩, fun _ => ⟨rfl, rfl⟩, fun _ => ⟨rfl, rfl⟩, fun _ => ⟨rfl, rfl⟩, fun _ _ => ⟨rfl, rfl⟩, ⟨rfl, rfl⟩,
    fun _ _ => ⟨rfl, rfl⟩, fun _ => ⟨rfl, rfl⟩, fun _ _ => ⟨rfl, rfl⟩, ⟨rfl, rfl⟩, ⟨rfl, rfl⟩, fun _ => ⟨rfl, rfl⟩, rfl, rfl⟩

/-! ## Rejected operations -/

theorem Res.toValue_eq_err {α : Type} {r : Res α} {f : α → Value} : r.toValue f = .err e ↔ r = .err e := by
  cases r <;> simp [Res.toValue]

/-- CLOSE, SET_CAPACITY and WRITE_AT check before they write (41_transport.md R152, 42_image.md R181, R182). -/
theorem closePort_of_err (h : (closePort s).1 = .err e) : (closePort s).2 = s := by
  cases hidle : s.seq.sc.isIdle
  · rw [closePort_busy hidle]
  · rw [closePort_done hidle] at h; cases h

theorem imageSetCapacity_of_err {n : Nat} (h : (imageSetCapacity n s).1 = .err e) : (imageSetCapacity n s).2 = s := by
  cases hok : capacityOk s.par.imageMax n
  · rw [imageSetCapacity_bounds hok]
  · rw [imageSetCapacity_ok hok] at h; cases h

theorem imageWriteAt_of_err {off : Nat} {bs : Bytes} (h : (imageWriteAt off bs s).1 = .err e) :
    (imageWriteAt off bs s).2 = s := by
  rcases Nat.lt_or_ge s.img.capacity (off + bs.length) with hpast | hfit
  · rw [imageWriteAt_bounds hpast]
  · rw [imageWriteAt_ok hfit] at h; cases h

/-- An OPEN that the gate refuses leaves the link; one that the environment refuses leaves it closed (41_transport.md
R151). -/
theorem openPort_link_of_err {port : PortId} {tm : ReadTimeout} (h : (openPort port tm s).1 = .err e) :
    (openPort port tm s).2.link = s.link ∨ (openPort port tm s).2.link = { s.link with linkOpen := false } := by
  cases hidle : s.seq.sc.isIdle
  · rw [openPort_busy port tm hidle]; exact .inl rfl
  · cases hd : (nextDraw s).ok
    · rw [openPort_failed port tm hidle hd]; exact .inr rfl
    · rw [openPort_done port tm hidle hd] at h; cases h

/-- What a rejected operation leaves, its answer given as the result `r` written into `u`. -/
theorem eq_finish_of_rejected {r : Res Value} (hx : exec i s = .next (finish r u)) (h : exec i s = .next t)
    (he : t.out.result = some (.err e)) : r = .err e ∧ t = finish (.err e) u := by
  obtain rfl := Host.Outcome.next.inj (hx.symm.trans h)
  obtain rfl : r = .err e := Option.some.inj he
  exact ⟨rfl, rfl⟩

/-- An operation whose error writes no component leaves the block as it was. -/
theorem eq_withOut_of_rejected {r : Res Value} (hx : exec i s = .next (finish r u)) (h : exec i s = .next t)
    (he : t.out.result = some (.err e)) (hkeep : r = .err e → u = start s) : t = Safety.withOut (.err e) [] s := by
  obtain ⟨hr, rfl⟩ := eq_finish_of_rejected hx h he
  rw [hkeep hr]
  rfl

/-- SELECT_STRATEGY and REQUEST_DUMP pass their gate or write nothing (43_sequencer.md R219, R207). -/
theorem selectStrategy_rejected {k : Strategy} (h : exec (.selectStrategy k) s = .next t)
    (he : t.out.result = some (.err e)) : t = Safety.withOut (.err e) [] s := by
  cases hidle : s.seq.sc.isIdle
  · exact eq_withOut_of_rejected (exec_selectStrategy_busy k hidle) h he fun _ => rfl
  · obtain rfl := Host.Outcome.next.inj ((exec_selectStrategy_done k hidle).symm.trans h)
    cases he

theorem requestDump_rejected (h : exec .requestDump s = .next t) (he : t.out.result = some (.err e)) :
    t = Safety.withOut (.err e) [] s := by
  by_cases hready : s.seq.sc = .ready
  · obtain rfl := Host.Outcome.next.inj ((exec_requestDump_started hready).symm.trans h)
    cases he
  · exact eq_withOut_of_rejected (exec_requestDump_busy hready) h he fun _ => rfl

/-- Settles O51: each operation checks before it writes, and OPEN writes only the link. -/
theorem rejectedOperationsChangeNothing : Obligations.RejectedOperationsChangeNothing := by
  intro i s t e h he
  constructor
  · rintro (rfl | ⟨k, rfl⟩ | rfl | rfl | ⟨n, rfl⟩ | ⟨off, bs, rfl⟩ | ⟨bs, rfl⟩)
    · exact eq_withOut_of_rejected (exec_closeLink s) h he fun hr => closePort_of_err (Res.toValue_eq_err.1 hr)
    · exact selectStrategy_rejected h he
    · exact requestDump_rejected h he
    · exact eq_withOut_of_rejected (exec_snapshot s) h he fun _ => rfl
    · exact eq_withOut_of_rejected (exec_setCapacity n s) h he fun hr =>
        imageSetCapacity_of_err (Res.toValue_eq_err.1 hr)
    · exact eq_withOut_of_rejected (exec_writeAt off bs s) h he fun hr =>
        imageWriteAt_of_err (Res.toValue_eq_err.1 hr)
    · exact eq_withOut_of_rejected (exec_decodeFrame bs s) h he fun _ => rfl
  · rintro ⟨port, tm, rfl⟩
    obtain ⟨hr, rfl⟩ := eq_finish_of_rejected (exec_openLink port tm s) h he
    have hlink := openPort_link_of_err (Res.toValue_eq_err.1 hr)
    exact ⟨by simp, by simp, by simp, by simp, hlink⟩

/-! ## The configuration outside the idle states -/

/-- Port, read timeout and link_open are in `t` what they are in `s`: of the transport only `rx` may differ. -/
structure KeepsLinkConfig (s t : State) : Prop where
  cfgPort : t.link.cfgPort = s.link.cfgPort
  cfgReadTimeout : t.link.cfgReadTimeout = s.link.cfgReadTimeout
  linkOpen : t.link.linkOpen = s.link.linkOpen

theorem KeepsLinkConfig.of_link (h : t.link = s.link) : KeepsLinkConfig s t := by constructor <;> rw [h]

theorem exchangePacket_keepsLinkConfig (p : Packet) (s : State) : KeepsLinkConfig s (exchangePacket p s).2 :=
  ⟨by simp, by simp, by simp⟩

theorem runUnit_keepsLinkConfig (v : PlanUnit) (s : State) : KeepsLinkConfig s (runUnit v s).2 :=
  ⟨by simp, by simp, by simp⟩

/-- STEP reads, in DUMP, and writes nothing else of the transport (43_sequencer.md R208–R217). -/
theorem tick_keepsLinkConfig (h : tick s = some t) : KeepsLinkConfig s t := by
  rcases tick_cases h with ⟨-, rfl⟩ | ⟨-, rfl⟩ | ⟨-, -, rfl⟩ | ⟨-, p, -, hsync⟩ | ⟨-, -, rfl⟩ | ⟨-, -, v, -, hunit⟩ |
    ⟨-, rfl⟩ | ⟨-, rfl⟩ | ⟨-, rfl⟩ | ⟨-, rfl⟩ | ⟨-, rfl⟩
  iterate 3 exact .of_link rfl
  · rcases hsync with ⟨-, rfl⟩ | ⟨e, -, rfl⟩ <;> exact .of_link (by simp)
  · exact .of_link rfl
  · obtain ⟨hport, htimeout, hopen⟩ := runUnit_keepsLinkConfig v (consumeTick s)
    rcases hunit with ⟨-, rfl⟩ | ⟨e, -, rfl⟩
    · rw [← advancePlan_link] at hport htimeout hopen
      exact ⟨hport, htimeout, hopen⟩
    · exact ⟨hport, htimeout, hopen⟩
  iterate 3 exact .of_link rfl
  iterate 2 exact .of_link (by simp)

/-- Outside the idle states OPEN and CLOSE are refused, and no other instruction writes more of the transport than `rx` (R258). -/
theorem effect_keepsLinkConfig (hbusy : s.seq.sc.isIdle = false) (h : effect i s = some u) :
    KeepsLinkConfig (start s) u := by
  cases i
  case step => exact tick_keepsLinkConfig h
  all_goals obtain rfl := Option.some.inj h
  case openLink port tm => rw [openPort_busy (s := start s) port tm hbusy]; exact .of_link rfl
  case closeLink => rw [closePort_busy (s := start s) hbusy]; exact .of_link rfl
  case readSingle | writeSingle | emulateSingle | readBlock | writeBlock | emulateBlock | setReadDelay | getReadDelay
    | getInfo | sync | nop | exchange => exact exchangePacket_keepsLinkConfig _ _
  case execUnit v => exact runUnit_keepsLinkConfig v _
  case read max => exact ⟨by simp, by simp, by simp⟩
  case selectStrategy | requestDump | abort => exact .of_link (by split <;> rfl)
  all_goals exact .of_link (by simp)

/-- The strategy's one writer, SELECT_STRATEGY, is refused outside the idle states (43_sequencer.md R219). -/
theorem exec_cfgStrategy_of_busy (hbusy : s.seq.sc.isIdle = false) (h : exec i s = .next t) :
    t.seq.cfgStrategy = s.seq.cfgStrategy := by
  by_contra hchanged
  obtain ⟨-, -, -, -, -, hwriter⟩ := sequencerRegistersHaveTheirWriters i s t h
  obtain ⟨k, rfl⟩ := hwriter hchanged
  obtain rfl := Host.Outcome.next.inj ((exec_selectStrategy_busy k hbusy).symm.trans h)
  exact hchanged rfl

/-- Settles O50: the gates of OPEN, CLOSE and SELECT_STRATEGY are closed, and nothing else writes the configuration. -/
theorem busyStatesKeepConfiguration : Obligations.BusyStatesKeepConfiguration := by
  intro i s t hi hr h
  have hbusy := SeqState.isIdle_eq_false hi hr
  obtain ⟨u, hu, -, hlink, -⟩ := exec_next h
  obtain ⟨hport, htimeout, hopen⟩ := effect_keepsLinkConfig hbusy hu
  rw [hlink]
  exact ⟨hport, htimeout, hopen, exec_cfgStrategy_of_busy hbusy h⟩

/-! ## The failure path's entry -/

theorem advancePlan_sc_ne_dumpFail (h : s.seq.sc ≠ .dumpFail) : (advancePlan s).seq.sc ≠ .dumpFail := by
  rw [advancePlan_seq]
  dsimp only
  split
  · decide
  split
  · decide
  · exact h

/-- DUMP's step enters DUMP_FAIL by a unit that fails, and by nothing else (43_sequencer.md R212). -/
theorem unit_failed_of_exec_step (hsc : s.seq.sc = .dump) (h : exec .step s = .next t) (hfail : t.seq.sc = .dumpFail) :
    ∃ v e w, runUnit v (consumeTick (start s)) = (.err e, w) ∧ t = finish (.ok .unit) (enterFailure e.kind w) := by
  obtain ⟨u, hu, rfl⟩ := exec_step_next h
  rw [tick_dump (s := start s) hsc] at hu
  rcases stepDump_cases hu with ⟨-, rfl⟩ | ⟨v, -, -, rfl⟩
  · cases hfail
  rcases hr : runUnit v (consumeTick (start s)) with ⟨_ | e, w⟩
  · have hw : w.seq.sc = .dump := by simpa [hr, hsc] using runUnit_sc v (consumeTick (start s))
    rw [hr] at hfail
    exact absurd hfail (advancePlan_sc_ne_dumpFail (by simp [hw]))
  · exact ⟨v, e, w, hr, rfl⟩

/-- Settles O56: the unit that failed left sequencer, image and configuration as it found them, its tick taken. -/
theorem failureEntryIsPrecise : Obligations.FailureEntryIsPrecise := by
  intro s t hsc h hfail
  obtain ⟨v, e, w, hr, rfl⟩ := unit_failed_of_exec_step hsc h hfail
  obtain ⟨hseq, himg⟩ := runUnit_err hr
  have hkeep := runUnit_keepsLinkConfig v (consumeTick (start s))
  rw [hr] at hkeep
  exact ⟨by simp [hseq], himg, hkeep.cfgPort, hkeep.cfgReadTimeout, hkeep.linkOpen, e.kind, List.getLast?_concat⟩

end Sys2Proof.Machine
end

section
/-! SUPPORT. The values the state has after reset (70_reset_and_hazards.md R280). -/

namespace Sys2Proof.Machine

/-- The image after reset has the default capacity and no cell: the zero fill is the absence of cells (log entry 12). -/
theorem reset_img : State.reset.img = { capacity := 4096, data := [], valid := false } := rfl

/-- The zero fill of R280, offset by offset. -/
theorem reset_img_bytes : State.reset.img.bytes = List.replicate 4096 0x00 := by
  rw [Image.bytes, reset_img]
  exact Memory.readBytes_nil 0 4096

/-- Settles O43: each register by the definition of the reset state, the image's bytes by its empty storage. -/
theorem resetValues : Obligations.ResetValues :=
  ⟨rfl, rfl, rfl, rfl, rfl, rfl, reset_img_bytes, rfl, rfl, rfl⟩

end Sys2Proof.Machine
end
